-- ==== Sys2Proof/Word.lean ====
section
/-! DEFINITION. The word types of the TWSC: everything the spec calls u8, u16 and u32 (00_scope.md R11). -/

namespace Sys2Proof

/-- u32: a host register, a command word (10_state.md R21, 30_encoding.md R80). -/
abbrev Word := BitVec 32

/-- u16 (00_scope.md R11). -/
abbrev Half := BitVec 16

/-- u8: "all values are bytes" on the bus (20_memory.md R63). -/
abbrev Byte := BitVec 8

end Sys2Proof
end

