-- ==== Sys2Proof/Config.lean ====
section
/-! DEFINITION. What an implementation fixes (the parameters of 00_scope.md R10) and the free values: constants
with no body, of which nothing can be proved (93_implementation_defined.md Part 1, treatment "any value"). -/

namespace Sys2Proof

/-- `REG_DRIVE_TIME` is one of `REG_CONTROL1..5` (00_scope.md R10, decision D36). -/
inductive ControlReg where
  | control1 | control2 | control3 | control4 | control5
  deriving DecidableEq, Repr, Inhabited

/-- The parameters of 00_scope.md R10. The type bounds only the widths; `Params.wellFormed` is the constraint
column. `REG_DRIVE_TIME` is held as the choice among the control registers that the constraint allows. -/
structure Params where
  targetAddr : BitVec 7
  wIdle : Word
  wEvent : Word
  dbufLen : Half
  maxFrames : Half
  settleMs : Half
  regStatus : Byte
  regMode : Byte
  regRtp : Byte
  regLibrary : Byte
  waveseqBase : Byte
  regGo : Byte
  regOdt : Byte
  regSpt : Byte
  regSnt : Byte
  regBrt : Byte
  regAudioCtrl : Byte
  regAudioMin : Byte
  regAudioMax : Byte
  regRatedV : Byte
  regOdClamp : Byte
  regAcalComp : Byte
  regAcalBemf : Byte
  regFeedback : Byte
  regControl1 : Byte
  regControl2 : Byte
  regControl3 : Byte
  regControl4 : Byte
  regControl5 : Byte
  regVbat : Byte
  regLraPeriod : Byte
  modeIntTrig : Byte
  modeExtEdge : Byte
  modeExtLevel : Byte
  modePwm : Byte
  modeAudio : Byte
  modeRtp : Byte
  modeDiag : Byte
  modeAutocal : Byte
  goMask : Byte
  fbLra : Byte
  fbErm : Byte
  libLra : Byte
  effectStrongClick : Byte
  audioMaxDefault : Byte
  driveTimeReg : ControlReg
  dtFallback : Byte
  burstMsReset : Half
  pauseMsReset : Half
  maxMvReset : Half
  cleanupIdleAffectsOutcome : Bool
  readResultsOnTimeout : Bool
  deriving DecidableEq, Repr, Inhabited

/-- A status snapshot (10_state.md R36): what one `Sample()` answers. -/
structure Snapshot where
  busy : Bool
  modeSel : Bool
  txSel : Bool
  rxSel : Bool
  txe : Bool
  byteTx : Bool
  byteRx : Bool
  af : Bool
  berr : Bool
  arlo : Bool
  deriving DecidableEq, Repr, Inhabited

/-- The parameters of the machine that comes out of `State.reset`: each implementation decides (R10, U10 to U14). -/
opaque Config.params : Params

/-- Free value: the snapshot that draw `n` answers (U1; 10_state.md R36 "A snapshot is a draw"). -/
opaque Config.snapshot : Nat → Snapshot

/-- Free value: the received byte that draw `n` answers (U2). -/
opaque Config.rxByte : Nat → Byte

/-- Free value: a byte left open by a failed command (U6; 40_bus_engine.md R112). -/
opaque Config.freeByte : Nat → Byte

/-- Free value: `H_RDATA[15:0]` after a NOT_READY getter (U5; 10_state.md R26). -/
opaque Config.freeHalf : Nat → Half

/-- Free value: which of several values allowed by a rule is taken (U8; 20_memory.md R68 item 3). -/
opaque Config.freeIndex : Nat → Nat

/-- Free value: the content, after reset number `r`, of the buffer byte at host offset `a` (U3, U4). -/
opaque Config.bufferByte : (r a : Nat) → Byte

end Sys2Proof
end

