-- ==== Sys2Proof/Syntax.lean ====
section
/-! DEFINITION. The commands: one constructor for each row of spec/opcode_table.json (30_encoding.md R84). -/

namespace Sys2Proof

/-- The motor bit `M = OP[0]` of CD_CONFIGURE: 1 = LRA, 0 = ERM (30_encoding.md R83). -/
inductive Motor where
  | erm | lra
  deriving DecidableEq, Repr

/-- The commands of 30_encoding.md R84 with their operand fields; `dv` is DV = C[0], `rb` is RB = C[0] (R83). -/
inductive Instr where
  | busWrite (n : Byte)
  | busRead (reg n : Byte) (dv : Bool)
  | regWrite (reg value : Byte)
  | regRead (reg : Byte) (dv : Bool)
  | setWaveform (slot effect : Byte)
  | getWaveform (slot : Byte) (dv : Bool)
  | clearSequence
  | setSustain (pos neg : Byte)
  | encRated
  | decRated (code : Byte)
  | encClamp
  | decClamp (code : Byte)
  | defaultInit
  | autocal (rb : Bool)
  | cdConfigure (motor : Motor) (driveTime strength library : Byte)
  | cdStart
  | cdStop
  | rtPrepare
  | playFreqAmp (amp : Byte)
  | playFreqVoltage
  | agStep
  deriving DecidableEq, Repr

/-- The command's mnemonic, as spec/opcode_table.json spells it. -/
def Instr.mnemonic : Instr → String
  | .busWrite _ => "BUS_WRITE"
  | .busRead _ _ _ => "BUS_READ"
  | .regWrite _ _ => "REG_WRITE"
  | .regRead _ _ => "REG_READ"
  | .setWaveform _ _ => "SET_WAVEFORM"
  | .getWaveform _ _ => "GET_WAVEFORM"
  | .clearSequence => "CLEAR_SEQUENCE"
  | .setSustain _ _ => "SET_SUSTAIN"
  | .encRated => "ENC_RATED"
  | .decRated _ => "DEC_RATED"
  | .encClamp => "ENC_CLAMP"
  | .decClamp _ => "DEC_CLAMP"
  | .defaultInit => "DEFAULT_INIT"
  | .autocal _ => "AUTOCAL"
  | .cdConfigure _ _ _ _ => "CD_CONFIGURE"
  | .cdStart => "CD_START"
  | .cdStop => "CD_STOP"
  | .rtPrepare => "RT_PREPARE"
  | .playFreqAmp _ => "PLAY_FREQ_AMP"
  | .playFreqVoltage => "PLAY_FREQ_VOLTAGE"
  | .agStep => "AG_STEP"

end Sys2Proof
end

