-- ==== Sys2Proof/WellFormed.lean ====
section
/-! DEFINITION. Well-formedness. The operand fields of `Instr` have exactly the widths the command word gives them
(30_encoding.md R81, R83), so the types leave nothing to check of an instruction; what can be ill-formed is a
parameter set, whose constraints are the third column of 00_scope.md R10. -/

namespace Sys2Proof

/-- Every operand has the range of its field by its type (30_encoding.md R83 "used as an unsigned 8-bit value",
flags are one bit, the motor bit is one bit), whichever row the command belongs to. -/
def Instr.wellFormed : Instr → Bool
  | .busWrite _ | .busRead _ _ _ | .regWrite _ _ | .regRead _ _ => true
  | .setWaveform _ _ | .getWaveform _ _ | .clearSequence | .setSustain _ _ => true
  | .encRated | .decRated _ | .encClamp | .decClamp _ => true
  | .defaultInit | .autocal _ | .cdConfigure _ _ _ _ | .cdStart | .cdStop => true
  | .rtPrepare | .playFreqAmp _ | .playFreqVoltage | .agStep => true

/-- `W_IDLE >= 1` and `W_EVENT >= 1`. -/
def Params.budgetsPositive (c : Params) : Bool :=
  decide (1 ≤ c.wIdle.toNat) && decide (1 ≤ c.wEvent.toNat)

/-- `DBUF_LEN` in 2..256 and `MAX_FRAMES` in 1..256. -/
def Params.buffersFit (c : Params) : Bool :=
  decide (2 ≤ c.dbufLen.toNat) && decide (c.dbufLen.toNat ≤ 256) &&
    decide (1 ≤ c.maxFrames.toNat) && decide (c.maxFrames.toNat ≤ 256)

/-- `WAVESEQ_BASE+7 <= 0xFF`. -/
def Params.slotsFit (c : Params) : Bool :=
  decide (c.waveseqBase.toNat + 7 ≤ 0xFF)

/-- The addresses of the named target registers (10_state.md R40), the waveform slots apart. -/
def Params.namedRegs (c : Params) : List Byte :=
  [c.regStatus, c.regMode, c.regRtp, c.regLibrary, c.regGo, c.regOdt, c.regSpt, c.regSnt, c.regBrt,
    c.regAudioCtrl, c.regAudioMin, c.regAudioMax, c.regRatedV, c.regOdClamp, c.regAcalComp, c.regAcalBemf,
    c.regFeedback, c.regControl1, c.regControl2, c.regControl3, c.regControl4, c.regControl5, c.regVbat,
    c.regLraPeriod]

/-- The addresses of the eight waveform slots, `WAVESEQ_BASE + k` (10_state.md R40). -/
def Params.slotRegs (c : Params) : List Byte :=
  (List.range 8).map fun k => c.waveseqBase + BitVec.ofNat 8 k

/-- Register addresses are distinct and the slots do not overlap others (00_scope.md R10, 92_eei_decisions.md). -/
def Params.regsDistinct (c : Params) : Bool :=
  decide (c.namedRegs ++ c.slotRegs).Nodup

/-- The eight mode codes are distinct (00_scope.md R10). -/
def Params.modesDistinct (c : Params) : Bool :=
  decide [c.modeIntTrig, c.modeExtEdge, c.modeExtLevel, c.modePwm, c.modeAudio, c.modeRtp, c.modeDiag,
    c.modeAutocal].Nodup

/-- `GO_MASK` has exactly one bit set (00_scope.md R10). -/
def Params.goMaskOneBit (c : Params) : Bool :=
  decide (c.goMask ∈ [0x01#8, 0x02#8, 0x04#8, 0x08#8, 0x10#8, 0x20#8, 0x40#8, 0x80#8])

/-- The constraint column of 00_scope.md R10. -/
def Params.wellFormed (c : Params) : Bool :=
  c.budgetsPositive && c.buffersFit && c.slotsFit && c.regsDistinct && c.modesDistinct && c.goMaskOneBit

end Sys2Proof
end

