-- ==== Sys2Proof/Decode.lean ====
section
/-! DEFINITION. The command word `CMD32` = `C, B, A, OP` from bit 31 down (30_encoding.md R80 to R86): its fields, the
opcode map as data, the decoder (total on every word, refusing by name) and the encoder. -/

namespace Sys2Proof

/-- Byte `j` of a word, byte 0 the least significant (00_scope.md R11, 20_memory.md R62). -/
def byteOf (w : Word) (j : Nat) : Byte := w.extractLsb' (8 * j) 8

/-- The word whose bytes are `b3 b2 b1 b0`, `b0` the least significant. -/
def packBytes (b3 b2 b1 b0 : Byte) : Word := b3 ++ b2 ++ b1 ++ b0

/-- `OP`, bits 7 to 0 (30_encoding.md R81). -/
def opField (w : Word) : Byte := byteOf w 0

/-- `A`, bits 15 to 8. -/
def aField (w : Word) : Byte := byteOf w 1

/-- `B`, bits 23 to 16. -/
def bField (w : Word) : Byte := byteOf w 2

/-- `C`, bits 31 to 24. -/
def cField (w : Word) : Byte := byteOf w 3

/-- A flag operand: bit 0 of field `C` (30_encoding.md R83). -/
def flagOf (c : Byte) : Bool := c.getLsbD 0

/-- Field `C` of a flag operand: bits 7 to 1 are zero. -/
def flagField (b : Bool) : Byte := if b then 1 else 0

/-- One row of the opcode map: the byte `OP` must have under `opMask`, and the bits of `A`, `B` and `C` that must be
zero (30_encoding.md R84; mask and match of a row touch the low byte only). -/
structure OpcodeRow where
  mnemonic : String
  op : Byte
  opMask : Byte
  zeroA : Byte
  zeroB : Byte
  zeroC : Byte
  deriving DecidableEq, Repr

/-- `(w AND mask) = match` for the row (30_encoding.md R84). -/
def OpcodeRow.selects (r : OpcodeRow) (w : Word) : Bool := opField w &&& r.opMask == r.op

/-- The row's "must be 0" bits are zero (30_encoding.md R84). -/
def OpcodeRow.zerosClear (r : OpcodeRow) (w : Word) : Bool :=
  aField w &&& r.zeroA == 0 && bField w &&& r.zeroB == 0 && cField w &&& r.zeroC == 0

/-- The opcode map of 30_encoding.md R84. -/
def opcodeTable : List OpcodeRow :=
  [⟨"BUS_WRITE", 0x01, 0xFF, 0xFF, 0x00, 0xFF⟩,
   ⟨"BUS_READ", 0x02, 0xFF, 0x00, 0x00, 0xFE⟩,
   ⟨"REG_WRITE", 0x03, 0xFF, 0x00, 0x00, 0xFF⟩,
   ⟨"REG_READ", 0x04, 0xFF, 0x00, 0xFF, 0xFE⟩,
   ⟨"SET_WAVEFORM", 0x10, 0xFF, 0x00, 0x00, 0xFF⟩,
   ⟨"GET_WAVEFORM", 0x11, 0xFF, 0x00, 0xFF, 0xFE⟩,
   ⟨"CLEAR_SEQUENCE", 0x12, 0xFF, 0xFF, 0xFF, 0xFF⟩,
   ⟨"SET_SUSTAIN", 0x13, 0xFF, 0x00, 0x00, 0xFF⟩,
   ⟨"ENC_RATED", 0x20, 0xFF, 0xFF, 0xFF, 0xFF⟩,
   ⟨"DEC_RATED", 0x21, 0xFF, 0x00, 0xFF, 0xFF⟩,
   ⟨"ENC_CLAMP", 0x22, 0xFF, 0xFF, 0xFF, 0xFF⟩,
   ⟨"DEC_CLAMP", 0x23, 0xFF, 0x00, 0xFF, 0xFF⟩,
   ⟨"DEFAULT_INIT", 0x30, 0xFF, 0xFF, 0xFF, 0xFF⟩,
   ⟨"AUTOCAL", 0x31, 0xFF, 0xFF, 0xFF, 0xFE⟩,
   ⟨"CD_CONFIGURE", 0x40, 0xFE, 0x00, 0x00, 0x00⟩,
   ⟨"CD_START", 0x42, 0xFF, 0xFF, 0xFF, 0xFF⟩,
   ⟨"CD_STOP", 0x43, 0xFF, 0xFF, 0xFF, 0xFF⟩,
   ⟨"RT_PREPARE", 0x50, 0xFF, 0xFF, 0xFF, 0xFF⟩,
   ⟨"PLAY_FREQ_AMP", 0x51, 0xFF, 0x00, 0xFF, 0xFF⟩,
   ⟨"PLAY_FREQ_VOLTAGE", 0x52, 0xFF, 0xFF, 0xFF, 0xFF⟩,
   ⟨"AG_STEP", 0x60, 0xFF, 0xFF, 0xFF, 0xFF⟩]

/-- Why a word is ILLEGAL (30_encoding.md R85). -/
inductive IllegalReason where
  /-- `OP` matches no row. -/
  | unassignedOpcode
  /-- A "must be 0" bit of the row is set. -/
  | mustBeZero
  deriving DecidableEq, Repr

/-- What a word decodes to: exactly one command, or ILLEGAL (30_encoding.md R86). -/
inductive Decoded where
  | command (i : Instr)
  | illegal (why : IllegalReason)
  deriving DecidableEq, Repr

/-- The command, unless the row's "must be 0" check fails (30_encoding.md R84). -/
def Decoded.unless (mustBeZero : Bool) (i : Instr) : Decoded :=
  if mustBeZero then .command i else .illegal .mustBeZero

/-- The decoder (30_encoding.md R84, R85). -/
def decode (w : Word) : Decoded :=
  let a := aField w
  let b := bField w
  let c := cField w
  let dv := flagOf c
  let noA := a == 0
  let noB := b == 0
  let noC := c == 0
  let flagOnly := c &&& 0xFE == 0
  match (opField w).toNat with
  | 0x01 => .unless (noA && noC) (.busWrite b)
  | 0x02 => .unless flagOnly (.busRead a b dv)
  | 0x03 => .unless noC (.regWrite a b)
  | 0x04 => .unless (noB && flagOnly) (.regRead a dv)
  | 0x10 => .unless noC (.setWaveform a b)
  | 0x11 => .unless (noB && flagOnly) (.getWaveform a dv)
  | 0x12 => .unless (noA && noB && noC) .clearSequence
  | 0x13 => .unless noC (.setSustain a b)
  | 0x20 => .unless (noA && noB && noC) .encRated
  | 0x21 => .unless (noB && noC) (.decRated a)
  | 0x22 => .unless (noA && noB && noC) .encClamp
  | 0x23 => .unless (noB && noC) (.decClamp a)
  | 0x30 => .unless (noA && noB && noC) .defaultInit
  | 0x31 => .unless (noA && noB && flagOnly) (.autocal dv)
  | 0x40 => .command (.cdConfigure .erm a b c)
  | 0x41 => .command (.cdConfigure .lra a b c)
  | 0x42 => .unless (noA && noB && noC) .cdStart
  | 0x43 => .unless (noA && noB && noC) .cdStop
  | 0x50 => .unless (noA && noB && noC) .rtPrepare
  | 0x51 => .unless (noB && noC) (.playFreqAmp a)
  | 0x52 => .unless (noA && noB && noC) .playFreqVoltage
  | 0x60 => .unless (noA && noB && noC) .agStep
  | _ => .illegal .unassignedOpcode

/-- The word of a command: `C, B, A, OP` (30_encoding.md R84, R88). -/
def encode : Instr → Word
  | .busWrite n => packBytes 0 n 0 0x01
  | .busRead reg n dv => packBytes (flagField dv) n reg 0x02
  | .regWrite reg value => packBytes 0 value reg 0x03
  | .regRead reg dv => packBytes (flagField dv) 0 reg 0x04
  | .setWaveform slot effect => packBytes 0 effect slot 0x10
  | .getWaveform slot dv => packBytes (flagField dv) 0 slot 0x11
  | .clearSequence => packBytes 0 0 0 0x12
  | .setSustain pos neg => packBytes 0 neg pos 0x13
  | .encRated => packBytes 0 0 0 0x20
  | .decRated code => packBytes 0 0 code 0x21
  | .encClamp => packBytes 0 0 0 0x22
  | .decClamp code => packBytes 0 0 code 0x23
  | .defaultInit => packBytes 0 0 0 0x30
  | .autocal rb => packBytes (flagField rb) 0 0 0x31
  | .cdConfigure .erm dt strength lib => packBytes lib strength dt 0x40
  | .cdConfigure .lra dt strength lib => packBytes lib strength dt 0x41
  | .cdStart => packBytes 0 0 0 0x42
  | .cdStop => packBytes 0 0 0 0x43
  | .rtPrepare => packBytes 0 0 0 0x50
  | .playFreqAmp amp => packBytes 0 0 amp 0x51
  | .playFreqVoltage => packBytes 0 0 0 0x52
  | .agStep => packBytes 0 0 0 0x60

/-- The instruction decoded from an instruction whose low `nbits` bits are those of `w`, every higher bit zero. A
command is one 32-bit word written in one host access (30_encoding.md R80), so its bits are numbered as the word's. -/
def decodeTableWord (nbits w : Nat) : Option Instr :=
  match decode (BitVec.ofNat 32 (w % 2 ^ nbits)) with
  | .command i => some i
  | .illegal _ => none

end Sys2Proof
end

