-- ==== Sys2Proof/Machine/State.lean ====
section
/-! DEFINITION. The state of the TWSC as plain data (10_state.md), the events it issues, the moves of its host, the
reasons a step can stop, and the state after reset (10_state.md R46). -/

namespace Sys2Proof.Machine

/-- The error classes of 60_exceptions.md R221; "none" is the absence of one. -/
inductive FailClass where
  | bus | arg | timing | illegal
  deriving DecidableEq, Repr

/-- `CD_STATE` (10_state.md R27); the value 3 is never produced. -/
inductive CdState where
  | unconfigured | configuredIdle | running
  deriving DecidableEq, Repr

/-- A best-effort status (10_state.md R33); the value 3 is never produced. -/
inductive BestEffort where
  | notAttempted | failed | ok
  deriving DecidableEq, Repr

/-- The fields of `H_STATUS` (10_state.md R22). -/
structure Status where
  busy : Bool
  done : Bool
  ready : Bool
  overrun : Bool
  errClass : Option FailClass
  deriving DecidableEq, Repr

/-- The auto-calibration request (10_state.md R32): `H_ACAL_V`, `H_ACAL_C14`, `H_ACAL_C5T`. -/
structure AcalRequest where
  rated : Byte
  clamp : Byte
  ctrl1 : Byte
  ctrl2 : Byte
  ctrl3 : Byte
  ctrl4 : Byte
  ctrl5 : Byte
  timeoutMs : Half
  deriving DecidableEq, Repr

/-- The auto-calibration result (10_state.md R33): `H_ACAL_RES0`, `H_ACAL_RES1`. -/
structure AcalResult where
  status : Byte
  comp : Byte
  bemf : Byte
  rated : Byte
  clamp : Byte
  vbat : Byte
  reson : Byte
  vbatSt : BestEffort
  resonSt : BestEffort
  deriving DecidableEq, Repr

/-- The host register file (10_state.md R21 to R33), the bits that a rule names; all others read 0. -/
structure HostRegs where
  status : Status
  cmd : Word
  arg0 : Word
  arg1 : Word
  arg2 : Word
  rdata : Half
  cdState : CdState
  cdStrength : BitVec 7
  rtReady : Bool
  burstMs : Half
  pauseMs : Half
  maxMv : Half
  agCount : BitVec 9
  agPause : Half
  agCursor : BitVec 9
  req : AcalRequest
  res : AcalResult
  deriving DecidableEq, Repr

/-- The latched error flags AF, BERR and ARLO of the bus peripheral (10_state.md R37), as far as the controller's own
samples and flag clears tell. -/
structure ErrorFlags where
  af : Bool
  berr : Bool
  arlo : Bool
  deriving DecidableEq, Repr

/-- Direction of an address: W (transmitter) or R (receiver) (00_scope.md R13). -/
inductive Dir where
  | w | r
  deriving DecidableEq, Repr

/-- The events of 00_scope.md R14. `addr` also carries the bus address it goes to (40_bus_engine.md R103 "to
TARGET_ADDR"), which R14 leaves implicit because there is only one (20_memory.md R73). -/
inductive Event where
  | poll (s : Snapshot)
  | start
  | stop
  | addr (target : BitVec 7) (dir : Dir)
  | tx (b : Byte)
  | rx (b : Byte)
  | ack (on : Bool)
  | clr
  | dms (n : Nat)
  | dus (n : Nat)
  deriving DecidableEq, Repr

/-- One move of the host (60_exceptions.md R239) or of the reset input (70_reset_and_hazards.md R250). `off` is an
11-bit byte offset (20_memory.md R60) and `bytes` the width of the access. -/
inductive HostMove where
  | read (off : BitVec 11) (bytes : Nat)
  | write (off : BitVec 11) (bytes : Nat) (v : Word)
  /-- The host makes no access during one step of the controller (or one step of the idle machine). -/
  | pass
  | reset
  deriving DecidableEq, Repr

/-- DBUF and FRAMES by host offset (20_memory.md R60): the bytes written since reset, addresses strictly rising. An
address that is not listed has no value of its own: reading it gives a free value (U3, U4). -/
abbrev Memory := List Host.Cell

/-- Everything a step can see or change. The host registers, the buffers, the peripheral's state and the event trace
are the spec's; `cfg` holds the parameters; `host`, `reads`, `samples`, `rxBytes`, `draws` and `resets` are the
model's record of its surroundings. -/
structure State where
  /-- The parameters (00_scope.md R10); no step changes them. -/
  cfg : Params
  /-- The host register file (10_state.md R21). -/
  regs : HostRegs
  /-- DBUF and FRAMES (10_state.md R34, R35). -/
  mem : Memory
  /-- Hidden while a command runs: what it has written so far, as (host offset, word read there), each offset's prior
  word first (20_memory.md R68 item 3). Empty between commands. -/
  written : List (Nat × Word)
  /-- The peripheral's acknowledge-enable (10_state.md R38). -/
  ackEnable : Bool
  /-- The peripheral's latched error flags (10_state.md R37). -/
  latched : ErrorFlags
  /-- The event trace of the running or the last command, oldest event first (00_scope.md R14). -/
  trace : List Event
  /-- The moves the host is going to make, the next one first. -/
  host : List HostMove
  /-- What the host's reads returned, as (offset, word), the newest last. -/
  reads : List (Nat × Word)
  /-- The snapshots the bus environment answers with next; beyond them, free values. -/
  samples : List Snapshot
  /-- The received bytes the bus environment answers with next; beyond them, free values. -/
  rxBytes : List Byte
  /-- How many free values have been drawn. -/
  draws : Nat
  /-- How many resets there have been. -/
  resets : Nat
  deriving DecidableEq, Repr

/-- Faults. There is none: "The TWSC has no trap mechanism" (60_exceptions.md R226) and every command ends in its
completion step (R229), so no step of the model ever answers a fault. -/
inductive Fault
  deriving DecidableEq, Repr

/-- Why a step has no meaning. -/
inductive Refusal where
  /-- An instruction without a meaning in this model. No arm of `exec` raises it: every command is modelled. Safe. -/
  | notModelled (mnemonic : String)
  /-- Raised by `step` when a scheduled host access is not a 32-bit access at a multiple of 4 (20_memory.md R61 "A model
  refuses a host access of another width or a misaligned one"). Safe: the machine stops. -/
  | hostAccessShape
  deriving DecidableEq, Repr

/-- `H_STATUS` after reset: 0 (10_state.md R46). -/
def Status.reset : Status := ⟨false, false, false, false, none⟩

/-- The request registers after reset: 0. -/
def AcalRequest.zero : AcalRequest := ⟨0, 0, 0, 0, 0, 0, 0, 0⟩

/-- The result registers at 0, both best-effort fields NOT_ATTEMPTED. -/
def AcalResult.zero : AcalResult := ⟨0, 0, 0, 0, 0, 0, 0, .notAttempted, .notAttempted⟩

/-- No latched error flag. -/
def ErrorFlags.clear : ErrorFlags := ⟨false, false, false⟩

/-- The host registers after reset (10_state.md R46); the burst registers take the parameters of R29. -/
def HostRegs.reset (c : Params) : HostRegs where
  status := Status.reset
  cmd := 0
  arg0 := 0
  arg1 := 0
  arg2 := 0
  rdata := 0
  cdState := .unconfigured
  cdStrength := 0
  rtReady := false
  burstMs := c.burstMsReset
  pauseMs := c.pauseMsReset
  maxMv := c.maxMvReset
  agCount := 0
  agPause := 0
  agCursor := 0
  req := AcalRequest.zero
  res := AcalResult.zero

/-- The machine with parameters `c` right after reset (10_state.md R46), with the boot precondition of
70_reset_and_hazards.md R252 for the peripheral, and an undetermined host and environment. -/
def State.init (c : Params) : State where
  cfg := c
  regs := HostRegs.reset c
  mem := []
  written := []
  ackEnable := true
  latched := ErrorFlags.clear
  trace := []
  host := []
  reads := []
  samples := []
  rxBytes := []
  draws := 0
  resets := 0

/-- The machine right after reset, its parameters the uninterpreted constant `Config.params`. -/
def State.reset : State := State.init Config.params

end Sys2Proof.Machine
end

