-- ==== Sys2Proof/Machine/Flags.lean ====
section
/-! DEFINITION. `H_STATUS`: its bits, its write effect, and what acceptance, an overrun and completion make of it
(10_state.md R22 to R24, 60_exceptions.md R221, R229). The TWSC has no other flags (10_state.md R39). -/

namespace Sys2Proof.Machine

/-- One bit as a number. -/
def bitNat (b : Bool) : Nat := if b then 1 else 0

/-- `ERR_CLASS` code of a class (60_exceptions.md R221). -/
def FailClass.code : FailClass → Nat
  | .bus => 1
  | .arg => 2
  | .timing => 3
  | .illegal => 4

/-- `ERR_CLASS`: 0 for no class (60_exceptions.md R221). -/
def errCode : Option FailClass → Nat
  | none => 0
  | some c => c.code

/-- `H_STATUS` as a word: BUSY [0], DONE [1], READY [2], OVERRUN [3], ERR_CLASS [7:4] (10_state.md R22). -/
def Status.word (s : Status) : Word :=
  BitVec.ofNat 32
    (bitNat s.busy + 2 * bitNat s.done + 4 * bitNat s.ready + 8 * bitNat s.overrun + 16 * errCode s.errClass)

/-- A host write of `v` to `H_STATUS`: writing 1 to DONE or OVERRUN clears it (10_state.md R22). -/
def Status.write1Clear (s : Status) (v : Word) : Status :=
  { s with done := s.done && !v.getLsbD 1, overrun := s.overrun && !v.getLsbD 3 }

/-- Acceptance of a command: `BUSY <- 1; DONE <- 0`; the rest keeps the previous command's values (10_state.md R24). -/
def Status.accept (s : Status) : Status := { s with busy := true, done := false }

/-- An ignored host write: `OVERRUN <- 1` (10_state.md R23). -/
def Status.setOverrun (s : Status) : Status := { s with overrun := true }

/-- The completion step, READY when there is no class (60_exceptions.md R229): OVERRUN unchanged. -/
def Status.complete (s : Status) (cls : Option FailClass) : Status :=
  { s with ready := cls.isNone, errClass := cls, done := true, busy := false }

end Sys2Proof.Machine
end

