-- ==== Sys2Proof/Machine/Operands.lean ====
section
/-! DEFINITION. Every operand form: what a command makes of the fields of its word and of the argument, request and
session registers (30_encoding.md R82, R83), with the arithmetic of the codec and of the tones. All arithmetic is
done on natural numbers and narrowed at the end; the rules show that no u32 value overflows (43_codec.md,
44_timed_routines.md R185, R187). -/

namespace Sys2Proof.Machine

/-- The constants of 00_scope.md R9. -/
def ampMax : Nat := 0x7F
def ratedStepUv : Nat := 21330
def clampStepUv : Nat := 5600
def acalDefaultTimeoutMs : Nat := 2000
def acalPollMs : Nat := 1
def toneNumUs : Nat := 1000000
def halfPeriodMinUs : Nat := 1
def cyclesMin : Nat := 1
def ampMinFromVoltage : Nat := 1
def dtPreserveMask : Byte := 0xC0
def slotCount : Nat := 8

/-- `clamp7(v) = min(v, AMP_MAX)` (00_scope.md R11, 42_device_control.md R149). -/
def clamp7 (v : Byte) : Byte := BitVec.ofNat 8 (min v.toNat ampMax)

/-- `mv = x[H_ARG0][15:0]` (30_encoding.md R82). -/
def arg0Mv (r : HostRegs) : Half := r.arg0.extractLsb' 0 16

/-- `mv = x[H_ARG1][15:0]` (30_encoding.md R82). -/
def arg1Mv (r : HostRegs) : Half := r.arg1.extractLsb' 0 16

/-- Millivolts to a one-byte code with the given step, round half up, saturating (43_codec.md R160, R161). -/
def encodeMv (step : Nat) (mv : Half) : Byte :=
  BitVec.ofNat 8 (min 255 ((mv.toNat * 1000 + step / 2) / step))

/-- A code back to millivolts with the given step, round half up (43_codec.md R162, R163). -/
def decodeMv (step : Nat) (code : Byte) : Half :=
  BitVec.ofNat 16 ((code.toNat * step + 500) / 1000)

/-- `EncRated` (43_codec.md R160). -/
def encRatedCode (mv : Half) : Byte := encodeMv ratedStepUv mv

/-- `EncClamp` (43_codec.md R161). -/
def encClampCode (mv : Half) : Byte := encodeMv clampStepUv mv

/-- `DecRated` (43_codec.md R162). -/
def decRatedMv (code : Byte) : Half := decodeMv ratedStepUv code

/-- `DecClamp` (43_codec.md R163). -/
def decClampMv (code : Byte) : Half := decodeMv clampStepUv code

/-- The effective timeout `T` of AUTOCAL (44_timed_routines.md R173). -/
def effectiveTimeout (q : AcalRequest) : Nat :=
  if q.timeoutMs = 0 then acalDefaultTimeoutMs else q.timeoutMs.toNat

/-- The drive-time byte CD_CONFIGURE writes: the top two bits of `old`, the rest of `dt` (44_timed_routines.md R180). -/
def mergeDriveTime (old dt : Byte) : Byte :=
  (old &&& dtPreserveMask) ||| (dt &&& (0xFF &&& ~~~dtPreserveMask))

/-- `HalfUs(f)`, for `f >= 1` (44_timed_routines.md R185). -/
def halfUs (f : Nat) : Nat := max halfPeriodMinUs (toneNumUs / f)

/-- `Cycles(bms, h)`, for `h >= 1` (44_timed_routines.md R185). -/
def toneCycles (bms : Half) (h : Nat) : Nat := max cyclesMin (bms.toNat * 1000 / (2 * h))

/-- `VoltToAmp(mv, mx)`, for `mv >= 1` and `mx >= 1` (44_timed_routines.md R187). -/
def voltToAmp (mv mx : Half) : Byte :=
  BitVec.ofNat 8 (max ampMinFromVoltage ((min mv.toNat mx.toNat * 127 + mx.toNat / 2) / mx.toNat))

/-- `AMP`, bits 7 to 0 of a frame word (10_state.md R35). -/
def frameAmp (w : Word) : Byte := w.extractLsb' 0 8

/-- `HOLD_MS`, bits 23 to 8 of a frame word (10_state.md R35). -/
def frameHold (w : Word) : Half := w.extractLsb' 8 16

/-- The address of waveform slot `k`: `WAVESEQ_BASE + k` (10_state.md R40). -/
def slotReg (c : Params) (k : Byte) : Byte := c.waveseqBase + k

/-- The address of a control register (10_state.md R40). -/
def controlAddr (c : Params) : ControlReg → Byte
  | .control1 => c.regControl1
  | .control2 => c.regControl2
  | .control3 => c.regControl3
  | .control4 => c.regControl4
  | .control5 => c.regControl5

/-- The address of the drive-time register (44_timed_routines.md R180). -/
def driveTimeAddr (c : Params) : Byte := controlAddr c c.driveTimeReg

/-- The feedback pattern of a motor type: select-LRA or select-ERM (10_state.md R41, 42_device_control.md R145). -/
def feedbackPattern (c : Params) : Motor → Byte
  | .lra => c.fbLra
  | .erm => c.fbErm

/-- "cleared" in a GO poll: `(v AND GO_MASK) = 0` (10_state.md R41). -/
def goClear (c : Params) (g : Byte) : Bool := g &&& c.goMask == 0

/-- The byte an address or data event puts on the wire: the address byte is `TARGET_ADDR, dir` with dir = 0 for W and
1 for R (20_memory.md R65). PRESUMED (log entry 12): the two-wire bus convention; no other definition uses it. -/
def wireByte : Event → Option Byte
  | .addr target .w => some (target ++ 0#1)
  | .addr target .r => some (target ++ 1#1)
  | .tx b => some b
  | .rx b => some b
  | _ => none

end Sys2Proof.Machine
end

