-- ==== Sys2Proof/Machine/Ops.lean ====
section
/-! DEFINITION. The named operations: memory and buffers, the host register file as the host sees it, the host's moves,
reset, the controller's primitives (00_scope.md R13), and how a command ends (60_exceptions.md R220, R229). -/

namespace Sys2Proof.Machine

/-! ### Memory: DBUF and FRAMES by host offset -/

/-- The byte written at `a`, if any was. -/
def Memory.lookup : Memory → Nat → Option Byte
  | [], _ => none
  | (b, v) :: m, a => if b = a then some v else Memory.lookup m a

/-- `m` with byte `v` at `a`, addresses kept rising. -/
def Memory.insert : Memory → Nat → Byte → Memory
  | [], a, v => [(a, v)]
  | (b, w) :: m, a, v =>
    if a < b then (a, v) :: (b, w) :: m
    else if a = b then (a, v) :: m
    else (b, w) :: Memory.insert m a v

/-- The canonical form: strictly rising addresses, all of them in the buffer windows 0x100 to 0x7FF. -/
abbrev Memory.wf (m : Memory) : Prop :=
  m.Pairwise (fun x y => x.1 < y.1) ∧ ∀ c ∈ m, 0x100 ≤ c.1 ∧ c.1 < 0x800

/-- One byte of DBUF or FRAMES storage; a byte not written since reset is a free value (log entry 5). -/
def State.memByte (s : State) (a : Nat) : Byte :=
  match s.mem.lookup a with
  | some v => v
  | none => Config.bufferByte s.resets a

/-- `MemWrite(a, 1, v)` (00_scope.md R12), for a buffer address; others do not exist and nothing is written. -/
def State.setMemByte (s : State) (a : Nat) (v : Byte) : State :=
  if 0x100 ≤ a ∧ a < 0x800 then { s with mem := s.mem.insert a v } else s

/-- Host offset of DBUF and of FRAMES (20_memory.md R60). -/
def dbufBase : Nat := 0x100
def framesBase : Nat := 0x200

/-- `DBUF[i]`; at `DBUF_LEN` and above it reads 0 (20_memory.md R62). -/
def State.dbufByte (s : State) (i : Nat) : Byte :=
  if i < s.cfg.dbufLen.toNat then s.memByte (dbufBase + i) else 0

/-- `DBUF[i] <- v`; at `DBUF_LEN` and above the write is ignored (20_memory.md R62). -/
def State.setDbufByte (s : State) (i : Nat) (v : Byte) : State :=
  if i < s.cfg.dbufLen.toNat then s.setMemByte (dbufBase + i) v else s

/-- The host word of DBUF bytes `i` to `i+3`, little-endian (20_memory.md R62). -/
def State.dbufWord (s : State) (i : Nat) : Word :=
  packBytes (s.dbufByte (i + 3)) (s.dbufByte (i + 2)) (s.dbufByte (i + 1)) (s.dbufByte i)

/-- A host write of DBUF bytes `i` to `i+3` (20_memory.md R62). -/
def State.setDbufWord (s : State) (i : Nat) (v : Word) : State :=
  (((s.setDbufByte i (byteOf v 0)).setDbufByte (i + 1) (byteOf v 1)).setDbufByte (i + 2)
    (byteOf v 2)).setDbufByte (i + 3) (byteOf v 3)

/-- `FRAMES[i]`; at `MAX_FRAMES` and above it reads 0 (10_state.md R35). -/
def State.frameWord (s : State) (i : Nat) : Word :=
  if i < s.cfg.maxFrames.toNat then
    packBytes (s.memByte (framesBase + 4 * i + 3)) (s.memByte (framesBase + 4 * i + 2))
      (s.memByte (framesBase + 4 * i + 1)) (s.memByte (framesBase + 4 * i))
  else 0

/-- `FRAMES[i] <- v`; at `MAX_FRAMES` and above the write is ignored (10_state.md R35). -/
def State.setFrameWord (s : State) (i : Nat) (v : Word) : State :=
  if i < s.cfg.maxFrames.toNat then
    (((s.setMemByte (framesBase + 4 * i) (byteOf v 0)).setMemByte (framesBase + 4 * i + 1)
      (byteOf v 1)).setMemByte (framesBase + 4 * i + 2) (byteOf v 2)).setMemByte (framesBase + 4 * i + 3)
      (byteOf v 3)
  else s

/-! ### The host register file by offset (10_state.md R21) -/

def offStatus : Nat := 0x000
def offCmd : Nat := 0x004
def offRdata : Nat := 0x014
def offCdSession : Nat := 0x018
def offRtSession : Nat := 0x01C
def offAgCursor : Nat := 0x034
def offAcalRes0 : Nat := 0x050
def offAcalRes1 : Nat := 0x054

/-- `CD_STATE` code (10_state.md R27). -/
def CdState.code : CdState → BitVec 2
  | .unconfigured => 0
  | .configuredIdle => 1
  | .running => 2

/-- Best-effort status code (10_state.md R33). -/
def BestEffort.code : BestEffort → BitVec 2
  | .notAttempted => 0
  | .failed => 1
  | .ok => 2

/-- `H_CD_SESSION` (10_state.md R27): CD_STATE [1:0], CD_STRENGTH [14:8]. -/
def HostRegs.cdSessionWord (r : HostRegs) : Word := 0#17 ++ r.cdStrength ++ 0#6 ++ r.cdState.code

/-- `H_ACAL_V` (10_state.md R32). -/
def AcalRequest.vWord (q : AcalRequest) : Word := packBytes 0 0 q.clamp q.rated

/-- `H_ACAL_C14` (10_state.md R32). -/
def AcalRequest.c14Word (q : AcalRequest) : Word := packBytes q.ctrl4 q.ctrl3 q.ctrl2 q.ctrl1

/-- `H_ACAL_C5T` (10_state.md R32): REQ_CTRL5 [7:0], REQ_TIMEOUT_MS [31:16]. -/
def AcalRequest.c5tWord (q : AcalRequest) : Word := q.timeoutMs ++ 0#8 ++ q.ctrl5

/-- `H_ACAL_RES0` (10_state.md R33). -/
def AcalResult.word0 (r : AcalResult) : Word := packBytes r.rated r.bemf r.comp r.status

/-- `H_ACAL_RES1` (10_state.md R33): VBAT_ST [25:24], RESON_ST [27:26]. -/
def AcalResult.word1 (r : AcalResult) : Word :=
  packBytes (0#4 ++ r.resonSt.code ++ r.vbatSt.code) r.reson r.vbat r.clamp

/-- The word at host offset `off` (20_memory.md R60): registers, DBUF, FRAMES; every other offset reads 0. -/
def State.hostWord (s : State) (off : Nat) : Word :=
  match off with
  | 0x000 => s.regs.status.word
  | 0x004 => s.regs.cmd
  | 0x008 => s.regs.arg0
  | 0x00C => s.regs.arg1
  | 0x010 => s.regs.arg2
  | 0x014 => s.regs.rdata.setWidth 32
  | 0x018 => s.regs.cdSessionWord
  | 0x01C => if s.regs.rtReady then 1 else 0
  | 0x020 => s.regs.burstMs.setWidth 32
  | 0x024 => s.regs.pauseMs.setWidth 32
  | 0x028 => s.regs.maxMv.setWidth 32
  | 0x02C => s.regs.agCount.setWidth 32
  | 0x030 => s.regs.agPause.setWidth 32
  | 0x034 => s.regs.agCursor.setWidth 32
  | 0x040 => s.regs.req.vWord
  | 0x044 => s.regs.req.c14Word
  | 0x048 => s.regs.req.c5tWord
  | 0x050 => s.regs.res.word0
  | 0x054 => s.regs.res.word1
  | off =>
    if 0x100 ≤ off ∧ off < 0x200 then s.dbufWord (off - 0x100)
    else if 0x200 ≤ off ∧ off < 0x800 then s.frameWord ((off - 0x200) / 4)
    else 0

/-- The low half of a written word. -/
def lowHalf (v : Word) : Half := v.extractLsb' 0 16

/-- `H_AG_COUNT <- v`: stores `min(v[8:0], MAX_FRAMES)` and sets `H_AG_CURSOR <- 0` (10_state.md R30). -/
def HostRegs.setAgCount (r : HostRegs) (maxFrames : Half) (v : Word) : HostRegs :=
  { r with agCount := BitVec.ofNat 9 (min (v.extractLsb' 0 9).toNat maxFrames.toNat), agCursor := 0 }

/-- Acceptance of command word `w` (10_state.md R24): `x[H_CMD] <- w; BUSY <- 1; DONE <- 0`, and the command's event
trace begins empty (00_scope.md R14). -/
def State.accept (s : State) (w : Word) : State :=
  { s with
    regs := { s.regs with cmd := w, status := s.regs.status.accept }
    trace := []
    written := [] }

/-- The effect of a host write of `v` at offset `off` while BUSY = 0 (10_state.md R22 to R35, 20_memory.md R60). -/
def State.hostStore (s : State) (off : Nat) (v : Word) : State :=
  match off with
  | 0x000 => { s with regs := { s.regs with status := s.regs.status.write1Clear v } }
  | 0x004 => s.accept v
  | 0x008 => { s with regs := { s.regs with arg0 := v } }
  | 0x00C => { s with regs := { s.regs with arg1 := v } }
  | 0x010 => { s with regs := { s.regs with arg2 := v } }
  | 0x020 => { s with regs := { s.regs with burstMs := lowHalf v } }
  | 0x024 => { s with regs := { s.regs with pauseMs := lowHalf v } }
  | 0x028 => { s with regs := { s.regs with maxMv := lowHalf v } }
  | 0x02C => { s with regs := s.regs.setAgCount s.cfg.maxFrames v }
  | 0x030 => { s with regs := { s.regs with agPause := lowHalf v } }
  | 0x040 => { s with regs := { s.regs with req := { s.regs.req with rated := byteOf v 0, clamp := byteOf v 1 } } }
  | 0x044 =>
    { s with regs := { s.regs with req := { s.regs.req with
        ctrl1 := byteOf v 0, ctrl2 := byteOf v 1, ctrl3 := byteOf v 2, ctrl4 := byteOf v 3 } } }
  | 0x048 =>
    { s with regs := { s.regs with req := { s.regs.req with
        ctrl5 := byteOf v 0, timeoutMs := v.extractLsb' 16 16 } } }
  | off =>
    if 0x100 ≤ off ∧ off < 0x200 then s.setDbufWord (off - 0x100) v
    else if 0x200 ≤ off ∧ off < 0x800 then s.setFrameWord ((off - 0x200) / 4) v
    else s

/-- A host write while BUSY = 1 (10_state.md R23): `H_STATUS` has its effect, any other write is ignored and sets
OVERRUN. -/
def State.busyStore (s : State) (off : Nat) (v : Word) : State :=
  if off = offStatus then { s with regs := { s.regs with status := s.regs.status.write1Clear v } }
  else { s with regs := { s.regs with status := s.regs.status.setOverrun } }

/-- A host read while BUSY = 0: the current value (10_state.md R23), with no side effect (20_memory.md R67). -/
def State.hostLoad (s : State) (off : Nat) : State :=
  { s with reads := s.reads ++ [(off, s.hostWord off)] }

/-- The values the running command has written at `off`, the prior one first. -/
def State.writtenAt (s : State) (off : Nat) : List Word :=
  (s.written.filter fun e => e.1 == off).map Prod.snd

/-- A host read while BUSY = 1: of a register the command has written, any of the prior value and those written so far;
of any other, the current value (20_memory.md R68 item 3; log entry 8). -/
def State.busyLoad (s : State) (off : Nat) : State :=
  match s.writtenAt off with
  | [] => s.hostLoad off
  | v :: vs =>
    let k := Config.freeIndex s.draws % (vs.length + 1)
    { s with reads := s.reads ++ [(off, (v :: vs).getD k v)], draws := s.draws + 1 }

/-! ### Reset and the host's moves -/

/-- A reset (70_reset_and_hazards.md R250): every piece of TWSC state takes its reset value; the peripheral, the
environment, the events already issued and the host are not changed. -/
def State.applyReset (s : State) : State :=
  { State.init s.cfg with
    ackEnable := s.ackEnable
    latched := s.latched
    trace := s.trace
    host := s.host
    reads := s.reads
    samples := s.samples
    rxBytes := s.rxBytes
    draws := s.draws
    resets := s.resets + 1 }

/-- The access is a 32-bit one at a multiple of 4 (20_memory.md R61). -/
def HostMove.legal : HostMove → Bool
  | .read off n => n == 4 && off.toNat % 4 == 0
  | .write off n _ => n == 4 && off.toNat % 4 == 0
  | .pass => true
  | .reset => true

/-- One host move on the idle machine. While BUSY = 1 the accesses follow 10_state.md R23. -/
def State.hostMove (s : State) : HostMove → State
  | .read off _ => if s.regs.status.busy then s.busyLoad off.toNat else s.hostLoad off.toNat
  | .write off _ v => if s.regs.status.busy then s.busyStore off.toNat v else s.hostStore off.toNat v
  | .pass => s
  | .reset => s.applyReset

/-- The command word that move `m` makes the controller accept (10_state.md R24), if it does. -/
def State.acceptedWord (s : State) : HostMove → Option Word
  | .write off _ v => if off.toNat = offCmd ∧ s.regs.status.busy = false then some v else none
  | .read _ _ => none
  | .pass => none
  | .reset => none

/-! ### The controller -/

/-- Why a command's pseudocode stops before its end. -/
inductive Stop where
  /-- `fail(CLASS)` (60_exceptions.md R220). -/
  | fail (cls : FailClass)
  /-- A reset ended the command (70_reset_and_hazards.md R250). -/
  | reset
  deriving DecidableEq, Repr

/-- What a piece of pseudocode comes to: a value, or a stop, and the state it leaves. -/
inductive Run (α : Type) where
  | ok (a : α) (s : State)
  | stop (why : Stop) (s : State)

/-- A piece of controller pseudocode: it runs on the state and either answers a value or stops. -/
abbrev Ctl (α : Type) := State → Run α

/-- `return a`. -/
def ret {α : Type} (a : α) : Ctl α := fun s => .ok a s

/-- Run `m`, then `f` on the value it answers. -/
def andThen {α β : Type} (m : Ctl α) (f : α → Ctl β) : Ctl β := fun s =>
  match m s with
  | .ok a t => f a t
  | .stop w t => .stop w t

/-- Run `m`, then `n`. -/
def before {α : Type} (m : Ctl Unit) (n : Ctl α) : Ctl α := andThen m fun _ => n

/-- Run procedure `p`; if it returns OK go on with `q`, else return FAIL. A procedure answers `true` for OK and `false`
for FAIL (00_scope.md R12). -/
def ifOk (p q : Ctl Bool) : Ctl Bool := andThen p fun ok => if ok then q else ret false

/-- The host's moves before one controller step, up to and including the next `pass`. A reset among them ends the
command. -/
def hostTurn : List HostMove → State → Run Unit
  | [], s => .ok () { s with host := [] }
  | .pass :: q, s => .ok () { s with host := q }
  | .read off _ :: q, s => hostTurn q (s.busyLoad off.toNat)
  | .write off _ v :: q, s => hostTurn q (s.busyStore off.toNat v)
  | .reset :: q, s => .stop .reset ({ s with host := q } : State).applyReset

/-- What comes before every controller step: the host's moves that are due. -/
def tick : Ctl Unit := fun s => hostTurn s.host s

/-- A change of the state that is part of the current controller step. -/
def change (f : State → State) : Ctl Unit := fun s => .ok () (f s)

/-- `fail(CLASS)` (60_exceptions.md R220). -/
def fail {α : Type} (cls : FailClass) : Ctl α := fun s => .stop (.fail cls) s

/-- An argument check: `if not ok then fail(CLASS)`. -/
def require (ok : Bool) (cls : FailClass) : Ctl Unit := if ok then ret () else fail cls

/-- `must P` (44_timed_routines.md R171). -/
def must (p : Ctl Bool) : Ctl Unit := andThen p fun ok => if ok then ret () else fail .bus

/-- The state with one more event in the trace (00_scope.md R14). -/
def State.emit (s : State) (e : Event) : State := { s with trace := s.trace ++ [e] }

/-- One controller step that issues the event `e` and makes the change `f` to the peripheral's state. -/
def perform (e : State → Event) (f : State → State) : Ctl Unit :=
  before tick <|
  change fun s => f (s.emit (e s))

/-- `Act(GenStart)` (00_scope.md R13). -/
def genStart : Ctl Unit := perform (fun _ => .start) id

/-- `Act(GenStop)`. -/
def genStop : Ctl Unit := perform (fun _ => .stop) id

/-- `Act(SendAddr(dir))`, to `TARGET_ADDR`. -/
def sendAddr (dir : Dir) : Ctl Unit := perform (fun s => .addr s.cfg.targetAddr dir) id

/-- `Act(WriteData(b))`. -/
def writeData (b : Byte) : Ctl Unit := perform (fun _ => .tx b) id

/-- `Act(SetAck(on))` (10_state.md R38). -/
def setAck (on : Bool) : Ctl Unit := perform (fun _ => .ack on) fun s => { s with ackEnable := on }

/-- `Act(ClearErr)`: clears all three latched flags in one action (10_state.md R37). -/
def clearErr : Ctl Unit := perform (fun _ => .clr) fun s => { s with latched := ErrorFlags.clear }

/-- `DelayMs(n)`; the delay environment completes it (60_exceptions.md R234). -/
def delayMs (n : Nat) : Ctl Unit := perform (fun _ => .dms n) id

/-- `DelayUs(n)`. -/
def delayUs (n : Nat) : Ctl Unit := perform (fun _ => .dus n) id

/-- A hold or pause: no delay event when it is 0 (decision D47, 44_timed_routines.md R186, R189). -/
def delayMsUnlessZero (n : Nat) : Ctl Unit := if n = 0 then ret () else delayMs n

/-- The snapshot the environment answers now, and the state after it: the next determined one, or a free value (U1). -/
def State.takeSample (s : State) : Snapshot × State :=
  match s.samples with
  | x :: xs => (x, { s with samples := xs })
  | [] => (Config.snapshot s.draws, { s with draws := s.draws + 1 })

/-- The received byte the environment answers now, and the state after it (U2). -/
def State.takeByte (s : State) : Byte × State :=
  match s.rxBytes with
  | b :: bs => (b, { s with rxBytes := bs })
  | [] => (Config.rxByte s.draws, { s with draws := s.draws + 1 })

/-- The error flags with those of a snapshot added: once set, each stays set (10_state.md R37). -/
def ErrorFlags.observe (f : ErrorFlags) (x : Snapshot) : ErrorFlags :=
  ⟨f.af || x.af, f.berr || x.berr, f.arlo || x.arlo⟩

/-- `S <- Sample()`: event POLL(S) (00_scope.md R13, R14). -/
def sample : Ctl Snapshot :=
  before tick fun s =>
    let r := s.takeSample
    .ok r.1 ({ r.2 with latched := r.2.latched.observe r.1 }.emit (.poll r.1))

/-- `b <- ReadData()`: event RX(b) (00_scope.md R13, R14). -/
def readData : Ctl Byte :=
  before tick fun s =>
    let r := s.takeByte
    .ok r.1 (r.2.emit (.rx r.1))

/-! ### Host registers written by commands -/

/-- A write by the running command to the host register (or buffer word) at `off`, remembered for busy reads. -/
def State.record (off : Nat) (before after : State) : State :=
  let prior := if before.written.any (fun e => e.1 == off) then [] else [(off, before.hostWord off)]
  { after with written := before.written ++ prior ++ [(off, after.hostWord off)] }

/-- The command writes the host register at `off`. -/
def writeAt (off : Nat) (f : State → State) : Ctl Unit := fun s => .ok () (State.record off s (f s))

/-- `x[H_RDATA] <- zext_32(v)` (10_state.md R26). -/
def setRdata (v : Half) : Ctl Unit :=
  writeAt offRdata fun s => { s with regs := { s.regs with rdata := v } }

/-- `x[H_CD_SESSION].CD_STATE <- v` (10_state.md R43). -/
def setCdState (v : CdState) : Ctl Unit :=
  writeAt offCdSession fun s => { s with regs := { s.regs with cdState := v } }

/-- `x[H_CD_SESSION].CD_STRENGTH <- v`, of which seven bits are kept (10_state.md R27). -/
def setCdStrength (v : Byte) : Ctl Unit :=
  writeAt offCdSession fun s => { s with regs := { s.regs with cdStrength := v.setWidth 7 } }

/-- `x[H_RT_SESSION].RT_READY <- 1` (10_state.md R28). -/
def setRtReady : Ctl Unit :=
  writeAt offRtSession fun s => { s with regs := { s.regs with rtReady := true } }

/-- `x[H_AG_CURSOR] <- v` (10_state.md R30). -/
def setAgCursor (v : BitVec 9) : Ctl Unit :=
  writeAt offAgCursor fun s => { s with regs := { s.regs with agCursor := v } }

/-- A write to fields of `H_ACAL_RES0` or `H_ACAL_RES1` (10_state.md R33). -/
def setResult (off : Nat) (f : AcalResult → AcalResult) : Ctl Unit :=
  writeAt off fun s => { s with regs := { s.regs with res := f s.regs.res } }

/-- `MemWrite(0x100 + i, 1, v)` by the command (40_bus_engine.md R111). -/
def storeDbuf (i : Nat) (v : Byte) : Ctl Unit :=
  writeAt (dbufBase + i / 4 * 4) fun s => s.setDbufByte i v

/-- A fresh free value. -/
def draw {α : Type} (f : Nat → α) : Ctl α := fun s => .ok (f s.draws) { s with draws := s.draws + 1 }

/-- `H_RDATA[15:0]` holds any value (10_state.md R26, U5). -/
def freeRdata : Ctl Unit := andThen (draw Config.freeHalf) setRdata

/-- `DBUF[0..n-1]` hold any value (40_bus_engine.md R111, R112, U6). -/
def freeDbuf : (n : Nat) → Ctl Unit
  | 0 => ret ()
  | n + 1 =>
    before (freeDbuf n) <|
    andThen (draw Config.freeByte) fun v =>
    storeDbuf n v

/-- Run `body`; if it ends with `fail(CLASS)`, run `loosen` (which leaves its outputs open) before the command ends. -/
def leavingOpen (loosen : Ctl Unit) (body : Ctl Unit) : Ctl Unit := fun s =>
  match body s with
  | .ok _ s' => .ok () s'
  | .stop (.fail cls) s' => before loosen (fail cls) s'
  | .stop .reset s' => .stop .reset s'

/-! ### The end of a command -/

/-- The completion step (60_exceptions.md R229): the outcome's fields of `H_STATUS`, and the hidden state is discarded
(10_state.md R31). -/
def State.complete (s : State) (cls : Option FailClass) : State :=
  { s with regs := { s.regs with status := s.regs.status.complete cls }, written := [] }

/-- The completion step as a controller step: the host's moves that are due come first, and a reset among them leaves
the command without its completion step (70_reset_and_hazards.md R250). -/
def completionStep (cls : Option FailClass) (s : State) : State :=
  match tick s with
  | .ok _ s' => s'.complete cls
  | .stop _ s' => s'

/-- How every accepted command ends (60_exceptions.md R220, R229): `done()`, `fail(CLASS)`, or a reset. -/
def finish : Run Unit → State
  | .ok _ s => completionStep none s
  | .stop (.fail cls) s => completionStep (some cls) s
  | .stop .reset s => s

/-- An accepted command, run to its end. It always answers a next state (60_exceptions.md R229, 70 R262). -/
def command (body : Ctl Unit) (s : State) : Host.Outcome State Fault Refusal := .next (finish (body s))

/-- A command that writes `H_RDATA`: NOT_READY leaves its bits [15:0] open (10_state.md R26). -/
def getterCommand (body : Ctl Unit) (s : State) : Host.Outcome State Fault Refusal :=
  command (leavingOpen freeRdata body) s

/-- An accepted ILLEGAL word: no event, no host register but `H_STATUS`, class ILLEGAL (30_encoding.md R85). -/
def illegalCommand (s : State) : Host.Outcome State Fault Refusal := command (fail .illegal) s

end Sys2Proof.Machine
end

