-- ==== Sys2Proof/Machine/Bus.lean ====
section
/-! DEFINITION. The bus transaction engine (40_bus_engine.md): the wait primitive, recovery, start, repeated start, byte
send, the write and combined-format read procedures, and the commands BUS_WRITE and BUS_READ. A procedure answers
`true` for OK and `false` for FAIL; a procedure with a value answers `none` for FAIL. -/

namespace Sys2Proof.Machine

/-- The wait conditions (40_bus_engine.md R101). -/
inductive Cond where
  | idle | modeSel | txSel | rxSel | txe | byteTx | byteRx
  deriving DecidableEq, Repr

/-- The predicate of a wait condition (40_bus_engine.md R101). -/
def condHolds (c : Cond) (x : Snapshot) : Bool :=
  match c with
  | .idle => !x.busy
  | .modeSel => x.modeSel
  | .txSel => x.txSel
  | .rxSel => x.rxSel
  | .txe => x.txe
  | .byteTx => x.byteTx
  | .byteRx => x.byteRx

/-- The sample budget of a wait condition (40_bus_engine.md R101). -/
def condBudget (p : Params) (c : Cond) : Nat :=
  match c with
  | .idle => p.wIdle.toNat
  | .modeSel | .txSel | .rxSel | .txe | .byteTx | .byteRx => p.wEvent.toNat

/-- A latched error flag shows in the snapshot. -/
def anyError (x : Snapshot) : Bool := x.af || x.berr || x.arlo

/-- The loop of `Wait` with `k` more samples allowed after this one (40_bus_engine.md R100). -/
def waitLoop (c : Cond) : (k : Nat) → Ctl Bool
  | 0 => andThen sample fun x => ret (condHolds c x)
  | k + 1 =>
    andThen sample fun x =>
    if condHolds c x then ret true
    else if anyError x then ret false
    else waitLoop c k

/-- `Wait(cond, B)` with the condition's budget `B >= 1` (40_bus_engine.md R100, R101). -/
def wait (c : Cond) : Ctl Bool := fun s => waitLoop c (condBudget s.cfg c - 1) s

/-- `Recover()` (40_bus_engine.md R102). -/
def recover : Ctl Unit := before genStop clearErr

/-- `Wait(...)`, and `if FAIL then { Recover(); return FAIL }` (40_bus_engine.md R102). -/
def waitOrRecover (c : Cond) : Ctl Bool :=
  andThen (wait c) fun ok =>
  if ok then ret true
  else before recover (ret false)

/-- The confirmation that matches a direction (40_bus_engine.md R103). -/
def selCond : Dir → Cond
  | .w => .txSel
  | .r => .rxSel

/-- `Start(dir)` (40_bus_engine.md R103). -/
def startBus (dir : Dir) : Ctl Bool :=
  ifOk (waitOrRecover .idle) <|
  before genStart <|
  ifOk (waitOrRecover .modeSel) <|
  before (sendAddr dir) <|
  waitOrRecover (selCond dir)

/-- `Restart()` (40_bus_engine.md R104). -/
def restartBus : Ctl Bool :=
  before genStart <|
  ifOk (waitOrRecover .modeSel) <|
  before (sendAddr .r) <|
  waitOrRecover .rxSel

/-- `SendByte(b)` (40_bus_engine.md R105). -/
def sendByte (b : Byte) : Ctl Bool :=
  ifOk (waitOrRecover .txe) <|
  before (writeData b) <|
  waitOrRecover .byteTx

/-- The byte loop of `WriteBytes` (40_bus_engine.md R106). -/
def sendBytes : List Byte → Ctl Bool
  | [] => ret true
  | b :: bs => ifOk (sendByte b) (sendBytes bs)

/-- `WriteBytes(p, n)` with `n` the length of `p` (40_bus_engine.md R106). -/
def writeBytes (p : List Byte) : Ctl Bool :=
  match p with
  | [] => ret true
  | b :: bs =>
    ifOk (startBus .w) <|
    ifOk (sendBytes (b :: bs)) <|
    before genStop <|
    ret true

/-- Before the last byte: `Act(SetAck(false))`, then `Act(GenStop)` (40_bus_engine.md R107, 70 R261). -/
def endOfRead (remaining : Nat) : Ctl Unit :=
  if remaining = 0 then before (setAck false) genStop else ret ()

/-- The byte loop of `ReadRegisters`: `k` bytes remain of `n`; `sink i b` is what the caller does with byte `i` as it
arrives (40_bus_engine.md R107, R111). `none` is FAIL. -/
def receiveBytes (sink : Nat → Byte → Ctl Unit) (n : Nat) : (k : Nat) → Ctl (Option (List Byte))
  | 0 => ret (some [])
  | k + 1 =>
    before (endOfRead k) <|
    andThen (waitOrRecover .byteRx) fun ok =>
    if ok then
      andThen readData fun b =>
      before (sink (n - (k + 1)) b) <|
      andThen (receiveBytes sink n k) fun q =>
      ret (q.map fun bs => b :: bs)
    else ret none

/-- `Cleanup(st)` (40_bus_engine.md R108). -/
def cleanup (st : Option (List Byte)) : Ctl (Option (List Byte)) :=
  before (setAck true) <|
  andThen (wait .idle) fun idle s =>
  .ok (if !idle && s.cfg.cleanupIdleAffectsOutcome then none else st) s

/-- The part of `ReadRegisters` before its byte loop: address, register byte, repeated start. -/
def openRead (reg : Byte) : Ctl Bool :=
  ifOk (startBus .w) <|
  ifOk (sendByte reg) restartBus

/-- `ReadRegisters(reg, n)`, `n >= 1` (40_bus_engine.md R107); Cleanup always runs. -/
def readRegisters (sink : Nat → Byte → Ctl Unit) (reg : Byte) (n : Nat) : Ctl (Option (List Byte)) :=
  andThen (andThen (openRead reg) fun ok => if ok then receiveBytes sink n n else ret none) cleanup

/-- `p[i] <- MemRead(0x100 + i, 1)` for `i` in 0..n-1 (40_bus_engine.md R110). -/
def dbufPayload (s : State) (n : Nat) : List Byte := (List.range n).map s.dbufByte

/-- BUS_WRITE (40_bus_engine.md R110). -/
def busWriteBody (dbufLen n : Nat) (payload : List Byte) : Ctl Unit :=
  before (require (decide (n ≤ dbufLen)) .arg) <|
  must (writeBytes payload)

/-- BUS_WRITE `n` (40_bus_engine.md R110). -/
def execBusWrite (n : Byte) (s : State) : Host.Outcome State Fault Refusal :=
  command (busWriteBody s.cfg.dbufLen.toNat n.toNat (dbufPayload s n.toNat)) s

/-- `if st = FAIL then fail(BUS)` for a procedure with a value. -/
def mustGet {α : Type} (p : Ctl (Option α)) : Ctl α :=
  andThen p fun
    | some v => ret v
    | none => fail .bus

/-- BUS_READ (40_bus_engine.md R111). -/
def busReadBody (dbufLen : Nat) (reg : Byte) (n : Nat) (dv : Bool) : Ctl Unit :=
  before (require dv .arg) <|
  if n = 0 then ret ()
  else
    before (require (decide (n ≤ dbufLen)) .arg) <|
    andThen (mustGet (readRegisters storeDbuf reg n)) fun _ =>
    ret ()

/-- BUS_READ `reg, n, dv` (40_bus_engine.md R111); NOT_READY leaves `DBUF[0..n-1]` open (log entry 7). -/
def execBusRead (reg n : Byte) (dv : Bool) (s : State) : Host.Outcome State Fault Refusal :=
  command (leavingOpen (freeDbuf n.toNat) (busReadBody s.cfg.dbufLen.toNat reg n.toNat dv)) s

end Sys2Proof.Machine
end

