-- ==== Sys2Proof/Machine/Registers.lean ====
section
/-! DEFINITION. The register access layer (41_register_layer.md): WriteRegister, ReadRegister, REG_WRITE, REG_READ. -/

namespace Sys2Proof.Machine

/-- `WriteRegister(reg, v)`: the two-byte payload `[reg, v]` (41_register_layer.md R130). -/
def writeRegister (reg v : Byte) : Ctl Bool := writeBytes [reg, v]

/-- A read that stores nothing of its own. -/
def noSink : Nat → Byte → Ctl Unit := fun _ _ => ret ()

/-- `ReadRegister(reg)` (41_register_layer.md R131); `none` is FAIL. -/
def readRegister (reg : Byte) : Ctl (Option Byte) :=
  andThen (readRegisters noSink reg 1) fun q =>
  ret (q.bind List.head?)

/-- REG_WRITE `reg, value` (41_register_layer.md R132). -/
def execRegWrite (reg value : Byte) (s : State) : Host.Outcome State Fault Refusal :=
  command (must (writeRegister reg value)) s

/-- Read `reg` into `H_RDATA` (41_register_layer.md R133). -/
def readToRdata (reg : Byte) : Ctl Unit :=
  andThen (mustGet (readRegister reg)) fun v =>
  setRdata (v.setWidth 16)

/-- REG_READ `reg, dv` (41_register_layer.md R133). -/
def execRegRead (reg : Byte) (dv : Bool) (s : State) : Host.Outcome State Fault Refusal :=
  getterCommand (before (require dv .arg) (readToRdata reg)) s

end Sys2Proof.Machine
end

