-- ==== Sys2Proof/Machine/Device.lean ====
section
/-! DEFINITION. Device control (42_device_control.md): the internal procedures of R145, the commands SET_WAVEFORM,
GET_WAVEFORM, CLEAR_SEQUENCE and SET_SUSTAIN, and the default initialisation (44_timed_routines.md R172). -/

namespace Sys2Proof.Machine

/-- `SetMode(m)` (42_device_control.md R145). -/
def setMode (c : Params) (m : Byte) : Ctl Bool := writeRegister c.regMode m

/-- `SetLibrary(l)`. -/
def setLibrary (c : Params) (l : Byte) : Ctl Bool := writeRegister c.regLibrary l

/-- `SelectLRA()` and `SelectERM()`. -/
def selectMotor (c : Params) (m : Motor) : Ctl Bool := writeRegister c.regFeedback (feedbackPattern c m)

/-- `DevGo()`. -/
def devGo (c : Params) : Ctl Bool := writeRegister c.regGo c.goMask

/-- `DevStop()`. -/
def devStop (c : Params) : Ctl Bool := writeRegister c.regGo 0x00

/-- `SetRTP(v)`. -/
def setRtp (c : Params) (v : Byte) : Ctl Bool := writeRegister c.regRtp v

/-- `SetSlot(k, e)`, for `k <= 7`. -/
def setSlot (c : Params) (k e : Byte) : Ctl Bool := writeRegister (slotReg c k) e

/-- The loop of CLEAR_SEQUENCE over the given slots, failing at the first failing one (42_device_control.md R143). -/
def clearSlots (c : Params) : List Byte → Ctl Bool
  | [] => ret true
  | k :: ks => ifOk (setSlot c k 0x00) (clearSlots c ks)

/-- `ClearSeq()`: slots 1 to 7 in ascending order; slot 0 is never addressed (42_device_control.md R143, R145). -/
def clearSeq (c : Params) : Ctl Bool := clearSlots c [1, 2, 3, 4, 5, 6, 7]

/-- `Sustain(p, n)`: positive, then, if OK, negative (42_device_control.md R144, R145). -/
def sustain (c : Params) (p n : Byte) : Ctl Bool :=
  ifOk (writeRegister c.regSpt p) (writeRegister c.regSnt n)

/-- The slot index check: at most 7 (42_device_control.md R148). -/
def slotInRange (slot : Byte) : Bool := decide (slot.toNat < slotCount)

/-- SET_WAVEFORM `slot, effect` (42_device_control.md R141). -/
def execSetWaveform (slot effect : Byte) (s : State) : Host.Outcome State Fault Refusal :=
  command (before (require (slotInRange slot) .arg) (must (setSlot s.cfg slot effect))) s

/-- GET_WAVEFORM `slot, dv` (42_device_control.md R142). -/
def execGetWaveform (slot : Byte) (dv : Bool) (s : State) : Host.Outcome State Fault Refusal :=
  getterCommand
    (before (require dv .arg) <|
      before (require (slotInRange slot) .arg) <|
      readToRdata (slotReg s.cfg slot))
    s

/-- CLEAR_SEQUENCE (42_device_control.md R143). -/
def execClearSequence (s : State) : Host.Outcome State Fault Refusal := command (must (clearSeq s.cfg)) s

/-- SET_SUSTAIN `pos, neg` (42_device_control.md R144). -/
def execSetSustain (pos neg : Byte) (s : State) : Host.Outcome State Fault Refusal :=
  command (must (sustain s.cfg pos neg)) s

/-- The pseudocode of DEFAULT_INIT (44_timed_routines.md R172). -/
def defaultInitBody (c : Params) : Ctl Unit :=
  before (must (setMode c c.modeIntTrig)) <|
  before (delayMs c.settleMs.toNat) <|
  before (must (selectMotor c .lra)) <|
  before (must (setLibrary c c.libLra)) <|
  before (must (setSlot c 0 c.effectStrongClick)) <|
  before (must (clearSeq c)) <|
  before (must (writeRegister c.regOdt 0x00)) <|
  before (must (sustain c 0x00 0x00)) <|
  before (must (writeRegister c.regBrt 0x00)) <|
  before (must (writeRegister c.regAudioMax c.audioMaxDefault)) <|
  must (setMode c c.modeRtp)

/-- DEFAULT_INIT (44_timed_routines.md R172). -/
def execDefaultInit (s : State) : Host.Outcome State Fault Refusal := command (defaultInitBody s.cfg) s

end Sys2Proof.Machine
end

