-- ==== Sys2Proof/Machine/ActionGroup.lean ====
section
/-! DEFINITION. Action-group stepping (44_timed_routines.md R189, 10_state.md R45). -/

namespace Sys2Proof.Machine

/-- AG_STEP with the cursor below the count: the frame `w` at the cursor (44_timed_routines.md R189). -/
def agFrameBody (c : Params) (cursor : BitVec 9) (w : Word) : Ctl Unit :=
  before (must (setRtp c (clamp7 (frameAmp w)))) <|
  before (delayMsUnlessZero (frameHold w).toNat) <|
  setAgCursor (cursor + 1)

/-- AG_STEP at the end of the group: the zero frame and the pause (44_timed_routines.md R189). -/
def agWrapBody (c : Params) (pause : Half) : Ctl Unit :=
  before (must (setRtp c 0x00)) <|
  before (delayMsUnlessZero pause.toNat) <|
  setAgCursor 0

/-- The pseudocode of AG_STEP (44_timed_routines.md R189). -/
def agStepBody (c : Params) (cursor count : BitVec 9) (frame : Word) (pause : Half) : Ctl Unit :=
  if cursor < count then agFrameBody c cursor frame else agWrapBody c pause

/-- AG_STEP (44_timed_routines.md R189). -/
def execAgStep (s : State) : Host.Outcome State Fault Refusal :=
  command
    (agStepBody s.cfg s.regs.agCursor s.regs.agCount (s.frameWord s.regs.agCursor.toNat) s.regs.agPause) s

end Sys2Proof.Machine
end

