-- ==== Sys2Proof/Machine/Calibration.lean ====
section
/-! DEFINITION. Auto-calibration (44_timed_routines.md R173 to R179). -/

namespace Sys2Proof.Machine

/-- `StopAbort(CLASS)`: one DEV-STOP attempt, its result ignored, then `fail(CLASS)` (44_timed_routines.md R171). -/
def stopAbort {α : Type} (c : Params) (cls : FailClass) : Ctl α :=
  andThen (devStop c) fun _ =>
  fail cls

/-- `if P = FAIL then StopAbort(BUS)` (44_timed_routines.md R174). -/
def mustOrStop (c : Params) (p : Ctl Bool) : Ctl Unit :=
  andThen p fun ok => if ok then ret () else stopAbort c .bus

/-- Entry: with `rb = 1` both result registers are cleared; with `rb = 0` they are not written (44_timed_routines.md
R173). -/
def acalEntry (rb : Bool) : Ctl Unit :=
  if rb then
    before (setResult offAcalRes0 fun r => { r with status := 0, comp := 0, bemf := 0, rated := 0 }) <|
    setResult offAcalRes1 fun r =>
      { r with clamp := 0, vbat := 0, reson := 0, vbatSt := .notAttempted, resonSt := .notAttempted }
  else ret ()

/-- The setup phase (44_timed_routines.md R174). -/
def acalSetup (c : Params) (q : AcalRequest) : Ctl Unit :=
  before (mustOrStop c (setMode c c.modeIntTrig)) <|
  before (delayMs c.settleMs.toNat) <|
  before (mustOrStop c (selectMotor c .lra)) <|
  before (mustOrStop c (setLibrary c c.libLra)) <|
  before (mustOrStop c (writeRegister c.regRatedV q.rated)) <|
  before (mustOrStop c (writeRegister c.regOdClamp q.clamp)) <|
  before (mustOrStop c (writeRegister c.regControl1 q.ctrl1)) <|
  before (mustOrStop c (writeRegister c.regControl2 q.ctrl2)) <|
  before (mustOrStop c (writeRegister c.regControl3 q.ctrl3)) <|
  before (mustOrStop c (writeRegister c.regControl4 q.ctrl4)) <|
  before (mustOrStop c (writeRegister c.regControl5 q.ctrl5)) <|
  before (mustOrStop c (setMode c c.modeAutocal)) <|
  mustOrStop c (devGo c)

/-- One read of the GO register in the poll loop: is the GO bit clear? (44_timed_routines.md R175) -/
def pollGo (c : Params) : Ctl Bool :=
  andThen (readRegister c.regGo) fun
    | some g => ret (goClear c g)
    | none => stopAbort c .bus

/-- The poll loop with `k` more milliseconds to wait; answers `timedOut` (44_timed_routines.md R175). -/
def pollLoop (c : Params) : (k : Nat) → Ctl Bool
  | 0 => andThen (pollGo c) fun cleared => ret (!cleared)
  | k + 1 =>
    andThen (pollGo c) fun cleared =>
    if cleared then ret false
    else before (delayMs acalPollMs) (pollLoop c k)

/-- The seven result registers in the order they are read (44_timed_routines.md R177, R178). -/
def resultRegs (c : Params) : List Byte :=
  [c.regStatus, c.regAcalComp, c.regAcalBemf, c.regRatedV, c.regOdClamp, c.regVbat, c.regLraPeriod]

/-- Reads whose results are ignored (44_timed_routines.md R176). -/
def ignoredReads : List Byte → Ctl Unit
  | [] => ret ()
  | r :: rs => andThen (readRegister r) fun _ => ignoredReads rs

/-- A free best-effort status; the value 3 is never produced (10_state.md R33). -/
def freeBestEffort (n : Nat) : BestEffort :=
  match Config.freeIndex n % 3 with
  | 0 => .notAttempted
  | 1 => .failed
  | _ => .ok

/-- The result registers hold any value: the outcome is NOT_READY and no rule says what the ignored reads leave in them
(00_scope.md R15; log entry 9). -/
def freeResults : Ctl Unit :=
  andThen (draw Config.freeByte) fun status =>
  andThen (draw Config.freeByte) fun comp =>
  andThen (draw Config.freeByte) fun bemf =>
  andThen (draw Config.freeByte) fun rated =>
  andThen (draw Config.freeByte) fun clamp =>
  andThen (draw Config.freeByte) fun vbat =>
  andThen (draw Config.freeByte) fun reson =>
  andThen (draw freeBestEffort) fun vbatSt =>
  andThen (draw freeBestEffort) fun resonSt =>
  before (setResult offAcalRes0 fun r => { r with status := status, comp := comp, bemf := bemf, rated := rated }) <|
  setResult offAcalRes1 fun r =>
    { r with clamp := clamp, vbat := vbat, reson := reson, vbatSt := vbatSt, resonSt := resonSt }

/-- One hard result read into its field: FAIL ends the command with BUS (44_timed_routines.md R177). -/
def hardRead (reg : Byte) (off : Nat) (put : AcalResult → Byte → AcalResult) : Ctl Unit :=
  andThen (mustGet (readRegister reg)) fun v =>
  setResult off fun r => put r v

/-- The hard result reads: a failing one ends the command and its field keeps 0 (44_timed_routines.md R177). -/
def hardReads (c : Params) : Ctl Unit :=
  before (hardRead c.regStatus offAcalRes0 fun r v => { r with status := v }) <|
  before (hardRead c.regAcalComp offAcalRes0 fun r v => { r with comp := v }) <|
  before (hardRead c.regAcalBemf offAcalRes0 fun r v => { r with bemf := v }) <|
  before (hardRead c.regRatedV offAcalRes0 fun r v => { r with rated := v }) <|
  hardRead c.regOdClamp offAcalRes1 fun r v => { r with clamp := v }

/-- What the battery read leaves: its byte and OK, or 0 and FAILED (44_timed_routines.md R178). -/
def putVbat (v : Option Byte) (r : AcalResult) : AcalResult :=
  match v with
  | some b => { r with vbat := b, vbatSt := .ok }
  | none => { r with vbat := 0, vbatSt := .failed }

/-- What the resonance read leaves (44_timed_routines.md R178). -/
def putReson (v : Option Byte) (r : AcalResult) : AcalResult :=
  match v with
  | some b => { r with reson := b, resonSt := .ok }
  | none => { r with reson := 0, resonSt := .failed }

/-- The best-effort reads: a failure does not end the command, and the second read is attempted whatever the first did
(44_timed_routines.md R178). -/
def bestEffortReads (c : Params) : Ctl Unit :=
  andThen (readRegister c.regVbat) fun vbat =>
  before (setResult offAcalRes1 (putVbat vbat)) <|
  andThen (readRegister c.regLraPeriod) fun reson =>
  setResult offAcalRes1 (putReson reson)

/-- After a timeout (44_timed_routines.md R176): the optional reads, then TIMING whatever the DEV-STOP did. -/
def afterTimeout (c : Params) (rb stopped : Bool) : Ctl Unit :=
  if c.readResultsOnTimeout && rb && stopped then
    before (ignoredReads (resultRegs c)) <|
    before freeResults <|
    fail .timing
  else fail .timing

/-- From the forced stop on (44_timed_routines.md R176). -/
def acalForcedStop (c : Params) (rb timedOut : Bool) : Ctl Unit :=
  andThen (devStop c) fun stopped =>
  if timedOut then afterTimeout c rb stopped
  else if !stopped then fail .bus
  else if !rb then ret ()
  else before (hardReads c) (bestEffortReads c)

/-- The pseudocode of AUTOCAL (44_timed_routines.md R173 to R178). -/
def autocalBody (c : Params) (q : AcalRequest) (rb : Bool) : Ctl Unit :=
  before (acalEntry rb) <|
  before (acalSetup c q) <|
  andThen (pollLoop c (effectiveTimeout q)) fun timedOut =>
  acalForcedStop c rb timedOut

/-- AUTOCAL `rb` (44_timed_routines.md R173). -/
def execAutocal (rb : Bool) (s : State) : Host.Outcome State Fault Refusal :=
  command (autocalBody s.cfg s.regs.req rb) s

end Sys2Proof.Machine
end

