-- ==== Sys2Proof/Machine/Codec.lean ====
section
/-! DEFINITION. The voltage codec commands (43_codec.md R164 to R167): pure arithmetic, no event, always READY. -/

namespace Sys2Proof.Machine

/-- ENC_RATED (43_codec.md R164). -/
def execEncRated (s : State) : Host.Outcome State Fault Refusal :=
  getterCommand (setRdata ((encRatedCode (arg0Mv s.regs)).setWidth 16)) s

/-- DEC_RATED `code` (43_codec.md R165). -/
def execDecRated (code : Byte) (s : State) : Host.Outcome State Fault Refusal :=
  getterCommand (setRdata (decRatedMv code)) s

/-- ENC_CLAMP (43_codec.md R166). -/
def execEncClamp (s : State) : Host.Outcome State Fault Refusal :=
  getterCommand (setRdata ((encClampCode (arg0Mv s.regs)).setWidth 16)) s

/-- DEC_CLAMP `code` (43_codec.md R167). -/
def execDecClamp (code : Byte) (s : State) : Host.Outcome State Fault Refusal :=
  getterCommand (setRdata (decClampMv code)) s

end Sys2Proof.Machine
end

