-- ==== Sys2Proof/Machine/ContinuousDrive.lean ====
section
/-! DEFINITION. Continuous drive (44_timed_routines.md R180 to R182). -/

namespace Sys2Proof.Machine

/-- The byte the drive-time merge starts from: the one read, or `DT_FALLBACK` when the read fails. -/
def driveTimeOld (c : Params) : Option Byte → Byte
  | some old => old
  | none => c.dtFallback

/-- The pseudocode of CD_CONFIGURE (44_timed_routines.md R180). -/
def cdConfigureBody (c : Params) (motor : Motor) (driveTime strength library : Byte) : Ctl Unit :=
  before (setCdState .unconfigured) <|
  before (must (selectMotor c motor)) <|
  before (must (setLibrary c library)) <|
  andThen (readRegister (driveTimeAddr c)) fun old =>
  before (must (writeRegister (driveTimeAddr c) (mergeDriveTime (driveTimeOld c old) driveTime))) <|
  before (setCdStrength (clamp7 strength)) <|
  setCdState .configuredIdle

/-- CD_CONFIGURE `motor, dt, strength, lib` (44_timed_routines.md R180). -/
def execCdConfigure (motor : Motor) (driveTime strength library : Byte) (s : State) :
    Host.Outcome State Fault Refusal :=
  command (cdConfigureBody s.cfg motor driveTime strength library) s

/-- The pseudocode of CD_START (44_timed_routines.md R181). -/
def cdStartBody (c : Params) (state : CdState) (strength : BitVec 7) : Ctl Unit :=
  before (require (state != .unconfigured) .arg) <|
  before (must (setMode c c.modeRtp)) <|
  before (must (setRtp c (strength.setWidth 8))) <|
  before (must (devGo c)) <|
  setCdState .running

/-- CD_START (44_timed_routines.md R181). -/
def execCdStart (s : State) : Host.Outcome State Fault Refusal :=
  command (cdStartBody s.cfg s.regs.cdState s.regs.cdStrength) s

/-- The pseudocode of CD_STOP (44_timed_routines.md R182). -/
def cdStopBody (c : Params) (state : CdState) : Ctl Unit :=
  before (must (setRtp c 0x00)) <|
  before (must (devStop c)) <|
  if state = .running then setCdState .configuredIdle else ret ()

/-- CD_STOP (44_timed_routines.md R182). -/
def execCdStop (s : State) : Host.Outcome State Fault Refusal := command (cdStopBody s.cfg s.regs.cdState) s

end Sys2Proof.Machine
end

