-- ==== Sys2Proof/Machine/DirectDrive.lean ====
section
/-! DEFINITION. Frequency/amplitude direct drive (44_timed_routines.md R183 to R188). -/

namespace Sys2Proof.Machine

/-- The steps of `PrepareRealtime()` while `RT_READY = 0` (44_timed_routines.md R183). -/
def prepareSteps (c : Params) : Ctl Bool :=
  ifOk (setMode c c.modeIntTrig) <|
  before (delayMs c.settleMs.toNat) <|
  ifOk (selectMotor c .lra) <|
  ifOk (setLibrary c c.libLra) <|
  ifOk (setMode c c.modeRtp) <|
  before setRtReady <|
  ret true

/-- `PrepareRealtime()`, the one-time latch (44_timed_routines.md R183). -/
def prepareRealtime (c : Params) : Ctl Bool := fun s =>
  if s.regs.rtReady then .ok true s else prepareSteps c s

/-- RT_PREPARE (44_timed_routines.md R184). -/
def execRtPrepare (s : State) : Host.Outcome State Fault Refusal := command (must (prepareRealtime s.cfg)) s

/-- `n` cycles of the square wave: amplitude, half-period, zero, half-period (44_timed_routines.md R186). -/
def toneLoop (c : Params) (v : Byte) (h : Nat) : (n : Nat) → Ctl Unit
  | 0 => ret ()
  | n + 1 =>
    before (must (setRtp c v)) <|
    before (delayUs h) <|
    before (must (setRtp c 0x00)) <|
    before (delayUs h) <|
    toneLoop c v h n

/-- The pseudocode of PLAY_FREQ_AMP with frequency `f` and amplitude `a`, the burst and pause durations those at
acceptance (44_timed_routines.md R186). -/
def playBody (c : Params) (f : Nat) (a : Byte) (burstMs pauseMs : Half) : Ctl Unit :=
  before (require (f != 0 && a != 0) .arg) <|
  before (must (prepareRealtime c)) <|
  before (toneLoop c (clamp7 a) (halfUs f) (toneCycles burstMs (halfUs f))) <|
  delayMsUnlessZero pauseMs.toNat

/-- PLAY_FREQ_AMP `amp` (44_timed_routines.md R186). -/
def execPlayFreqAmp (amp : Byte) (s : State) : Host.Outcome State Fault Refusal :=
  command (playBody s.cfg s.regs.arg0.toNat amp s.regs.burstMs s.regs.pauseMs) s

/-- The pseudocode of PLAY_FREQ_VOLTAGE (44_timed_routines.md R188). -/
def playVoltageBody (c : Params) (f : Nat) (mv mx burstMs pauseMs : Half) : Ctl Unit :=
  before (require (mv != 0) .arg) <|
  before (require (mx != 0) .arg) <|
  playBody c f (voltToAmp mv mx) burstMs pauseMs

/-- PLAY_FREQ_VOLTAGE (44_timed_routines.md R188). -/
def execPlayFreqVoltage (s : State) : Host.Outcome State Fault Refusal :=
  command
    (playVoltageBody s.cfg s.regs.arg0.toNat (arg1Mv s.regs) s.regs.maxMv s.regs.burstMs s.regs.pauseMs) s

end Sys2Proof.Machine
end

