-- ==== Sys2Proof/Machine/Dispatch.lean ====
section
/-! DEFINITION. One arm per command of spec/opcode_table.json. `exec i s` runs the accepted command `i` from the state
`s` to its completion step (60_exceptions.md R229). -/

namespace Sys2Proof.Machine

def exec (i : Instr) (s : State) : Host.Outcome State Fault Refusal :=
  match i with
  | .busWrite n => Sys2Proof.Machine.execBusWrite n s
  | .busRead reg n dv => Sys2Proof.Machine.execBusRead reg n dv s
  | .regWrite reg value => Sys2Proof.Machine.execRegWrite reg value s
  | .regRead reg dv => Sys2Proof.Machine.execRegRead reg dv s
  | .setWaveform slot effect => Sys2Proof.Machine.execSetWaveform slot effect s
  | .getWaveform slot dv => Sys2Proof.Machine.execGetWaveform slot dv s
  | .clearSequence => Sys2Proof.Machine.execClearSequence s
  | .setSustain pos neg => Sys2Proof.Machine.execSetSustain pos neg s
  | .encRated => Sys2Proof.Machine.execEncRated s
  | .decRated code => Sys2Proof.Machine.execDecRated code s
  | .encClamp => Sys2Proof.Machine.execEncClamp s
  | .decClamp code => Sys2Proof.Machine.execDecClamp code s
  | .defaultInit => Sys2Proof.Machine.execDefaultInit s
  | .autocal rb => Sys2Proof.Machine.execAutocal rb s
  | .cdConfigure motor driveTime strength library => Sys2Proof.Machine.execCdConfigure motor driveTime strength library s
  | .cdStart => Sys2Proof.Machine.execCdStart s
  | .cdStop => Sys2Proof.Machine.execCdStop s
  | .rtPrepare => Sys2Proof.Machine.execRtPrepare s
  | .playFreqAmp amp => Sys2Proof.Machine.execPlayFreqAmp amp s
  | .playFreqVoltage => Sys2Proof.Machine.execPlayFreqVoltage s
  | .agStep => Sys2Proof.Machine.execAgStep s

end Sys2Proof.Machine
end

