-- ==== Sys2Proof/Machine/Step.lean ====
section
/-! DEFINITION. One step of the machine: the host's next move (60_exceptions.md R239). A write that is accepted as a
command (10_state.md R24) runs the command to its completion step; with no move to make, the idle machine stays as
it is (70_reset_and_hazards.md R251). -/

namespace Sys2Proof.Machine

/-- Run an accepted word: the command it decodes to, or ILLEGAL (30_encoding.md R84, R85). -/
def runWord (w : Word) (s : State) : Host.Outcome State Fault Refusal :=
  match decode w with
  | .command i => exec i s
  | .illegal _ => illegalCommand s

/-- One move of the host, taken off the schedule: its effect, and the command it starts if it starts one. -/
def stepMove (m : HostMove) (s : State) : Host.Outcome State Fault Refusal :=
  match s.acceptedWord m with
  | some w => runWord w (s.hostMove m)
  | none => .next (s.hostMove m)

/-- One step. A schedule with an access of a shape the host does not have is refused (20_memory.md R61). -/
def step (s : State) : Host.Outcome State Fault Refusal :=
  match s.host with
  | [] => .next s
  | m :: q => if (m :: q).all HostMove.legal then stepMove m { s with host := q } else .refused .hostAccessShape

/-- `s` idle and with, as the host's only coming move, the write to `H_CMD` of the word whose low `nbits` bits are
those of `w`, every higher bit zero: the way a command comes to run (10_state.md R24; log entry 2). -/
def State.withFetchWord (s : State) (nbits w : Nat) : State :=
  { s with
    regs := { s.regs with status := { s.regs.status with busy := false } }
    host := [.write (BitVec.ofNat 11 offCmd) 4 (BitVec.ofNat 32 (w % 2 ^ nbits))] }

end Sys2Proof.Machine
end

