-- ==== Sys2Proof/Machine/Pseudo.lean ====
section
/-! DEFINITION. The pseudo-commands (30_encoding.md R89): names for words of REG_WRITE and REG_READ with a fixed
register address. They have no opcode; the expansion is computed when the pseudo-command is written down. -/

namespace Sys2Proof.Machine

/-- The eight device modes (10_state.md R42). -/
inductive DeviceMode where
  | internalTrigger | externalEdge | externalLevel | pwmAnalog | audio | realtime | diagnostic | autocal
  deriving DecidableEq, Repr

/-- The code of a mode (10_state.md R42). -/
def modeCode (c : Params) : DeviceMode → Byte
  | .internalTrigger => c.modeIntTrig
  | .externalEdge => c.modeExtEdge
  | .externalLevel => c.modeExtLevel
  | .pwmAnalog => c.modePwm
  | .audio => c.modeAudio
  | .realtime => c.modeRtp
  | .diagnostic => c.modeDiag
  | .autocal => c.modeAutocal

/-- The pseudo-commands of 30_encoding.md R89. -/
inductive Pseudo where
  | getStatus (dv : Bool)
  | setMode (m : Byte)
  | setLibrary (l : Byte)
  | go
  | stop
  | getGo (dv : Bool)
  | setRtp (v : Byte)
  | setOverdrive (v : Byte)
  | setBrake (v : Byte)
  | setAudioCtrl (v : Byte)
  | setAudioMin (v : Byte)
  | setAudioMax (v : Byte)
  | setRated (code : Byte)
  | getRated (dv : Bool)
  | setClamp (code : Byte)
  | getClamp (dv : Bool)
  | getAcalComp (dv : Bool)
  | getAcalBemf (dv : Bool)
  | setControl (n : ControlReg) (v : Byte)
  | getControl (n : ControlReg) (dv : Bool)
  | getBattery (dv : Bool)
  | getResonance (dv : Bool)
  | selectLra
  | selectErm
  deriving DecidableEq, Repr

/-- The expansion (30_encoding.md R89); SET_RTP clamps its operand (42_device_control.md R149). -/
def expandPseudo (c : Params) : Pseudo → Instr
  | .getStatus dv => .regRead c.regStatus dv
  | .setMode m => .regWrite c.regMode m
  | .setLibrary l => .regWrite c.regLibrary l
  | .go => .regWrite c.regGo c.goMask
  | .stop => .regWrite c.regGo 0x00
  | .getGo dv => .regRead c.regGo dv
  | .setRtp v => .regWrite c.regRtp (clamp7 v)
  | .setOverdrive v => .regWrite c.regOdt v
  | .setBrake v => .regWrite c.regBrt v
  | .setAudioCtrl v => .regWrite c.regAudioCtrl v
  | .setAudioMin v => .regWrite c.regAudioMin v
  | .setAudioMax v => .regWrite c.regAudioMax v
  | .setRated code => .regWrite c.regRatedV code
  | .getRated dv => .regRead c.regRatedV dv
  | .setClamp code => .regWrite c.regOdClamp code
  | .getClamp dv => .regRead c.regOdClamp dv
  | .getAcalComp dv => .regRead c.regAcalComp dv
  | .getAcalBemf dv => .regRead c.regAcalBemf dv
  | .setControl n v => .regWrite (controlAddr c n) v
  | .getControl n dv => .regRead (controlAddr c n) dv
  | .getBattery dv => .regRead c.regVbat dv
  | .getResonance dv => .regRead c.regLraPeriod dv
  | .selectLra => .regWrite c.regFeedback c.fbLra
  | .selectErm => .regWrite c.regFeedback c.fbErm

end Sys2Proof.Machine
end

