-- ==== Sys2Proof/Safety.lean ====
section
/-! DEFINITION. The terms claims are stated in: the invariant of the machine between two steps, what a well-behaved bus
environment answers and the event traces it leads to, the failure conditions of the rules, and what a command may
change. -/

namespace Sys2Proof.Machine

/-! ### The invariant between two steps -/

/-- What holds between two steps of the machine: no command is running and no hidden state is left (10_state.md R31),
ERR_CLASS is 0 when READY = 1 (10_state.md R22), `cursor <= count` (10_state.md R45), `H_AG_COUNT` is at most
`MAX_FRAMES` (10_state.md R30), and memory has its canonical form. -/
structure State.Inv (s : State) : Prop where
  idle : s.regs.status.busy = false
  nothingHidden : s.written = []
  readyHasNoClass : s.regs.status.ready = true → s.regs.status.errClass = none
  cursorInGroup : s.regs.agCursor ≤ s.regs.agCount
  countInMemory : s.regs.agCount.toNat ≤ s.cfg.maxFrames.toNat
  memoryCanonical : s.mem.wf

/-! ### A well-behaved bus environment -/

/-- The snapshot in which every wait condition holds and no error flag is set (95_test_vectors.md, REF environment). -/
def readySnapshot : Snapshot := ⟨false, true, true, true, true, true, true, false, false, false⟩

/-- The host makes no move while the command runs, and the bus environment answers the next `n` samples with every
condition satisfied and the next data reads with the bytes `bs`; `xs` and `ys` are its answers after that. -/
structure State.Answers (s : State) (n : Nat) (bs : List Byte) (xs : List Snapshot) (ys : List Byte) : Prop where
  quiet : s.host = []
  samples : s.samples = List.replicate n readySnapshot ++ xs
  bytes : s.rxBytes = bs ++ ys

/-- The POLL event of a sample whose condition holds. -/
def pollReady : Event := .poll readySnapshot

/-- The events of a successful `Start(dir)` (40_bus_engine.md R103). -/
def startEvents (c : Params) (dir : Dir) : List Event :=
  [pollReady, .start, pollReady, .addr c.targetAddr dir, pollReady]

/-- The events of a successful `SendByte(b)` (40_bus_engine.md R105). -/
def sendEvents (b : Byte) : List Event := [pollReady, .tx b, pollReady]

/-- The events of a successful `WriteBytes` of the non-empty payload `p` (40_bus_engine.md R106). -/
def writeEvents (c : Params) (p : List Byte) : List Event :=
  startEvents c .w ++ p.flatMap sendEvents ++ [.stop]

/-- The events of the byte loop of a successful read of `q` (40_bus_engine.md R107): ACK(false) and STOP come before the
wait for the last byte. -/
def receiveEvents : List Byte → List Event
  | [] => []
  | [b] => [.ack false, .stop, pollReady, .rx b]
  | b :: bs => pollReady :: .rx b :: receiveEvents bs

/-- The events of a successful `ReadRegisters` from `reg` that receives the bytes `q` (40_bus_engine.md R107, R108). -/
def readEvents (c : Params) (reg : Byte) (q : List Byte) : List Event :=
  startEvents c .w ++ sendEvents reg ++ [.start, pollReady, .addr c.targetAddr .r, pollReady] ++
    receiveEvents q ++ [.ack true, pollReady]

/-- `WR(r, v)` of 95_test_vectors.md: the events of a successful `WriteRegister` (41_register_layer.md R130). -/
def wrEvents (c : Params) (r v : Byte) : List Event := writeEvents c [r, v]

/-- `RD(r)->v` of 95_test_vectors.md: the events of a successful `ReadRegister` (41_register_layer.md R131). -/
def rdEvents (c : Params) (r v : Byte) : List Event := readEvents c r [v]

/-- The events of a list of successful register writes, each `(register, value)`. -/
def wrAll (c : Params) (ws : List (Byte × Byte)) : List Event := ws.flatMap fun w => wrEvents c w.1 w.2

/-- The events of the steps of `PrepareRealtime()` while `RT_READY = 0`, successful (44_timed_routines.md R183). -/
def prepareEvents (c : Params) : List Event :=
  wrEvents c c.regMode c.modeIntTrig ++ [.dms c.settleMs.toNat] ++
    wrAll c [(c.regFeedback, c.fbLra), (c.regLibrary, c.libLra), (c.regMode, c.modeRtp)]

/-- The events of one cycle of a burst: amplitude `v`, half-period `h`, zero, half-period (44_timed_routines.md R186). -/
def cycleEvents (c : Params) (v : Byte) (h : Nat) : List Event :=
  wrEvents c c.regRtp v ++ [.dus h] ++ wrEvents c c.regRtp 0 ++ [.dus h]

/-- The events of a successful DEFAULT_INIT (44_timed_routines.md R172). -/
def defaultInitEvents (c : Params) : List Event :=
  wrEvents c c.regMode c.modeIntTrig ++ [.dms c.settleMs.toNat] ++
    wrAll c [(c.regFeedback, c.fbLra), (c.regLibrary, c.libLra), (c.waveseqBase, c.effectStrongClick),
      (c.waveseqBase + 1, 0), (c.waveseqBase + 2, 0), (c.waveseqBase + 3, 0), (c.waveseqBase + 4, 0),
      (c.waveseqBase + 5, 0), (c.waveseqBase + 6, 0), (c.waveseqBase + 7, 0), (c.regOdt, 0), (c.regSpt, 0),
      (c.regSnt, 0), (c.regBrt, 0), (c.regAudioMax, c.audioMaxDefault), (c.regMode, c.modeRtp)]

/-- The register writes of the setup phase of AUTOCAL after its settle delay, in order (44_timed_routines.md R174). -/
def setupRest (c : Params) (q : AcalRequest) : List (Byte × Byte) :=
  [(c.regFeedback, c.fbLra), (c.regLibrary, c.libLra), (c.regRatedV, q.rated), (c.regOdClamp, q.clamp),
    (c.regControl1, q.ctrl1), (c.regControl2, q.ctrl2), (c.regControl3, q.ctrl3), (c.regControl4, q.ctrl4),
    (c.regControl5, q.ctrl5), (c.regMode, c.modeAutocal), (c.regGo, c.goMask)]

/-- All twelve register writes of the setup phase of AUTOCAL, in order. -/
def setupWrites (c : Params) (q : AcalRequest) : List (Byte × Byte) := (c.regMode, c.modeIntTrig) :: setupRest c q

/-- The events of the first `k` of them, successful, with the settle delay after the first. -/
def setupEventsTo (c : Params) (q : AcalRequest) : (k : Nat) → List Event
  | 0 => []
  | k + 1 => wrEvents c c.regMode c.modeIntTrig ++ [.dms c.settleMs.toNat] ++ wrAll c ((setupRest c q).take k)

/-- The events of a successful setup phase of AUTOCAL with request `q` (44_timed_routines.md R174). -/
def setupEvents (c : Params) (q : AcalRequest) : List Event :=
  wrEvents c c.regMode c.modeIntTrig ++ [.dms c.settleMs.toNat] ++ wrAll c (setupRest c q)

/-- The events of the GO reads of AUTOCAL that show GO set, each followed by a 1 ms delay (44_timed_routines.md R175). -/
def goSetEvents (c : Params) (busy : List Byte) : List Event := busy.flatMap fun g => rdEvents c c.regGo g ++ [.dms 1]

/-- The events of the GO poll loop of AUTOCAL: the reads that show GO set, then the last read, which answers `last`. -/
def pollEvents (c : Params) (busy : List Byte) (last : Byte) : List Event :=
  goSetEvents c busy ++ rdEvents c c.regGo last

/-- The seven result bytes of AUTOCAL in the order they are read (44_timed_routines.md R177, R178). -/
structure ResultBytes where
  status : Byte
  comp : Byte
  bemf : Byte
  rated : Byte
  clamp : Byte
  vbat : Byte
  reson : Byte
  deriving DecidableEq, Repr

/-- The result bytes as the bus answers them. -/
def ResultBytes.bytes (r : ResultBytes) : List Byte :=
  [r.status, r.comp, r.bemf, r.rated, r.clamp, r.vbat, r.reson]

/-- The events of the seven result reads, all successful. -/
def ResultBytes.events (r : ResultBytes) (c : Params) : List Event :=
  rdEvents c c.regStatus r.status ++ rdEvents c c.regAcalComp r.comp ++ rdEvents c c.regAcalBemf r.bemf ++
    rdEvents c c.regRatedV r.rated ++ rdEvents c c.regOdClamp r.clamp ++ rdEvents c c.regVbat r.vbat ++
    rdEvents c c.regLraPeriod r.reson

/-- The result registers after them: both best-effort fields OK. -/
def ResultBytes.result (r : ResultBytes) : AcalResult :=
  ⟨r.status, r.comp, r.bemf, r.rated, r.clamp, r.vbat, r.reson, .ok, .ok⟩

/-- The registers of the hard result reads of AUTOCAL, in order (44_timed_routines.md R177). -/
def hardRegs (c : Params) : List Byte := [c.regStatus, c.regAcalComp, c.regAcalBemf, c.regRatedV, c.regOdClamp]

/-- The events of the first hard result reads, successful, which answer `bs`. -/
def hardReadEvents (c : Params) (bs : List Byte) : List Event :=
  ((hardRegs c).zip bs).flatMap fun p => rdEvents c p.1 p.2

/-- The result registers after the first hard result reads have answered `bs`: every other field at 0 and both
best-effort fields NOT_ATTEMPTED, as the entry actions leave them (44_timed_routines.md R173, R177). -/
def AcalResult.hard (bs : List Byte) : AcalResult :=
  ⟨bs.getD 0 0, bs.getD 1 0, bs.getD 2 0, bs.getD 3 0, bs.getD 4 0, 0, 0, .notAttempted, .notAttempted⟩

/-- The delay event of a hold or pause of `n` milliseconds: none when it is 0 (44_timed_routines.md R186, R189). -/
def pauseEvents (n : Nat) : List Event := if n = 0 then [] else [.dms n]

/-- The data bytes a list of events sends, in order. -/
def sentBytes (es : List Event) : List Byte :=
  es.filterMap fun e => match e with
    | .tx b => some b
    | _ => none

/-- The delay events in a list of events, in order. -/
def delays (es : List Event) : List Event :=
  es.filter fun e => match e with
    | .dms _ | .dus _ => true
    | _ => false

/-- `H_STATUS` after a READY completion (60_exceptions.md R229), OVERRUN unchanged. -/
def readyStatus (st : Status) : Status := ⟨false, true, true, st.overrun, none⟩

/-- `H_STATUS` after a NOT_READY completion with class `cls` (60_exceptions.md R229), OVERRUN unchanged. -/
def failedStatus (st : Status) (cls : FailClass) : Status := ⟨false, true, false, st.overrun, some cls⟩

/-- The state after a command that issued the events `es`, consumed the environment's answers down to `xs` and `ys`,
and left the host registers `r`; `read` says whether it made a combined-format read, which leaves the acknowledge
enabled (40_bus_engine.md R114). Everything else is as it was, and nothing hidden is left. -/
def State.settled (s : State) (r : HostRegs) (es : List Event) (xs : List Snapshot) (ys : List Byte)
    (read : Bool) : State :=
  { s with
    regs := r
    trace := s.trace ++ es
    samples := xs
    rxBytes := ys
    ackEnable := s.ackEnable || read
    written := [] }

/-- The host registers `r` with the status of a READY completion. -/
def HostRegs.ready (r : HostRegs) : HostRegs := { r with status := readyStatus r.status }

/-- The host registers `r` with the status of a NOT_READY completion with class `cls`. -/
def HostRegs.notReady (r : HostRegs) (cls : FailClass) : HostRegs := { r with status := failedStatus r.status cls }

/-- `s` after the events `es`, the environment's answers consumed down to `xs`; nothing else is changed. -/
def State.sent (s : State) (es : List Event) (xs : List Snapshot) : State :=
  { s with trace := s.trace ++ es, samples := xs }

/-- `s` after the events `es` of which some were combined-format reads, which leave the acknowledge enabled
(40_bus_engine.md R114), the environment's answers consumed down to `xs` and `ys`; nothing else is changed. -/
def State.polled (s : State) (es : List Event) (xs : List Snapshot) (ys : List Byte) (read : Bool) : State :=
  { s with trace := s.trace ++ es, samples := xs, rxBytes := ys, ackEnable := s.ackEnable || read }

/-- `s` at the completion step with outcome READY (60_exceptions.md R229), the hidden state discarded. -/
def State.completedReady (s : State) : State := { s with regs := s.regs.ready, written := [] }

/-- `s` at the completion step with outcome NOT_READY and class `cls` (60_exceptions.md R229). -/
def State.completedWith (s : State) (cls : FailClass) : State := { s with regs := s.regs.notReady cls, written := [] }

/-! ### The host's view of the registers -/

/-- The host registers whose whole written value is kept but for unnamed bits, with the bits kept
(10_state.md R21, R25, R29, R30, R32). -/
def plainMask : Nat → Option Word
  | 0x008 | 0x00C | 0x010 | 0x044 => some 0xFFFFFFFF
  | 0x020 | 0x024 | 0x028 | 0x030 | 0x040 => some 0x0000FFFF
  | 0x048 => some 0xFFFF00FF
  | _ => none

/-- The offset holds nothing: an unnamed one of 20_memory.md R60, or one of a buffer window above the buffer's size
(10_state.md R34, R35). -/
def emptyOffset (c : Params) (off : Nat) : Prop :=
  (off < 0x100 ∧ off ∉ [0x000, 0x004, 0x008, 0x00C, 0x010, 0x014, 0x018, 0x01C, 0x020, 0x024, 0x028, 0x02C, 0x030,
    0x034, 0x040, 0x044, 0x048, 0x050, 0x054]) ∨
  (0x100 + c.dbufLen.toNat ≤ off ∧ off < 0x200) ∨
  (0x200 + 4 * c.maxFrames.toNat ≤ off ∧ off < 0x800)

/-! ### Failure conditions -/

/-- The argument checks, command by command: the table of 60_exceptions.md R223. -/
def argCheckFails (s : State) : Instr → Bool
  | .busWrite n => decide (s.cfg.dbufLen.toNat < n.toNat)
  | .busRead _ n dv => !dv || decide (n ≠ 0 ∧ s.cfg.dbufLen.toNat < n.toNat)
  | .regRead _ dv => !dv
  | .setWaveform slot _ => decide (7 < slot.toNat)
  | .getWaveform slot dv => !dv || decide (7 < slot.toNat)
  | .cdStart => decide (s.regs.cdState = .unconfigured)
  | .playFreqAmp amp => decide (s.regs.arg0 = 0 ∨ amp = 0)
  | .playFreqVoltage => decide (arg1Mv s.regs = 0 ∨ s.regs.maxMv = 0 ∨ s.regs.arg0 = 0)
  | .regWrite _ _ | .clearSequence | .setSustain _ _ | .encRated | .decRated _ | .encClamp | .decClamp _ => false
  | .defaultInit | .autocal _ | .cdConfigure _ _ _ _ | .cdStop | .rtPrepare | .agStep => false

/-! ### What a command may change -/

/-- The host registers outside `H_STATUS` that the rule of each command says it writes, taken from `t`; the others as in
`s` (the "Host registers written" lines of 40_bus_engine.md to 44_timed_routines.md). -/
def HostRegs.writtenBy (s t : HostRegs) : Instr → HostRegs
  | .regRead _ _ | .getWaveform _ _ => { s with rdata := t.rdata }
  | .encRated | .decRated _ | .encClamp | .decClamp _ => { s with rdata := t.rdata }
  | .autocal rb => if rb then { s with res := t.res } else s
  | .cdConfigure _ _ _ _ => { s with cdState := t.cdState, cdStrength := t.cdStrength }
  | .cdStart | .cdStop => { s with cdState := t.cdState }
  | .rtPrepare | .playFreqAmp _ | .playFreqVoltage => { s with rtReady := t.rtReady }
  | .agStep => { s with agCursor := t.agCursor }
  | .busWrite _ | .busRead _ _ _ | .regWrite _ _ | .setWaveform _ _ => s
  | .clearSequence | .setSustain _ _ | .defaultInit => s

/-- The number of DBUF bytes the command may store to, from host offset 0x100 on (40_bus_engine.md R111). -/
def dbufBytesWritten : Instr → Nat
  | .busRead _ n _ => n.toNat
  | .busWrite _ | .regWrite _ _ | .regRead _ _ | .setWaveform _ _ | .getWaveform _ _ | .clearSequence => 0
  | .setSustain _ _ | .encRated | .decRated _ | .encClamp | .decClamp _ | .defaultInit | .autocal _ => 0
  | .cdConfigure _ _ _ _ | .cdStart | .cdStop | .rtPrepare | .playFreqAmp _ | .playFreqVoltage | .agStep => 0

/-- The host schedules no reset. -/
def State.NoReset (s : State) : Prop := .reset ∉ s.host

end Sys2Proof.Machine
end

