-- ==== Sys2Proof/Certificates/Slice0/Obligations.lean ====
section
/-! DEFINITION. The statements about the model, for the provers. Each docstring names the rules of spec/ it comes from.
"Quiet" means that the host makes no move while the command runs. -/

open Sys2Proof Sys2Proof.Machine

/-! ### Encoding -/

/-- Decoding the word of a command gives the command back (30_encoding.md R81, R83, R84, R88). -/
def Obligations.DecodeOfEncode : Prop := ∀ i : Instr, decode (encode i) = .command i

/-- 30_encoding.md R86: every word decodes to exactly one command, with its fields, or to ILLEGAL; no two rows match the
same word. -/
def Obligations.DecodingTotalAndUnambiguous : Prop :=
  (∀ w : Word, (∃ i, decode w = .command i ∧ encode i = w ∧ ∀ j, decode w = .command j → j = i) ∨
    ∃ why, decode w = .illegal why) ∧
  ∀ (w : Word) (r r' : OpcodeRow), r ∈ opcodeTable → r' ∈ opcodeTable → r.selects w = true → r'.selects w = true →
    r = r'

/-- Words written out in 30_encoding.md R88 and 95_test_vectors.md, one or more of every family. -/
def Obligations.SpecWordsDecode : Prop :=
  decode 0x00050103 = .command (.regWrite 0x01 0x05) ∧
  decode 0x01000004 = .command (.regRead 0x00 true) ∧
  decode 0x06501341 = .command (.cdConfigure .lra 0x13 0x50 6) ∧
  decode 0xFFFFFF40 = .command (.cdConfigure .erm 0xFF 0xFF 0xFF) ∧
  decode 0x00004051 = .command (.playFreqAmp 0x40) ∧
  decode 0x00010001 = .command (.busWrite 1) ∧
  decode 0x01021602 = .command (.busRead 0x16 2 true) ∧
  decode 0x00FF0002 = .command (.busRead 0x00 255 false) ∧
  decode 0x002F0710 = .command (.setWaveform 7 0x2F) ∧
  decode 0x0100FF11 = .command (.getWaveform 255 true) ∧
  decode 0x00201013 = .command (.setSustain 0x10 0x20) ∧
  decode 0x00009B21 = .command (.decRated 0x9B) ∧
  decode 0x01000031 = .command (.autocal true) ∧
  decode 0x00000060 = .command .agStep ∧
  decode 0x02000004 = .illegal .mustBeZero ∧
  decode 0x00014051 = .illegal .mustBeZero ∧
  decode 0x000000FF = .illegal .unassignedOpcode

/-- 30_encoding.md R85: which words are ILLEGAL, the unassigned opcodes, and what an ILLEGAL command does. -/
def Obligations.IllegalWords : Prop :=
  (∀ w : Word, (∃ why, decode w = .illegal why) ↔
    ((∀ r ∈ opcodeTable, r.selects w = false) ∨
      ∃ r ∈ opcodeTable, r.selects w = true ∧ r.zerosClear w = false)) ∧
  (∀ w : Word, (∀ r ∈ opcodeTable, r.selects w = false) ↔
    ((opField w).toNat = 0x00 ∨ (0x05 ≤ (opField w).toNat ∧ (opField w).toNat ≤ 0x0F) ∨
      (0x14 ≤ (opField w).toNat ∧ (opField w).toNat ≤ 0x1F) ∨
      (0x24 ≤ (opField w).toNat ∧ (opField w).toNat ≤ 0x2F) ∨
      (0x32 ≤ (opField w).toNat ∧ (opField w).toNat ≤ 0x3F) ∨
      (0x44 ≤ (opField w).toNat ∧ (opField w).toNat ≤ 0x4F) ∨
      (0x53 ≤ (opField w).toNat ∧ (opField w).toNat ≤ 0x5F) ∨ 0x61 ≤ (opField w).toNat)) ∧
  ∀ (w : Word) (s : State) (why : IllegalReason), s.host = [] → decode w = .illegal why →
    runWord w s = .next (s.completedWith .illegal) ∧
    ((s.completedWith .illegal).hostWord offStatus).extractLsb' 4 4 = 4 ∧
    ((s.completedWith .illegal).hostWord offStatus).getLsbD 2 = false

/-! ### A step of the machine, and the host's accesses -/

/-- A write to `H_CMD` on the idle machine is the acceptance of 10_state.md R24, and the step runs the command the word
decodes to, or ILLEGAL. That the command runs to its end in this one step is the model's choice (log entry 1). -/
def Obligations.StepRunsAcceptedWord : Prop :=
  ∀ (s : State) (w : Word) (q : List HostMove), s.host = .write 0x004 4 w :: q →
    (∀ m ∈ q, m.legal = true) → s.regs.status.busy = false →
    let accepted : State := { s with
      host := q
      regs := { s.regs with cmd := w, status := { s.regs.status with busy := true, done := false } }
      trace := []
      written := [] }
    (∀ i, decode w = .command i → step s = exec i accepted) ∧
    (∀ why, decode w = .illegal why → step s = illegalCommand accepted) ∧
    accepted.hostWord offCmd = w

/-- 20_memory.md R61: a schedule with an access of another width or a misaligned one is refused, every other schedule is
not, and no step ever faults. That the whole schedule is checked before the step is the model's choice (log entry 18). -/
def Obligations.AccessShapeRefused : Prop :=
  (∀ s : State, step s = .refused .hostAccessShape ↔
    ∃ m ∈ s.host, ∃ off n, (m = .read off n ∨ ∃ v, m = .write off n v) ∧ (n ≠ 4 ∨ off.toNat % 4 ≠ 0)) ∧
  ∀ s : State, step s = .refused .hostAccessShape ∨ ∃ t, step s = .next t

/-- A host read is always performed, returns the current value, and has no side effect (10_state.md R23, 20_memory.md
R67). The first clause is about a step of the machine, the second about the host's turn before a controller step of a
running command, with the two ways such a turn ends. While BUSY = 1 it is said of a register the running command has not
written (20_memory.md R68 item 3; log entry 8). -/
def Obligations.HostReadReturnsValue : Prop :=
  (∀ (s : State) (off : BitVec 11) (q : List HostMove), s.host = .read off 4 :: q → off.toNat % 4 = 0 →
    (∀ m ∈ q, m.legal = true) → (s.regs.status.busy = true → s.writtenAt off.toNat = []) →
    step s = .next { s with host := q, reads := s.reads ++ [(off.toNat, s.hostWord off.toNat)] }) ∧
  (∀ (s : State) (off : BitVec 11) (n : Nat) (q : List HostMove), s.host = .read off n :: q →
    s.writtenAt off.toNat = [] →
    tick s = tick { s with host := q, reads := s.reads ++ [(off.toNat, s.hostWord off.toNat)] }) ∧
  (∀ (s : State) (q : List HostMove), s.host = .pass :: q → tick s = .ok () { s with host := q }) ∧
  ∀ s : State, s.host = [] → tick s = .ok () s

/-- A host read, while a command runs, of a register the command has written returns one of the prior value and those
written so far (20_memory.md R68 item 3); which one is a free value (log entry 8). The list they stand in: a write by the
command puts the register's prior word first if it has none yet, appends the word the register then holds, and leaves the
lists of other registers alone; every register or DBUF write of a command is such a write. -/
def Obligations.BusyReadAmongWritten : Prop :=
  (∀ (s : State) (off : BitVec 11) (n : Nat) (q : List HostMove), s.host = .read off n :: q →
    s.writtenAt off.toNat ≠ [] → ∃ v ∈ s.writtenAt off.toNat,
      tick s = tick { s with host := q, reads := s.reads ++ [(off.toNat, v)], draws := s.draws + 1 }) ∧
  (∀ (s : State) (off : Nat) (f : State → State), ∃ w, writeAt off f s = .ok () { f s with written := w } ∧
    State.writtenAt { f s with written := w } off =
      (if s.writtenAt off = [] then [s.hostWord off] else s.writtenAt off) ++ [(f s).hostWord off] ∧
    ∀ off', off' ≠ off → State.writtenAt { f s with written := w } off' = s.writtenAt off') ∧
  (∀ v, setRdata v = writeAt 0x014 fun s => { s with regs := { s.regs with rdata := v } }) ∧
  (∀ v, setCdState v = writeAt 0x018 fun s => { s with regs := { s.regs with cdState := v } }) ∧
  (∀ v : Byte, setCdStrength v = writeAt 0x018 fun s => { s with regs := { s.regs with cdStrength := v.setWidth 7 } }) ∧
  (setRtReady = writeAt 0x01C fun s => { s with regs := { s.regs with rtReady := true } }) ∧
  (∀ v, setAgCursor v = writeAt 0x034 fun s => { s with regs := { s.regs with agCursor := v } }) ∧
  (∀ off f, setResult off f = writeAt off fun s => { s with regs := { s.regs with res := f s.regs.res } }) ∧
  ∀ i v, storeDbuf i v = writeAt (0x100 + i / 4 * 4) fun s => s.setDbufByte i v

/-- 10_state.md R22 and R23: a write to `H_STATUS` has its write-1-to-clear effect whether or not a command runs; any
other write while BUSY = 1 is ignored and sets OVERRUN, to an unmapped offset too (log entry 11). The first clause is about
a step of the machine, the second about the host's turn before any one controller step of a running command, the third
about what a write that is due before a command's first controller step comes to. -/
def Obligations.StatusAndBusyWrites : Prop :=
  (∀ (s : State) (off : BitVec 11) (v : Word) (q : List HostMove), s.host = .write off 4 v :: q →
    off.toNat % 4 = 0 → (∀ m ∈ q, m.legal = true) →
    (off = 0 → step s = .next { s with
      host := q
      regs := { s.regs with status := { s.regs.status with
        done := s.regs.status.done && !v.getLsbD 1
        overrun := s.regs.status.overrun && !v.getLsbD 3 } } }) ∧
    (off ≠ 0 → s.regs.status.busy = true → step s = .next { s with
      host := q
      regs := { s.regs with status := { s.regs.status with overrun := true } } })) ∧
  ∀ (s : State) (off : BitVec 11) (n : Nat) (v : Word) (q : List HostMove) (t : State), s.host = .write off n v :: q →
    t = { s with
      host := q
      regs := { s.regs with status := if off = 0
        then { s.regs.status with
          done := s.regs.status.done && !v.getLsbD 1
          overrun := s.regs.status.overrun && !v.getLsbD 3 }
        else { s.regs.status with overrun := true } } } →
    tick s = tick t ∧ ∀ i, exec i s = exec i t

/-- `H_STATUS` bit by bit (10_state.md R22), with the class codes of 60_exceptions.md R221. -/
def Obligations.StatusWordLayout : Prop :=
  ∀ st : Status, st.word.getLsbD 0 = st.busy ∧ st.word.getLsbD 1 = st.done ∧ st.word.getLsbD 2 = st.ready ∧
    st.word.getLsbD 3 = st.overrun ∧ st.word.extractLsb' 8 24 = 0 ∧
    st.word.extractLsb' 4 4 = (match st.errClass with
      | none => 0 | some .bus => 1 | some .arg => 2 | some .timing => 3 | some .illegal => 4)

/-- A write on the idle machine to any offset but `H_CMD` is performed: the step does what `hostStore` does, whose effects
this statement and those up to `Obligations.FramesReadBack` give. A plain read-write register reads back what was written,
its unnamed bits as 0, and the write changes no other host register and no buffer word (10_state.md R21, R25, R29, R30,
R32). -/
def Obligations.PlainRegistersReadBack : Prop :=
  (∀ (s : State) (off : BitVec 11) (v : Word) (q : List HostMove), s.host = .write off 4 v :: q →
    off.toNat % 4 = 0 → (∀ m ∈ q, m.legal = true) → s.regs.status.busy = false → off ≠ 0x004 →
    step s = .next (State.hostStore { s with host := q } off.toNat v)) ∧
  ∀ (s : State) (off : Nat) (v mask : Word), plainMask off = some mask →
    (s.hostStore off v).hostWord off = v &&& mask ∧
    ∀ off', off' ≠ off → (s.hostStore off v).hostWord off' = s.hostWord off'

/-- A write to `H_AG_COUNT` stores `min(v[8:0], MAX_FRAMES)`, sets the cursor to 0, and changes nothing else
(10_state.md R30). -/
def Obligations.FrameCountWrite : Prop :=
  ∀ (s : State) (v : Word),
    ((s.hostStore 0x02C v).hostWord 0x02C).toNat = min (v.toNat % 512) s.cfg.maxFrames.toNat ∧
    (s.hostStore 0x02C v).hostWord 0x034 = 0 ∧
    ∀ off, off ≠ 0x02C → off ≠ 0x034 → (s.hostStore 0x02C v).hostWord off = s.hostWord off

/-- A write to a read-only register or to an offset that holds nothing is ignored, and such an offset reads 0
(10_state.md R21, R34, R35; 20_memory.md R60). -/
def Obligations.IgnoredWrites : Prop :=
  ∀ (s : State) (off : Nat) (v : Word),
    (off ∈ [0x014, 0x018, 0x01C, 0x034, 0x050, 0x054] → s.hostStore off v = s) ∧
    (emptyOffset s.cfg off → s.hostStore off v = s ∧ s.hostWord off = 0)

/-- DBUF is little-endian for the host; a byte at `DBUF_LEN` or above reads 0 and ignores writes; a write changes no
other byte (20_memory.md R62). -/
def Obligations.DbufLittleEndian : Prop :=
  ∀ (s : State) (k : Nat), k < 64 →
    (∀ i, i < 4 → byteOf (s.hostWord (0x100 + 4 * k)) i =
      if 4 * k + i < s.cfg.dbufLen.toNat then s.memByte (0x100 + 4 * k + i) else 0) ∧
    ∀ (v : Word) (a : Nat), (s.hostStore (0x100 + 4 * k) v).memByte a =
      if 0x100 + 4 * k ≤ a ∧ a < 0x100 + 4 * k + 4 ∧ a < 0x100 + s.cfg.dbufLen.toNat
      then byteOf v (a - (0x100 + 4 * k)) else s.memByte a

/-- A frame word reads back what was written, and no other frame word and no DBUF byte changes (10_state.md R35). -/
def Obligations.FramesReadBack : Prop :=
  ∀ (s : State) (i j : Nat) (v : Word), i < s.cfg.maxFrames.toNat → i < 384 → j < 384 →
    (s.hostStore (0x200 + 4 * i) v).hostWord (0x200 + 4 * j) =
      (if j = i then v else s.hostWord (0x200 + 4 * j)) ∧
    ∀ a, a < 0x200 → (s.hostStore (0x200 + 4 * i) v).memByte a = s.memByte a

/-! ### Reset -/

/-- 10_state.md R46: what the host reads after reset, register by register; nothing hidden is left, and
the peripheral is as the boot precondition has it. It holds for every parameter set, that of `State.reset` among them. -/
def Obligations.ResetValues : Prop :=
  ∀ c : Params,
    (∀ off ∈ [0x000, 0x004, 0x008, 0x00C, 0x010, 0x014, 0x018, 0x01C, 0x02C, 0x030, 0x034, 0x040, 0x044, 0x048,
      0x050, 0x054], (State.init c).hostWord off = 0) ∧
    (State.init c).hostWord 0x020 = c.burstMsReset.setWidth 32 ∧
    (State.init c).hostWord 0x024 = c.pauseMsReset.setWidth 32 ∧
    (State.init c).hostWord 0x028 = c.maxMvReset.setWidth 32 ∧
    (State.init c).regs.cdState = .unconfigured ∧
    (State.init c).regs.res.vbatSt = .notAttempted ∧ (State.init c).regs.res.resonSt = .notAttempted ∧
    (State.init c).written = [] ∧ (State.init c).ackEnable = true ∧ (State.init c).latched = ErrorFlags.clear ∧
    State.reset = State.init Config.params

/-- 70_reset_and_hazards.md R250: a reset gives every piece of TWSC state its reset value, issues no event, leaves the
peripheral as it was, and ends a running command with no completion step. Said of the idle machine, of a reset that
arrives before any one controller step, of what becomes of the command then, of one that arrives before its first
controller step, and of one that arrives at any later point of it. How the model represents unspecified buffers and keeps
its record of the surroundings is its own choice (log entries 5 and 14). -/
def Obligations.ResetTakesEffect : Prop :=
  (∀ (s : State) (q : List HostMove), s.host = .reset :: q → (∀ m ∈ q, m.legal = true) →
    step s = .next { s with
      regs := HostRegs.reset s.cfg, mem := [], written := [], host := q, resets := s.resets + 1 }) ∧
  (∀ (s : State) (q : List HostMove), s.host = .reset :: q →
    tick s = .stop .reset { s with
      regs := HostRegs.reset s.cfg, mem := [], written := [], host := q, resets := s.resets + 1 }) ∧
  (∀ (body : Ctl Unit) (s t : State), body s = .stop .reset t → command body s = .next t) ∧
  (∀ (i : Instr) (s : State) (q : List HostMove), s.host = .reset :: q →
    ∃ d, exec i s = .next { s with
      regs := HostRegs.reset s.cfg, mem := [], written := [], host := q, resets := s.resets + 1, draws := d }) ∧
  ∀ (i : Instr) (s t : State), exec i s = .next t → t.resets = s.resets ∨
    (t.resets = s.resets + 1 ∧ t.regs = HostRegs.reset s.cfg ∧ t.mem = [] ∧ t.written = [] ∧ t.cfg = s.cfg ∧
      .reset ∈ s.host)

/-! ### Completion -/

/-- 60_exceptions.md R229: the completion step, for any pseudocode that reaches `done()` or `fail(CLASS)`, quietly. -/
def Obligations.CompletionStep : Prop :=
  ∀ (body : Ctl Unit) (s t : State), t.host = [] →
    (body s = .ok () t → command body s = .next { t with
      regs := { t.regs with status :=
        { t.regs.status with ready := true, errClass := none, done := true, busy := false } }
      written := [] }) ∧
    ∀ cls, body s = .stop (.fail cls) t → command body s = .next { t with
      regs := { t.regs with status :=
        { t.regs.status with ready := false, errClass := some cls, done := true, busy := false } }
      written := [] }

/-- Every command runs to its end, whatever the environment answers and whatever the host does meanwhile short of a reset:
BUSY = 0, DONE = 1, READY = 1 exactly when there is no class, nothing hidden is left; with a quiet host OVERRUN is
unchanged (60_exceptions.md R229, 70_reset_and_hazards.md R262). That every answer and delay comes is the fairness of
R262, built into the model (log entry 3). -/
def Obligations.EveryCommandEnds : Prop :=
  ∀ (i : Instr) (s : State), s.NoReset → ∃ t, exec i s = .next t ∧ t.regs.status.busy = false ∧
    t.regs.status.done = true ∧ (t.regs.status.ready = true ↔ t.regs.status.errClass = none) ∧ t.written = [] ∧
    (s.host = [] → t.regs.status.overrun = s.regs.status.overrun)

/-! ### The commands, on a bus that satisfies every wait at once -/

/-- BUS_WRITE: `n = 0` issues no event; otherwise DBUF bytes 0 to n-1 in one transaction (40_bus_engine.md R110). -/
def Obligations.BusWriteCompletes : Prop :=
  ∀ (s : State) (xs : List Snapshot) (ys : List Byte) (n : Byte), n.toNat ≤ s.cfg.dbufLen.toNat →
    (n = 0 → s.Answers 0 [] xs ys → exec (.busWrite n) s = .next (s.settled s.regs.ready [] xs ys false)) ∧
    (n ≠ 0 → s.Answers (3 + 2 * n.toNat) [] xs ys → exec (.busWrite n) s =
      .next (s.settled s.regs.ready (writeEvents s.cfg ((List.range n.toNat).map s.dbufByte)) xs ys false))

/-- BUS_READ: the received bytes are stored in DBUF from index 0 on, and no other byte of memory changes
(40_bus_engine.md R111). -/
def Obligations.BusReadCompletes : Prop :=
  ∀ (s : State) (xs : List Snapshot) (ys : List Byte) (reg n : Byte),
    (n = 0 → s.Answers 0 [] xs ys → exec (.busRead reg n true) s = .next (s.settled s.regs.ready [] xs ys false)) ∧
    ∀ q : List Byte, n ≠ 0 → n.toNat ≤ s.cfg.dbufLen.toNat → q.length = n.toNat →
      s.Answers (8 + n.toNat) q xs ys →
      ∃ m, exec (.busRead reg n true) s =
          .next { s.settled s.regs.ready (readEvents s.cfg reg q) xs ys true with mem := m } ∧
        ∀ a, Memory.lookup m a =
          if 0x100 ≤ a ∧ a < 0x100 + n.toNat then q[a - 0x100]? else Memory.lookup s.mem a

/-- REG_WRITE: one two-byte write transaction, the value sent as given (41_register_layer.md R130, R132). -/
def Obligations.RegWriteCompletes : Prop :=
  ∀ (s : State) (xs : List Snapshot) (ys : List Byte) (reg v : Byte), s.Answers 7 [] xs ys →
    exec (.regWrite reg v) s = .next (s.settled s.regs.ready (wrEvents s.cfg reg v) xs ys false)

/-- REG_READ and GET_WAVEFORM: the byte read, zero-extended, in `H_RDATA` (41_register_layer.md R133,
42_device_control.md R142). -/
def Obligations.GettersComplete : Prop :=
  ∀ (s : State) (xs : List Snapshot) (ys : List Byte) (a v : Byte), s.Answers 9 [v] xs ys →
    exec (.regRead a true) s = .next (s.settled (HostRegs.ready { s.regs with rdata := v.setWidth 16 })
      (rdEvents s.cfg a v) xs ys true) ∧
    (a.toNat ≤ 7 → exec (.getWaveform a true) s = .next (s.settled (HostRegs.ready { s.regs with rdata := v.setWidth 16 })
      (rdEvents s.cfg (s.cfg.waveseqBase + a) v) xs ys true))

/-- SET_WAVEFORM: slot 0 to 7, any effect (42_device_control.md R141). -/
def Obligations.SetWaveformCompletes : Prop :=
  ∀ (s : State) (xs : List Snapshot) (ys : List Byte) (slot effect : Byte), slot.toNat ≤ 7 → s.Answers 7 [] xs ys →
    exec (.setWaveform slot effect) s =
      .next (s.settled s.regs.ready (wrEvents s.cfg (s.cfg.waveseqBase + slot) effect) xs ys false)

/-- CLEAR_SEQUENCE: zero to slots 1 to 7 in ascending order, slot 0 never addressed (42_device_control.md R143). -/
def Obligations.ClearSequenceCompletes : Prop :=
  ∀ (s : State) (xs : List Snapshot) (ys : List Byte), s.Answers 49 [] xs ys →
    exec .clearSequence s = .next (s.settled s.regs.ready (wrAll s.cfg
      [(s.cfg.waveseqBase + 1, 0), (s.cfg.waveseqBase + 2, 0), (s.cfg.waveseqBase + 3, 0),
        (s.cfg.waveseqBase + 4, 0), (s.cfg.waveseqBase + 5, 0), (s.cfg.waveseqBase + 6, 0),
        (s.cfg.waveseqBase + 7, 0)]) xs ys false)

/-- CLEAR_SEQUENCE fails with BUS at the first failing slot: the slots before it have been written, those after it are not
(42_device_control.md R143). The failing write is any failing run of `WriteRegister` to slot `k + 1`. -/
def Obligations.ClearSequenceAborts : Prop :=
  ∀ (s t : State) (xs : List Snapshot) (ys : List Byte) (k : Nat), k < 7 → s.Answers (7 * k) [] xs ys →
    writeRegister (s.cfg.waveseqBase + BitVec.ofNat 8 (k + 1)) 0 (s.sent (wrAll s.cfg
      ((List.range k).map fun j => (s.cfg.waveseqBase + BitVec.ofNat 8 (j + 1), 0))) xs) = .ok false t →
    exec .clearSequence s = .next (t.completedWith .bus)

/-- SET_SUSTAIN: positive, then negative (42_device_control.md R144). If the first write fails the second is not made,
and if either fails the command is NOT_READY with BUS. -/
def Obligations.SetSustainCompletes : Prop :=
  ∀ (s : State) (pos neg : Byte),
    (∀ xs ys, s.Answers 14 [] xs ys → exec (.setSustain pos neg) s =
      .next (s.settled s.regs.ready (wrAll s.cfg [(s.cfg.regSpt, pos), (s.cfg.regSnt, neg)]) xs ys false)) ∧
    (∀ t, s.host = [] → writeRegister s.cfg.regSpt pos s = .ok false t →
      exec (.setSustain pos neg) s = .next (t.completedWith .bus)) ∧
    ∀ xs ys t, s.Answers 7 [] xs ys →
      writeRegister s.cfg.regSnt neg (s.sent (wrEvents s.cfg s.cfg.regSpt pos) xs) = .ok false t →
      exec (.setSustain pos neg) s = .next (t.completedWith .bus)

/-- The codec commands: READY for every operand, no event, the value of 43_codec.md R160 to R163 in `H_RDATA`, nothing
else written (43_codec.md R164 to R167). -/
def Obligations.CodecCommandsComplete : Prop :=
  ∀ (s : State) (code : Byte), s.host = [] →
    exec .encRated s = .next (State.completedReady { s with regs := { s.regs with
      rdata := BitVec.ofNat 16 (min 255 ((s.regs.arg0.toNat % 65536 * 1000 + 10665) / 21330)) } }) ∧
    exec .encClamp s = .next (State.completedReady { s with regs := { s.regs with
      rdata := BitVec.ofNat 16 (min 255 ((s.regs.arg0.toNat % 65536 * 1000 + 2800) / 5600)) } }) ∧
    exec (.decRated code) s = .next (State.completedReady { s with regs := { s.regs with
      rdata := BitVec.ofNat 16 ((code.toNat * 21330 + 500) / 1000) } }) ∧
    exec (.decClamp code) s = .next (State.completedReady { s with regs := { s.regs with
      rdata := BitVec.ofNat 16 ((code.toNat * 5600 + 500) / 1000) } })

/-- DEFAULT_INIT: 17 write transactions and one settle delay; no host register but `H_STATUS` (44_timed_routines.md
R172). -/
def Obligations.DefaultInitCompletes : Prop :=
  ∀ (s : State) (xs : List Snapshot) (ys : List Byte), s.Answers 119 [] xs ys →
    exec .defaultInit s = .next (s.settled s.regs.ready (defaultInitEvents s.cfg) xs ys false)

/-- AUTOCAL when GO clears within the budget: with `rb = 0` READY with no result register written; with `rb = 1` the
result reads, whose bytes the result registers hold (44_timed_routines.md R173 to R178). `gs` are the GO bytes that
still show the bit, `g` the one that shows it clear. -/
def Obligations.AutocalCompletes : Prop :=
  ∀ (s : State) (xs : List Snapshot) (ys gs : List Byte) (g : Byte) (r : ResultBytes),
    (∀ x ∈ gs, x &&& s.cfg.goMask ≠ 0) → g &&& s.cfg.goMask = 0 →
    gs.length ≤ (if s.regs.req.timeoutMs = 0 then 2000 else s.regs.req.timeoutMs.toNat) →
    (s.Answers (84 + 9 * (gs.length + 1) + 7) (gs ++ [g]) xs ys → exec (.autocal false) s =
      .next (s.settled s.regs.ready
        (setupEvents s.cfg s.regs.req ++ pollEvents s.cfg gs g ++ wrEvents s.cfg s.cfg.regGo 0) xs ys true)) ∧
    (s.Answers (84 + 9 * (gs.length + 1) + 7 + 63) (gs ++ [g] ++ r.bytes) xs ys → exec (.autocal true) s =
      .next (s.settled (HostRegs.ready { s.regs with res := r.result })
        (setupEvents s.cfg s.regs.req ++ pollEvents s.cfg gs g ++ wrEvents s.cfg s.cfg.regGo 0 ++ r.events s.cfg)
        xs ys true))

/-- How AUTOCAL fails, each way with exactly one DEV-STOP attempt (44_timed_routines.md R173 to R176, R179, R191;
60_exceptions.md R224, R228). `e` is the state after the entry actions of R173, `t` the state a failing transaction leaves,
`u` the one that the DEV-STOP attempt leaves. In order: GO never clears (`T + 1` GO reads, `T` delays of 1 ms, one
DEV-STOP, TIMING, no result read; with `rb = 1` the result registers are 0 and `READ_RESULTS_ON_TIMEOUT = false` is
assumed); the setup write number `k` fails; a GO read fails; the DEV-STOP after the loop fails; with `rb = 1`, a hard
result read fails after GO has cleared, the DEV-STOP has succeeded and the hard reads before it have answered `bs`: no
further read, no second DEV-STOP, BUS, and the result registers hold `bs` and 0, whatever the busy-read lists `w` are. That
the failing field reads 0 is R177 read against 40_bus_engine.md R112 (log entry 10). -/
def Obligations.AutocalTimesOut : Prop :=
  ∀ (s : State) (xs : List Snapshot) (ys gs : List Byte) (rb : Bool) (limit : Nat),
    limit = (if s.regs.req.timeoutMs = 0 then 2000 else s.regs.req.timeoutMs.toNat) →
    (∀ x ∈ gs, x &&& s.cfg.goMask ≠ 0) →
    (∀ g : Byte, s.cfg.readResultsOnTimeout = false ∨ rb = false → g &&& s.cfg.goMask ≠ 0 → gs.length = limit →
      s.Answers (84 + 9 * (gs.length + 1) + 7) (gs ++ [g]) xs ys →
      exec (.autocal rb) s =
        .next (s.settled ((if rb then { s.regs with res := AcalResult.zero } else s.regs).notReady .timing)
          (setupEvents s.cfg s.regs.req ++ pollEvents s.cfg gs g ++ wrEvents s.cfg s.cfg.regGo 0) xs ys true)) ∧
    ∀ e t u : State, acalEntry rb s = .ok () e →
      (∀ (k : Nat) (w : Byte × Byte) (stopped : Bool), (setupWrites s.cfg s.regs.req)[k]? = some w →
        s.Answers (7 * k) [] xs ys →
        writeRegister w.1 w.2 (e.sent (setupEventsTo s.cfg s.regs.req k) xs) = .ok false t →
        writeRegister s.cfg.regGo 0 t = .ok stopped u →
        exec (.autocal rb) s = .next (u.completedWith .bus)) ∧
      (∀ stopped : Bool, gs.length ≤ limit → s.Answers (84 + 9 * gs.length) gs xs ys →
        readRegister s.cfg.regGo (e.polled (setupEvents s.cfg s.regs.req ++ goSetEvents s.cfg gs) xs ys (!gs.isEmpty)) =
          .ok none t →
        writeRegister s.cfg.regGo 0 t = .ok stopped u →
        exec (.autocal rb) s = .next (u.completedWith .bus)) ∧
      (∀ g : Byte, (if g &&& s.cfg.goMask = 0 then gs.length ≤ limit else gs.length = limit) →
        s.Answers (84 + 9 * (gs.length + 1)) (gs ++ [g]) xs ys →
        writeRegister s.cfg.regGo 0 (e.polled (setupEvents s.cfg s.regs.req ++ pollEvents s.cfg gs g) xs ys true) =
          .ok false u →
        exec (.autocal rb) s = .next (u.completedWith (if g &&& s.cfg.goMask = 0 then .bus else .timing))) ∧
      ∀ (g reg : Byte) (bs : List Byte) (w : List (Nat × Word)), rb = true → g &&& s.cfg.goMask = 0 →
        gs.length ≤ limit → (hardRegs s.cfg)[bs.length]? = some reg →
        s.Answers (84 + 9 * (gs.length + 1) + 7 + 9 * bs.length) (gs ++ [g] ++ bs) xs ys →
        readRegister reg { e.polled (setupEvents s.cfg s.regs.req ++ pollEvents s.cfg gs g ++
          wrEvents s.cfg s.cfg.regGo 0 ++ hardReadEvents s.cfg bs) xs ys true with
            regs := { e.regs with res := AcalResult.hard bs }
            written := w } = .ok none t →
        exec (.autocal rb) s = .next (t.completedWith .bus) ∧ t.regs.res = AcalResult.hard bs

/-- CD_CONFIGURE: feedback, library, the drive-time byte with its top two bits kept; the strength is latched clamped
(44_timed_routines.md R180). The second clause is the fallback: the drive-time read fails and leaves `t`, whatever the
busy-read lists `w` are, and the command goes on from there with `DT_FALLBACK`. -/
def Obligations.CdConfigureCompletes : Prop :=
  ∀ (s : State) (xs : List Snapshot) (ys : List Byte) (motor : Motor) (dt strength lib : Byte) (opened : List Event),
    opened = wrEvents s.cfg s.cfg.regFeedback (match motor with | .lra => s.cfg.fbLra | .erm => s.cfg.fbErm) ++
      wrEvents s.cfg s.cfg.regLibrary lib →
    (∀ old : Byte, s.Answers 30 [old] xs ys → exec (.cdConfigure motor dt strength lib) s =
      .next (s.settled
        (HostRegs.ready { s.regs with cdState := .configuredIdle, cdStrength := BitVec.ofNat 7 (min strength.toNat 0x7F) })
        (opened ++ rdEvents s.cfg (driveTimeAddr s.cfg) old ++
          wrEvents s.cfg (driveTimeAddr s.cfg) ((old &&& 0xC0) ||| (dt &&& 0x3F))) xs ys true)) ∧
    ∀ (t : State) (w : List (Nat × Word)) (us : List Snapshot) (vs : List Byte), s.Answers 14 [] xs ys →
      readRegister (driveTimeAddr s.cfg) { s.sent opened xs with
        regs := { s.regs with cdState := .unconfigured }
        written := w } = .ok none t →
      t.Answers 7 [] us vs → exec (.cdConfigure motor dt strength lib) s =
        .next (t.settled
          (HostRegs.ready { s.regs with
            cdState := .configuredIdle, cdStrength := BitVec.ofNat 7 (min strength.toNat 0x7F) })
          (wrEvents s.cfg (driveTimeAddr s.cfg) ((s.cfg.dtFallback &&& 0xC0) ||| (dt &&& 0x3F))) us vs false)

/-- CD_START on a configured session (44_timed_routines.md R181), and CD_STOP in any state of it (R182). -/
def Obligations.CdStartStopComplete : Prop :=
  ∀ (s : State) (xs : List Snapshot) (ys : List Byte),
    (s.regs.cdState ≠ .unconfigured → s.Answers 21 [] xs ys → exec .cdStart s =
      .next (s.settled (HostRegs.ready { s.regs with cdState := .running })
        (wrAll s.cfg [(s.cfg.regMode, s.cfg.modeRtp), (s.cfg.regRtp, s.regs.cdStrength.setWidth 8),
          (s.cfg.regGo, s.cfg.goMask)]) xs ys false)) ∧
    (s.Answers 14 [] xs ys → exec .cdStop s =
      .next (s.settled
        (HostRegs.ready { s.regs with
          cdState := if s.regs.cdState = .running then .configuredIdle else s.regs.cdState })
        (wrAll s.cfg [(s.cfg.regRtp, 0), (s.cfg.regGo, 0)]) xs ys false))

/-- RT_PREPARE: nothing when the latch is set, else four writes and a settle delay, then the latch
(44_timed_routines.md R183, R184). -/
def Obligations.RtPrepareCompletes : Prop :=
  ∀ (s : State) (xs : List Snapshot) (ys : List Byte),
    (s.regs.rtReady = true → s.Answers 0 [] xs ys →
      exec .rtPrepare s = .next (s.settled s.regs.ready [] xs ys false)) ∧
    (s.regs.rtReady = false → s.Answers 28 [] xs ys → exec .rtPrepare s =
      .next (s.settled (HostRegs.ready { s.regs with rtReady := true }) (prepareEvents s.cfg) xs ys false))

/-- PLAY_FREQ_AMP: the prepare if needed, then the cycles of a square wave of the clamped amplitude, then the pause if
there is one (44_timed_routines.md R185, R186). -/
def Obligations.PlayFreqAmpCompletes : Prop :=
  ∀ (s : State) (xs : List Snapshot) (ys : List Byte) (amp : Byte) (h n : Nat), s.regs.arg0 ≠ 0 → amp ≠ 0 →
    h = max 1 (1000000 / s.regs.arg0.toNat) → n = max 1 (s.regs.burstMs.toNat * 1000 / (2 * h)) →
    (s.regs.rtReady = true → s.Answers (14 * n) [] xs ys → exec (.playFreqAmp amp) s =
      .next (s.settled s.regs.ready
        ((List.replicate n (cycleEvents s.cfg (BitVec.ofNat 8 (min amp.toNat 0x7F)) h)).flatten ++
          pauseEvents s.regs.pauseMs.toNat) xs ys false)) ∧
    (s.regs.rtReady = false → s.Answers (28 + 14 * n) [] xs ys → exec (.playFreqAmp amp) s =
      .next (s.settled (HostRegs.ready { s.regs with rtReady := true })
        (prepareEvents s.cfg ++
          (List.replicate n (cycleEvents s.cfg (BitVec.ofNat 8 (min amp.toNat 0x7F)) h)).flatten ++
          pauseEvents s.regs.pauseMs.toNat) xs ys false))

/-- PLAY_FREQ_VOLTAGE runs PLAY_FREQ_AMP with the amplitude of 44_timed_routines.md R187, which is 1 to 127, whatever the
environment and the host do (R188). With operands that are not rejected it is READY on a bus that satisfies every wait at
once, on a prepared machine. -/
def Obligations.PlayFreqVoltageCompletes : Prop :=
  ∀ (s : State) (a mv mx : Nat), mv = s.regs.arg1.toNat % 65536 → mx = s.regs.maxMv.toNat → mv ≠ 0 → mx ≠ 0 →
    a = max 1 ((min mv mx * 127 + mx / 2) / mx) →
    1 ≤ a ∧ a ≤ 127 ∧ exec .playFreqVoltage s = exec (.playFreqAmp (BitVec.ofNat 8 a)) s ∧
    ∀ (xs : List Snapshot) (ys : List Byte) (h n : Nat), s.regs.arg0 ≠ 0 → s.regs.rtReady = true →
      h = max 1 (1000000 / s.regs.arg0.toNat) → n = max 1 (s.regs.burstMs.toNat * 1000 / (2 * h)) →
      s.Answers (14 * n) [] xs ys → exec .playFreqVoltage s =
        .next (s.settled s.regs.ready ((List.replicate n (cycleEvents s.cfg (BitVec.ofNat 8 a) h)).flatten ++
          pauseEvents s.regs.pauseMs.toNat) xs ys false)

/-- AG_STEP: with the cursor below the count it plays the frame at the cursor and moves the cursor on; otherwise the zero
frame, the pause, and the cursor back to 0 (44_timed_routines.md R189, 10_state.md R35, R45). -/
def Obligations.AgStepCompletes : Prop :=
  ∀ (s : State) (xs : List Snapshot) (ys : List Byte), s.Answers 7 [] xs ys →
    (s.regs.agCursor < s.regs.agCount → ∀ w, w = s.frameWord s.regs.agCursor.toNat → exec .agStep s =
      .next (s.settled (HostRegs.ready { s.regs with agCursor := s.regs.agCursor + 1 })
        (wrEvents s.cfg s.cfg.regRtp (BitVec.ofNat 8 (min (w.toNat % 256) 0x7F)) ++
          pauseEvents (w.toNat / 256 % 65536)) xs ys false)) ∧
    (¬ s.regs.agCursor < s.regs.agCount → exec .agStep s =
      .next (s.settled (HostRegs.ready { s.regs with agCursor := 0 })
        (wrEvents s.cfg s.cfg.regRtp 0 ++ pauseEvents s.regs.agPause.toNat) xs ys false))

/-! ### Failures -/

/-- 60_exceptions.md R223: ARG is raised only by the checks of its table, and always with an empty trace. The checks are
written out here command by command; `s` is the state at acceptance. -/
def Obligations.ArgumentFailures : Prop :=
  ∀ (i : Instr) (s t : State), s.NoReset → exec i s = .next t →
    ((t.regs.status.errClass = some .arg ↔
      (∃ n, i = .busWrite n ∧ s.cfg.dbufLen.toNat < n.toNat) ∨
      (∃ reg n dv, i = .busRead reg n dv ∧ (dv = false ∨ (n ≠ 0 ∧ s.cfg.dbufLen.toNat < n.toNat))) ∨
      (∃ reg, i = .regRead reg false) ∨
      (∃ slot effect, i = .setWaveform slot effect ∧ 7 < slot.toNat) ∨
      (∃ slot dv, i = .getWaveform slot dv ∧ (dv = false ∨ 7 < slot.toNat)) ∨
      (i = .cdStart ∧ s.regs.cdState = .unconfigured) ∨
      (∃ amp, i = .playFreqAmp amp ∧ (s.regs.arg0 = 0 ∨ amp = 0)) ∨
      (i = .playFreqVoltage ∧
        (s.regs.arg1.toNat % 65536 = 0 ∨ s.regs.maxMv = 0 ∨ s.regs.arg0 = 0))) ∧
    (t.regs.status.errClass = some .arg → t.trace = s.trace))

/-- Only AUTOCAL raises TIMING, no command raises ILLEGAL, and the codec commands raise nothing (60_exceptions.md R221,
R224, R225; 43_codec.md R164 to R167). When BUS is raised (R222; 44_timed_routines.md R170), in every environment, read off
the events `es` of the command: by a command that only writes, exactly when a transaction failed, and then the recovery of
that transaction is the end of it; by a command that reads, exactly when its read failed, in a wait or, if
`CLEANUP_IDLE_AFFECTS_OUTCOME`, in its cleanup; by CD_CONFIGURE, whose read is absorbed, exactly when it ends in a recovery;
AUTOCAL is READY only when no transaction failed up to its last hard result read (or, with `rb = 0`, its DEV-STOP), all of
them having sent their bytes in the order of 44_timed_routines.md R174 to R177, and BUS only after a failed one. -/
def Obligations.FailureClasses : Prop :=
  (∀ (i : Instr) (s t : State), exec i s = .next t →
    (t.regs.status.errClass = some .timing → ∃ rb, i = .autocal rb) ∧
    t.regs.status.errClass ≠ some .illegal ∧
    ((i = .encRated ∨ i = .encClamp ∨ (∃ c, i = .decRated c) ∨ ∃ c, i = .decClamp c) →
      t.regs.status.errClass = none)) ∧
  ∀ (i : Instr) (s t : State), s.NoReset → exec i s = .next t → ∃ es, t.trace = s.trace ++ es ∧
    match i with
    | .busWrite _ | .regWrite _ _ | .setWaveform _ _ | .clearSequence | .setSustain _ _ | .defaultInit | .cdStart
    | .cdStop | .rtPrepare | .playFreqAmp _ | .playFreqVoltage | .agStep =>
      (t.regs.status.errClass = some .bus ↔ .clr ∈ es) ∧
      (t.regs.status.errClass = some .bus → ∃ fs, es = fs ++ [.stop, .clr] ∧ .clr ∉ fs)
    | .busRead _ _ _ | .regRead _ _ | .getWaveform _ _ =>
      t.regs.status.errClass = some .bus ↔ .clr ∈ es ∨
        (s.cfg.cleanupIdleAffectsOutcome = true ∧ ∃ fs x, es = fs ++ [.poll x] ∧ x.busy = true)
    | .cdConfigure _ _ _ _ => t.regs.status.errClass = some .bus ↔ ∃ fs, es = fs ++ [.stop, .clr]
    | .autocal rb =>
      (t.regs.status.errClass = none → ∃ n es₁ es₂, es = es₁ ++ es₂ ∧ .clr ∉ es₁ ∧
        sentBytes es₁ = (setupWrites s.cfg s.regs.req).flatMap (fun w => [w.1, w.2]) ++
          List.replicate n s.cfg.regGo ++ [s.cfg.regGo, 0] ++ (if rb then hardRegs s.cfg else []) ∧
        (rb = false → es₂ = []) ∧ es₂.count .clr ≤ 2) ∧
      (t.regs.status.errClass = some .bus → .clr ∈ es ∨ s.cfg.cleanupIdleAffectsOutcome = true)
    | .encRated | .decRated _ | .encClamp | .decClamp _ => es = []

/-! ### What a command leaves unchanged -/

/-- The frame of every command, whatever the environment answers and whatever the host does short of a reset: the host
registers other than `H_STATUS` that its rule does not name as written (`HostRegs.writtenBy`: the "Host registers
written" lines of 40_bus_engine.md R110 to 44_timed_routines.md R189) keep their values, and so do the parameters; the
trace is only extended; with a quiet host the record of host reads keeps its value too. -/
def Obligations.CommandsKeepRegisters : Prop :=
  ∀ (i : Instr) (s t : State), s.NoReset → exec i s = .next t →
    { t.regs with status := s.regs.status } = HostRegs.writtenBy s.regs t.regs i ∧ t.cfg = s.cfg ∧
    t.resets = s.resets ∧ (∃ es, t.trace = s.trace ++ es) ∧
    (s.host = [] → t.reads = s.reads ∧ t.host = [])

/-- The memory frame: BUS_READ of `n` bytes changes no byte outside `DBUF[0..n-1]`, and every other command changes no
byte at all (10_state.md R34, R35; 40_bus_engine.md R111). -/
def Obligations.CommandsKeepMemory : Prop :=
  ∀ (i : Instr) (s t : State), s.NoReset → exec i s = .next t →
    (∀ reg n dv, i = .busRead reg n dv → ∀ a, ¬ (0x100 ≤ a ∧ a < 0x100 + n.toNat) → t.memByte a = s.memByte a) ∧
    ((∀ reg n dv, i ≠ .busRead reg n dv) → ∀ a, t.memByte a = s.memByte a)

/-! ### Session state machines -/

/-- 10_state.md R43: `CD_STATE` over a command. -/
def Obligations.CdStateMachine : Prop :=
  ∀ (i : Instr) (s t : State), s.NoReset → exec i s = .next t →
    (∀ motor dt strength lib, i = .cdConfigure motor dt strength lib →
      t.regs.cdState = if t.regs.status.ready then .configuredIdle else .unconfigured) ∧
    (i = .cdStart → t.regs.cdState = (if t.regs.status.ready then CdState.running else s.regs.cdState) ∧
      (s.regs.cdState = .unconfigured → t.regs.status.errClass = some .arg)) ∧
    (i = .cdStop → t.regs.cdState =
      if t.regs.status.ready = true ∧ s.regs.cdState = .running then .configuredIdle else s.regs.cdState) ∧
    ((∀ motor dt strength lib, i ≠ .cdConfigure motor dt strength lib) → i ≠ .cdStart → i ≠ .cdStop →
      t.regs.cdState = s.regs.cdState)

/-- `CD_STRENGTH`: a READY CD_CONFIGURE latches the clamped strength, a NOT_READY one leaves it unchanged, and no other
command changes it (44_timed_routines.md R180, 10_state.md R27). -/
def Obligations.CdStrengthLatch : Prop :=
  ∀ (i : Instr) (s t : State), s.NoReset → exec i s = .next t →
    (∀ motor dt strength lib, i = .cdConfigure motor dt strength lib → t.regs.cdStrength =
      if t.regs.status.ready then BitVec.ofNat 7 (min strength.toNat 0x7F) else s.regs.cdStrength) ∧
    ((∀ motor dt strength lib, i ≠ .cdConfigure motor dt strength lib) → t.regs.cdStrength = s.regs.cdStrength)

/-- 10_state.md R44: `RT_READY` has one transition, 0 to 1, made exactly when PrepareRealtime completes all its steps;
once it is set, later prepare calls are no-ops. -/
def Obligations.RealtimeLatch : Prop :=
  (∀ (i : Instr) (s t : State), s.NoReset → exec i s = .next t →
    (s.regs.rtReady = true → t.regs.rtReady = true) ∧
    (i = .rtPrepare → (t.regs.rtReady = true ↔ s.regs.rtReady = true ∨ t.regs.status.ready = true)) ∧
    (s.regs.rtReady = false → t.regs.rtReady = true →
      i = .rtPrepare ∨ (∃ amp, i = .playFreqAmp amp) ∨ i = .playFreqVoltage)) ∧
  (∀ s t ok, s.regs.rtReady = false → prepareRealtime s.cfg s = .ok ok t → t.regs.rtReady = ok) ∧
  ∀ s, s.regs.rtReady = true → prepareRealtime s.cfg s = .ok true s

/-- 10_state.md R45: the cursor over AG_STEP, and over every other command. A READY AG_STEP plays frame `cursor` or the
zero frame: the data bytes it sends are the realtime register's address and the amplitude, and its only delay is the hold
or the pause, unless 0 (44_timed_routines.md R189). That `cursor <= count` always holds is `Obligations.InvariantKept`. -/
def Obligations.CursorMachine : Prop :=
  ∀ (i : Instr) (s t : State), s.NoReset → exec i s = .next t →
    (i = .agStep → t.regs.agCursor = (if t.regs.status.ready then
        (if s.regs.agCursor < s.regs.agCount then s.regs.agCursor + 1 else 0) else s.regs.agCursor) ∧
      (t.regs.status.ready = true → ∃ es, t.trace = s.trace ++ es ∧
        if s.regs.agCursor < s.regs.agCount then
          sentBytes es = [s.cfg.regRtp,
            BitVec.ofNat 8 (min ((s.frameWord s.regs.agCursor.toNat).toNat % 256) 0x7F)] ∧
          delays es = pauseEvents ((s.frameWord s.regs.agCursor.toNat).toNat / 256 % 65536)
        else sentBytes es = [s.cfg.regRtp, 0] ∧ delays es = pauseEvents s.regs.agPause.toNat)) ∧
    (i ≠ .agStep → t.regs.agCursor = s.regs.agCursor)

/-- The result registers of AUTOCAL: untouched with `rb = 0`; with `rb = 1` both 0 after a timeout when
`READ_RESULTS_ON_TIMEOUT = false`, both best-effort fields NOT_ATTEMPTED after any BUS failure, and both attempted after
READY, a FAILED one with its byte 0 (44_timed_routines.md R173, R176 to R179). -/
def Obligations.AutocalResults : Prop :=
  ∀ (rb : Bool) (s t : State), s.NoReset → exec (.autocal rb) s = .next t →
    (rb = false → t.regs.res = s.regs.res) ∧
    (rb = true →
      (t.regs.status.errClass = some .timing → s.cfg.readResultsOnTimeout = false → t.regs.res = AcalResult.zero) ∧
      (t.regs.status.errClass = some .bus →
        t.regs.res.vbatSt = .notAttempted ∧ t.regs.res.resonSt = .notAttempted ∧
        t.regs.res.vbat = 0 ∧ t.regs.res.reson = 0) ∧
      (t.regs.status.ready = true →
        (t.regs.res.vbatSt = .ok ∨ (t.regs.res.vbatSt = .failed ∧ t.regs.res.vbat = 0)) ∧
        (t.regs.res.resonSt = .ok ∨ (t.regs.res.resonSt = .failed ∧ t.regs.res.reson = 0))))

/-! ### Invariants -/

/-- The machine after reset meets the invariant, whatever the parameters (10_state.md R46). The canonical form of memory is
the model's choice (log entry 5). -/
def Obligations.InvariantAtReset : Prop := (∀ c, (State.init c).Inv) ∧ State.reset.Inv

/-- Every step keeps the invariant. From the spec: ERR_CLASS is 0 when READY = 1 (10_state.md R22) and
`H_AG_CURSOR <= H_AG_COUNT <= MAX_FRAMES` (R30, R45). The model's choice: that no command runs and nothing hidden is left
between two steps, because a whole command is one step of the model (log entry 1), and the canonical form of memory
(log entry 5). -/
def Obligations.InvariantKept : Prop := ∀ s t : State, s.Inv → step s = .next t → t.Inv

/-- No step changes the parameters (00_scope.md R10). -/
def Obligations.ParametersFixed : Prop := ∀ s t : State, step s = .next t → t.cfg = s.cfg

/-- Host writes made while a command runs change nothing of it but OVERRUN and DONE: from two states that differ only in
that the first has such writes scheduled, a command issues the same events and leaves the same memory, the same
registers, READY and ERR_CLASS (10_state.md R23, 20_memory.md R68 item 2). -/
def Obligations.HostWritesHarmless : Prop :=
  ∀ (i : Instr) (s t u : State), (∀ m ∈ s.host, m = .pass ∨ ∃ off v, m = .write off 4 v) →
    exec i s = .next t → exec i { s with host := [] } = .next u →
    t.trace = u.trace ∧ t.mem = u.mem ∧ { t.regs with status := u.regs.status } = u.regs ∧
    t.regs.status.ready = u.regs.status.ready ∧ t.regs.status.errClass = u.regs.status.errClass ∧
    t.samples = u.samples ∧ t.rxBytes = u.rxBytes

/-! ### The bus engine -/

/-- 40_bus_engine.md R100: the wait primitive with a budget of at least 1. After samples with the condition false and no
error flag, the next one ends the wait with OK if the condition holds, error flag or not; with FAIL if an error flag
shows or the budget is used up. -/
def Obligations.WaitRule : Prop :=
  ∀ (c : Cond) (s : State) (before : List Snapshot) (x : Snapshot) (rest : List Snapshot), s.host = [] →
    s.samples = before ++ x :: rest → (∀ y ∈ before, condHolds c y = false ∧ anyError y = false) →
    before.length < condBudget s.cfg c →
    (condHolds c x = true ∨ anyError x = true ∨ before.length + 1 = condBudget s.cfg c) →
    ∃ t, wait c s = .ok (condHolds c x) t ∧ t.samples = rest ∧ t.regs = s.regs ∧ t.mem = s.mem ∧
      t.trace = s.trace ++ (before ++ [x]).map .poll

/-- 40_bus_engine.md R109: how many flag clears a transaction has, and where they stand. The read is taken whole, and cut
before its Cleanup, which never clears the flags; it keeps its bytes for its caller (`noSink`) or stores each in DBUF
(`storeDbuf`, BUS_READ). -/
def Obligations.RecoveryOnce : Prop :=
  (∀ (p : List Byte) (s t : State) (ok : Bool), writeBytes p s = .ok ok t →
    ∃ es, t.trace = s.trace ++ es ∧ es.count .clr = (if ok then 0 else 1) ∧
      (ok = false → ∃ fs, es = fs ++ [.stop, .clr])) ∧
  (∀ (sink : Nat → Byte → Ctl Unit), sink = noSink ∨ sink = storeDbuf →
    ∀ (reg : Byte) (n : Nat) (s t : State) (q : Option (List Byte)),
    andThen (openRead reg) (fun ok => if ok then receiveBytes sink n n else ret none) s = .ok q t →
    ∃ es, t.trace = s.trace ++ es ∧ es.count .clr = (if q.isSome then 0 else 1)) ∧
  (∀ (sink : Nat → Byte → Ctl Unit), sink = noSink ∨ sink = storeDbuf →
    ∀ (reg : Byte) (n : Nat) (s t : State) (q : Option (List Byte)), readRegisters sink reg n s = .ok q t →
    ∃ es, t.trace = s.trace ++ es ∧ es.count .clr ≤ 1 ∧ (q.isSome = true → es.count .clr = 0) ∧
      (q = none → s.cfg.cleanupIdleAffectsOutcome = false → es.count .clr = 1)) ∧
  ∀ (s t : State) (q r : Option (List Byte)), cleanup q s = .ok r t →
    (∃ es, t.trace = s.trace ++ es ∧ es.count .clr = 0) ∧
    (r = q ∨ (r = none ∧ s.cfg.cleanupIdleAffectsOutcome = true))

/-- The acknowledge is enabled whenever a read returns, and so a command that began with it enabled ends with it enabled,
whatever its outcome (40_bus_engine.md R108, R114; 10_state.md R38). -/
def Obligations.AcknowledgeStaysEnabled : Prop :=
  (∀ (sink : Nat → Byte → Ctl Unit), sink = noSink ∨ sink = storeDbuf →
    ∀ (reg : Byte) (n : Nat) (s t : State) (q : Option (List Byte)),
    readRegisters sink reg n s = .ok q t → t.ackEnable = true) ∧
  ∀ (i : Instr) (s t : State), s.NoReset → s.ackEnable = true → exec i s = .next t → t.ackEnable = true

/-- The latched flags as the controller sees them: over a command that issues no flag clear, a flag once set stays set
(10_state.md R37; that the model tracks them is log entry 13). -/
def Obligations.LatchedFlagsStay : Prop :=
  ∀ (i : Instr) (s t : State) (es : List Event), s.NoReset → exec i s = .next t → t.trace = s.trace ++ es →
    .clr ∉ es →
    (s.latched.af = true → t.latched.af = true) ∧ (s.latched.berr = true → t.latched.berr = true) ∧
    (s.latched.arlo = true → t.latched.arlo = true)

/-- 70_reset_and_hazards.md R265: bounds on the number of events of each bus procedure, in any environment;
the minimum is the length of the traces of the completion statements; a failed idle wait after one sample gives three
events. A read keeps its bytes for its caller or stores each in DBUF. -/
def Obligations.EventBounds : Prop :=
  ∀ (s t : State) (wi we : Nat), wi = s.cfg.wIdle.toNat → we = s.cfg.wEvent.toNat → 1 ≤ wi → 1 ≤ we →
    (∀ (p : List Byte) (ok : Bool), p ≠ [] → writeBytes p s = .ok ok t →
      ∃ es, t.trace = s.trace ++ es ∧ (ok = true → 6 + 3 * p.length ≤ es.length) ∧
        es.length ≤ wi + 2 * we + 4 + p.length * (2 * we + 1)) ∧
    (∀ (reg v : Byte) (ok : Bool), writeRegister reg v s = .ok ok t →
      ∃ es, t.trace = s.trace ++ es ∧ (ok = true → 12 ≤ es.length) ∧ es.length ≤ wi + 6 * we + 6) ∧
    (∀ (sink : Nat → Byte → Ctl Unit), sink = noSink ∨ sink = storeDbuf →
      ∀ (reg : Byte) (n : Nat) (q : Option (List Byte)), 1 ≤ n → readRegisters sink reg n s = .ok q t →
      ∃ es, t.trace = s.trace ++ es ∧ (q.isSome = true → 16 + 2 * n ≤ es.length) ∧
        es.length ≤ 2 * wi + 6 * we + 9 + n * (we + 1)) ∧
    (∀ (reg : Byte) (v : Option Byte), readRegister reg s = .ok v t →
      ∃ es, t.trace = s.trace ++ es ∧ (v.isSome = true → 18 ≤ es.length) ∧
        es.length ≤ 2 * wi + 7 * we + 10) ∧
    (∀ (p q : List Byte) (reg v : Byte), p ≠ [] → q ≠ [] →
      (writeEvents s.cfg p).length = 6 + 3 * p.length ∧ (wrEvents s.cfg reg v).length = 12 ∧
      (readEvents s.cfg reg q).length = 16 + 2 * q.length ∧ (rdEvents s.cfg reg v).length = 18) ∧
    ∀ (p : List Byte) (x : Snapshot) (xs : List Snapshot), p ≠ [] → s.host = [] → s.samples = x :: xs → x.busy = true →
      anyError x = true → ∃ u, writeBytes p s = .ok false u ∧ u.trace = s.trace ++ [.poll x, .stop, .clr]

/-! ### Arithmetic -/

/-- 43_codec.md R160 to R163: the codec, with its corner cases and ranges. -/
def Obligations.CodecArithmetic : Prop :=
  (∀ mv : Half, (encRatedCode mv).toNat = min 255 ((mv.toNat * 1000 + 10665) / 21330) ∧
    (mv.toNat ≤ 10 → encRatedCode mv = 0) ∧ (mv.toNat = 11 → encRatedCode mv = 1) ∧
    (5429 ≤ mv.toNat → encRatedCode mv = 255) ∧
    (255 < (mv.toNat * 1000 + 10665) / 21330 ↔ 5450 ≤ mv.toNat)) ∧
  (∀ mv : Half, (encClampCode mv).toNat = min 255 ((mv.toNat * 1000 + 2800) / 5600) ∧
    (mv.toNat ≤ 2 → encClampCode mv = 0) ∧ (mv.toNat = 3 → encClampCode mv = 1) ∧
    (1426 ≤ mv.toNat → encClampCode mv = 255) ∧
    (255 < (mv.toNat * 1000 + 2800) / 5600 ↔ 1431 ≤ mv.toNat)) ∧
  ∀ code : Byte, (decRatedMv code).toNat = (code.toNat * 21330 + 500) / 1000 ∧ (decRatedMv code).toNat ≤ 5439 ∧
    (decClampMv code).toNat = (code.toNat * 5600 + 500) / 1000 ∧ (decClampMv code).toNat ≤ 1428

/-- 43_codec.md R168: decoding an encoded value in the unclamped range is off by at most 11 mV (rated) and 3 mV
(clamp). -/
def Obligations.CodecRoundTrip : Prop :=
  ∀ mv : Half,
    (mv.toNat ≤ 5449 → (decRatedMv (encRatedCode mv)).toNat ≤ mv.toNat + 11 ∧
      mv.toNat ≤ (decRatedMv (encRatedCode mv)).toNat + 11) ∧
    (mv.toNat ≤ 1430 → (decClampMv (encClampCode mv)).toNat ≤ mv.toNat + 3 ∧
      mv.toNat ≤ (decClampMv (encClampCode mv)).toNat + 3)

/-- 44_timed_routines.md R185: the tone arithmetic, its floors, and that nothing overflows. -/
def Obligations.ToneArithmetic : Prop :=
  ∀ f : Nat, 1 ≤ f → f < 2 ^ 32 →
    halfUs f = max 1 (1000000 / f) ∧ (1000000 < f → halfUs f = 1) ∧ 2 * halfUs f ≤ 2000000 ∧
    ∀ (bms : Half) (h : Nat), 1 ≤ h →
      toneCycles bms h = max 1 (bms.toNat * 1000 / (2 * h)) ∧ (bms = 0 → toneCycles bms h = 1) ∧
      bms.toNat * 1000 ≤ 65535000

/-- 44_timed_routines.md R187: the amplitude of a voltage, and that it is 1 to 127. -/
def Obligations.VoltageToAmplitude : Prop :=
  ∀ mv mx : Half, 1 ≤ mv.toNat → 1 ≤ mx.toNat →
    (voltToAmp mv mx).toNat = max 1 ((min mv.toNat mx.toNat * 127 + mx.toNat / 2) / mx.toNat) ∧
    1 ≤ (voltToAmp mv mx).toNat ∧ (voltToAmp mv mx).toNat ≤ 127

/-- 30_encoding.md R89: the expansion of every pseudo-command. -/
def Obligations.PseudoCommands : Prop :=
  ∀ (c : Params) (v : Byte) (dv : Bool) (n : ControlReg),
    (expandPseudo c (.getStatus dv) = .regRead c.regStatus dv ∧ expandPseudo c (.setMode v) = .regWrite c.regMode v ∧
      expandPseudo c (.setLibrary v) = .regWrite c.regLibrary v) ∧
    (expandPseudo c .go = .regWrite c.regGo c.goMask ∧ expandPseudo c .stop = .regWrite c.regGo 0x00 ∧
      expandPseudo c (.getGo dv) = .regRead c.regGo dv) ∧
    expandPseudo c (.setRtp v) = .regWrite c.regRtp (BitVec.ofNat 8 (min v.toNat 0x7F)) ∧
    (expandPseudo c (.setOverdrive v) = .regWrite c.regOdt v ∧ expandPseudo c (.setBrake v) = .regWrite c.regBrt v ∧
      expandPseudo c (.setAudioCtrl v) = .regWrite c.regAudioCtrl v ∧
      expandPseudo c (.setAudioMin v) = .regWrite c.regAudioMin v ∧
      expandPseudo c (.setAudioMax v) = .regWrite c.regAudioMax v) ∧
    (expandPseudo c (.setRated v) = .regWrite c.regRatedV v ∧ expandPseudo c (.getRated dv) = .regRead c.regRatedV dv ∧
      expandPseudo c (.setClamp v) = .regWrite c.regOdClamp v ∧
      expandPseudo c (.getClamp dv) = .regRead c.regOdClamp dv) ∧
    (expandPseudo c (.getAcalComp dv) = .regRead c.regAcalComp dv ∧
      expandPseudo c (.getAcalBemf dv) = .regRead c.regAcalBemf dv ∧
      expandPseudo c (.getBattery dv) = .regRead c.regVbat dv ∧
      expandPseudo c (.getResonance dv) = .regRead c.regLraPeriod dv) ∧
    (expandPseudo c .selectLra = .regWrite c.regFeedback c.fbLra ∧
      expandPseudo c .selectErm = .regWrite c.regFeedback c.fbErm) ∧
    expandPseudo c (.setControl n v) = .regWrite (match n with
      | .control1 => c.regControl1 | .control2 => c.regControl2 | .control3 => c.regControl3
      | .control4 => c.regControl4 | .control5 => c.regControl5) v ∧
    expandPseudo c (.getControl n dv) = .regRead (match n with
      | .control1 => c.regControl1 | .control2 => c.regControl2 | .control3 => c.regControl3
      | .control4 => c.regControl4 | .control5 => c.regControl5) dv
end

