-- ==== Sys2Proof/Laws/Ctl.lean ====
section
/-! SUPPORT. How controller pseudocode runs: what sequencing does to a state, said once, so that no proof unfolds the
monad. -/

namespace Sys2Proof.Machine

variable {α β : Type}

@[simp] theorem ret_run (a : α) (s : State) : (ret a : Ctl α) s = .ok a s := rfl

/-- Sequencing after a piece that answered. -/
theorem andThen_of_ok {m : Ctl α} {f : α → Ctl β} {s t : State} {a : α} (h : m s = .ok a t) :
    andThen m f s = f a t := by
  simp only [andThen, h]

/-- Sequencing after a piece that stopped. -/
theorem andThen_of_stop {m : Ctl α} {f : α → Ctl β} {s t : State} {w : Stop} (h : m s = .stop w t) :
    andThen m f s = .stop w t := by
  simp only [andThen, h]

/-- Sequencing after a piece that answered nothing of interest. -/
theorem before_of_ok {m : Ctl Unit} {n : Ctl α} {s t : State} (h : m s = .ok () t) : before m n s = n t :=
  andThen_of_ok h

theorem before_of_stop {m : Ctl Unit} {n : Ctl α} {s t : State} {w : Stop} (h : m s = .stop w t) :
    before m n s = .stop w t :=
  andThen_of_stop h

@[simp] theorem andThen_ret (a : α) (f : α → Ctl β) : andThen (ret a) f = f a := rfl

@[simp] theorem before_ret (n : Ctl α) : before (ret ()) n = n := rfl

@[simp] theorem fail_run (cls : FailClass) (s : State) : (fail cls : Ctl α) s = .stop (.fail cls) s := rfl

@[simp] theorem change_run (f : State → State) (s : State) : change f s = .ok () (f s) := rfl

@[simp] theorem draw_run (f : Nat → α) (s : State) :
    draw f s = .ok (f s.draws) { s with draws := s.draws + 1 } := rfl

@[simp] theorem writeAt_run (off : Nat) (f : State → State) (s : State) :
    writeAt off f s = .ok () (State.record off s (f s)) := rfl

@[simp] theorem require_true (cls : FailClass) : require true cls = ret () := rfl

@[simp] theorem require_false (cls : FailClass) : require false cls = fail cls := rfl

/-- `must` of a procedure that answered. -/
theorem must_of_ok {p : Ctl Bool} {s t : State} {b : Bool} (h : p s = .ok b t) :
    must p s = if b then .ok () t else .stop (.fail .bus) t := by
  unfold must
  rw [andThen_of_ok h]
  cases b <;> rfl

/-- With no host move due, a controller step begins at once. -/
theorem tick_quiet {s : State} (h : s.host = []) : tick s = .ok () s := by
  unfold tick
  rw [h]
  simp only [hostTurn, ← h]

/-- What the host's moves come to does not depend on the schedule they were taken from. -/
theorem hostTurn_host (q p : List HostMove) (s : State) : hostTurn q { s with host := p } = hostTurn q s := by
  induction q generalizing s with
  | nil => rfl
  | cons m q ih =>
    cases m with
    | pass => rfl
    | reset => rfl
    | read off n =>
      simp only [hostTurn]
      rw [← ih (s.busyLoad off.toNat)]
      congr 1
      simp only [State.busyLoad, State.writtenAt, State.hostLoad]
      split <;> rfl
    | write off n v =>
      simp only [hostTurn]
      rw [← ih (s.busyStore off.toNat v)]
      congr 1
      simp only [State.busyStore]
      split <;> rfl

/-- A host write that is due is performed, and the rest of the turn follows. -/
theorem tick_write {s : State} {off : BitVec 11} {n : Nat} {v : Word} {q : List HostMove}
    (h : s.host = .write off n v :: q) : tick s = tick { s.busyStore off.toNat v with host := q } := by
  refine Eq.trans ?_ (hostTurn_host q q _).symm
  unfold tick
  rw [h]
  rfl

/-- A host read that is due is performed, and the rest of the turn follows. -/
theorem tick_read {s : State} {off : BitVec 11} {n : Nat} {q : List HostMove} (h : s.host = .read off n :: q) :
    tick s = tick { s.busyLoad off.toNat with host := q } := by
  refine Eq.trans ?_ (hostTurn_host q q _).symm
  unfold tick
  rw [h]
  rfl

/-- A quiet completion step. -/
theorem completionStep_quiet {s : State} (h : s.host = []) (cls : Option FailClass) :
    completionStep cls s = s.complete cls := by
  unfold completionStep
  rw [tick_quiet h]

/-- A command whose pseudocode reaches its end, quietly. -/
theorem command_of_ok {body : Ctl Unit} {s t : State} (h : body s = .ok () t) (q : t.host = []) :
    command body s = .next (t.complete none) := by
  simp only [command, h, finish, completionStep_quiet q]

/-- A command that ends with `fail(CLASS)`, quietly. -/
theorem command_of_fail {body : Ctl Unit} {s t : State} {cls : FailClass} (h : body s = .stop (.fail cls) t)
    (q : t.host = []) : command body s = .next (t.complete (some cls)) := by
  simp only [command, h, finish, completionStep_quiet q]

theorem leavingOpen_of_ok {o body : Ctl Unit} {s t : State} (h : body s = .ok () t) :
    leavingOpen o body s = .ok () t := by
  simp only [leavingOpen, h]

theorem leavingOpen_of_fail {o body : Ctl Unit} {s t : State} {cls : FailClass}
    (h : body s = .stop (.fail cls) t) : leavingOpen o body s = before o (fail cls) t := by
  simp only [leavingOpen, h]

/-- Every command answers a next state. -/
theorem command_next (body : Ctl Unit) (s : State) : command body s = .next (finish (body s)) := rfl

end Sys2Proof.Machine
end

