-- ==== Sys2Proof/Laws/Decode.lean ====
section
/-! SUPPORT. The fields of a word put together from four bytes, and a word put together from its own fields. -/

namespace Sys2Proof

section pack
variable (b3 b2 b1 b0 : Byte)

/-- Byte `j` of a packed word. -/
theorem byteOf_pack (j : Nat) : byteOf (packBytes b3 b2 b1 b0) j =
    if j = 0 then b0 else if j = 1 then b1 else if j = 2 then b2 else if j = 3 then b3 else 0 := by
  rcases j with _ | _ | _ | _ | j
  all_goals
    apply BitVec.eq_of_getLsbD_eq
    intro i hi
    simp only [byteOf, packBytes, BitVec.getLsbD_extractLsb', BitVec.getLsbD_append, hi, decide_true, Bool.true_and]
    simp
    repeat' split
    all_goals first | omega | (congr 1; omega) | exact BitVec.getLsbD_of_ge _ _ (by omega)

@[simp] theorem opField_pack : opField (packBytes b3 b2 b1 b0) = b0 := byteOf_pack b3 b2 b1 b0 0
@[simp] theorem aField_pack : aField (packBytes b3 b2 b1 b0) = b1 := byteOf_pack b3 b2 b1 b0 1
@[simp] theorem bField_pack : bField (packBytes b3 b2 b1 b0) = b2 := byteOf_pack b3 b2 b1 b0 2
@[simp] theorem cField_pack : cField (packBytes b3 b2 b1 b0) = b3 := byteOf_pack b3 b2 b1 b0 3

end pack

/-- A word is its four bytes. -/
theorem pack_bytes (w : Word) : packBytes (byteOf w 3) (byteOf w 2) (byteOf w 1) (byteOf w 0) = w := by
  apply BitVec.eq_of_getLsbD_eq
  intro i hi
  simp only [byteOf, packBytes, BitVec.getLsbD_extractLsb', BitVec.getLsbD_append]
  by_cases h0 : i < 8
  · simp [h0]
  by_cases h1 : i < 16
  · have : i - 8 < 8 := by omega
    simp [h0, this]
    congr 1
    omega
  by_cases h2 : i < 24
  · have a : ¬ i - 8 < 8 := by omega
    have b : i - 8 - 8 < 8 := by omega
    simp [h0, a, b]
    congr 1
    omega
  · have a : ¬ i - 8 < 8 := by omega
    have b : ¬ i - 8 - 8 < 8 := by omega
    have c : i - 8 - 8 - 8 < 8 := by omega
    simp [h0, a, b, c]
    congr 1
    omega

/-- A word is its four fields. -/
theorem pack_fields (w : Word) : packBytes (cField w) (bField w) (aField w) (opField w) = w := pack_bytes w

@[simp] theorem flagOf_flagField (b : Bool) : flagOf (flagField b) = b := by cases b <;> rfl

@[simp] theorem flagField_reserved (b : Bool) : flagField b &&& 254#8 = 0#8 := by cases b <;> rfl

end Sys2Proof
end

