-- ==== Sys2Proof/Laws/Memory.lean ====
section
/-! SUPPORT. Memory: read after write, and that every memory operation keeps the canonical form. -/

namespace Sys2Proof.Machine

theorem lookup_insert (m : Memory) (a b : Nat) (v : Byte) :
    Memory.lookup (Memory.insert m a v) b = if a = b then some v else Memory.lookup m b := by
  induction m with
  | nil => simp only [Memory.insert, Memory.lookup]
  | cons c m ih =>
    obtain ⟨k, w⟩ := c
    simp only [Memory.insert]
    split
    · simp only [Memory.lookup]
    · split
      · subst_vars
        simp only [Memory.lookup]
        split <;> simp_all
      · simp only [Memory.lookup, ih]
        split <;> split <;> simp_all

theorem mem_insert {m : Memory} {a : Nat} {v : Byte} {c : Host.Cell} (h : c ∈ Memory.insert m a v) :
    c = (a, v) ∨ c ∈ m := by
  induction m with
  | nil => simpa [Memory.insert] using h
  | cons d m ih =>
    obtain ⟨k, w⟩ := d
    simp only [Memory.insert] at h
    split at h
    · simpa using h
    · split at h
      · rcases List.mem_cons.mp h with h | h
        · exact .inl h
        · exact .inr (List.mem_cons_of_mem _ h)
      · rcases List.mem_cons.mp h with h | h
        · exact .inr (h ▸ List.mem_cons_self)
        · rcases ih h with h | h
          · exact .inl h
          · exact .inr (List.mem_cons_of_mem _ h)

theorem rising_insert {m : Memory} {a : Nat} {v : Byte} (h : m.Pairwise fun x y => x.1 < y.1) :
    (Memory.insert m a v).Pairwise fun x y => x.1 < y.1 := by
  induction m with
  | nil => simp [Memory.insert]
  | cons d m ih =>
    obtain ⟨k, w⟩ := d
    rw [List.pairwise_cons] at h
    simp only [Memory.insert]
    split
    · rename_i hlt
      rw [List.pairwise_cons]
      refine ⟨fun c hc => ?_, List.pairwise_cons.mpr h⟩
      rcases List.mem_cons.mp hc with rfl | hc
      · exact hlt
      · exact Nat.lt_trans hlt (h.1 c hc)
    · split
      · subst_vars
        exact List.pairwise_cons.mpr ⟨h.1, h.2⟩
      · rename_i h1 h2
        refine List.pairwise_cons.mpr ⟨fun c hc => ?_, ih h.2⟩
        rcases mem_insert hc with rfl | hc
        · exact Nat.lt_of_le_of_ne (Nat.le_of_not_lt h1) (Ne.symm h2)
        · exact h.1 c hc

/-- Writing a buffer byte keeps the canonical form. -/
theorem insert_wf {m : Memory} {a : Nat} {v : Byte} (h : Memory.wf m) (ha : 0x100 ≤ a ∧ a < 0x800) :
    Memory.wf (Memory.insert m a v) := by
  refine ⟨rising_insert h.1, fun c hc => ?_⟩
  rcases mem_insert hc with rfl | hc
  · exact ha
  · exact h.2 c hc

theorem setMemByte_wf {s : State} (a : Nat) (v : Byte) (h : s.mem.wf) : (s.setMemByte a v).mem.wf := by
  unfold State.setMemByte
  split
  · exact insert_wf h ‹_›
  · exact h

theorem setDbufByte_wf {s : State} (i : Nat) (v : Byte) (h : s.mem.wf) : (s.setDbufByte i v).mem.wf := by
  unfold State.setDbufByte
  split
  · exact setMemByte_wf _ _ h
  · exact h

theorem setDbufWord_wf {s : State} (i : Nat) (v : Word) (h : s.mem.wf) : (s.setDbufWord i v).mem.wf :=
  setDbufByte_wf _ _ (setDbufByte_wf _ _ (setDbufByte_wf _ _ (setDbufByte_wf _ _ h)))

theorem setFrameWord_wf {s : State} (i : Nat) (v : Word) (h : s.mem.wf) : (s.setFrameWord i v).mem.wf := by
  unfold State.setFrameWord
  split
  · exact setMemByte_wf _ _ (setMemByte_wf _ _ (setMemByte_wf _ _ (setMemByte_wf _ _ h)))
  · exact h

/-- The memory after reset, with nothing listed, is canonical. -/
theorem init_wf (c : Params) : (State.init c).mem.wf := ⟨List.Pairwise.nil, fun _ h => absurd h List.not_mem_nil⟩

/-- Writing a buffer byte changes nothing but memory. -/
theorem setMemByte_eq (s : State) (a : Nat) (v : Byte) : s.setMemByte a v = { s with mem := (s.setMemByte a v).mem } := by
  unfold State.setMemByte
  split <;> rfl

/-- Reading back a byte of the buffers: the value written there, and every other byte as before. -/
theorem memByte_setMemByte (s : State) (a b : Nat) (v : Byte) (ha : 0x100 ≤ a ∧ a < 0x800) :
    (s.setMemByte a v).memByte b = if a = b then v else s.memByte b := by
  unfold State.setMemByte State.memByte
  rw [if_pos ha]
  simp only [lookup_insert]
  by_cases h : a = b
  · simp only [h, if_true]
  · simp only [h, if_false]

theorem setDbufByte_eq (s : State) (i : Nat) (v : Byte) :
    s.setDbufByte i v = { s with mem := (s.setDbufByte i v).mem } := by
  unfold State.setDbufByte
  split
  · exact setMemByte_eq _ _ _
  · rfl

/-- Storing `DBUF[i]` changes no other byte. -/
theorem memByte_setDbufByte_ne (s : State) (i b : Nat) (v : Byte) (h : b ≠ dbufBase + i) :
    (s.setDbufByte i v).memByte b = s.memByte b := by
  unfold State.setDbufByte State.setMemByte
  split
  · split
    · simp only [State.memByte, lookup_insert, if_neg (Ne.symm h)]
    · rfl
  · rfl

end Sys2Proof.Machine
end

