-- ==== Sys2Proof/Laws/State.lean ====
section
/-! SUPPORT. One lemma per field for each named update of the state, true by computation. -/

namespace Sys2Proof.Machine

section emit
variable (s : State) (e : Event)
@[simp] theorem emit_cfg : (s.emit e).cfg = s.cfg := rfl
@[simp] theorem emit_regs : (s.emit e).regs = s.regs := rfl
@[simp] theorem emit_mem : (s.emit e).mem = s.mem := rfl
@[simp] theorem emit_written : (s.emit e).written = s.written := rfl
@[simp] theorem emit_ackEnable : (s.emit e).ackEnable = s.ackEnable := rfl
@[simp] theorem emit_latched : (s.emit e).latched = s.latched := rfl
@[simp] theorem emit_trace : (s.emit e).trace = s.trace ++ [e] := rfl
@[simp] theorem emit_host : (s.emit e).host = s.host := rfl
@[simp] theorem emit_reads : (s.emit e).reads = s.reads := rfl
@[simp] theorem emit_samples : (s.emit e).samples = s.samples := rfl
@[simp] theorem emit_rxBytes : (s.emit e).rxBytes = s.rxBytes := rfl
@[simp] theorem emit_draws : (s.emit e).draws = s.draws := rfl
@[simp] theorem emit_resets : (s.emit e).resets = s.resets := rfl
end emit

section complete
variable (s : State) (cls : Option FailClass)
@[simp] theorem complete_cfg : (s.complete cls).cfg = s.cfg := rfl
@[simp] theorem complete_regs :
    (s.complete cls).regs = { s.regs with status := s.regs.status.complete cls } := rfl
@[simp] theorem complete_mem : (s.complete cls).mem = s.mem := rfl
@[simp] theorem complete_written : (s.complete cls).written = [] := rfl
@[simp] theorem complete_ackEnable : (s.complete cls).ackEnable = s.ackEnable := rfl
@[simp] theorem complete_latched : (s.complete cls).latched = s.latched := rfl
@[simp] theorem complete_trace : (s.complete cls).trace = s.trace := rfl
@[simp] theorem complete_host : (s.complete cls).host = s.host := rfl
@[simp] theorem complete_reads : (s.complete cls).reads = s.reads := rfl
@[simp] theorem complete_samples : (s.complete cls).samples = s.samples := rfl
@[simp] theorem complete_rxBytes : (s.complete cls).rxBytes = s.rxBytes := rfl
@[simp] theorem complete_draws : (s.complete cls).draws = s.draws := rfl
@[simp] theorem complete_resets : (s.complete cls).resets = s.resets := rfl
end complete

section record
variable (off : Nat) (s t : State)
@[simp] theorem record_cfg : (State.record off s t).cfg = t.cfg := rfl
@[simp] theorem record_regs : (State.record off s t).regs = t.regs := rfl
@[simp] theorem record_mem : (State.record off s t).mem = t.mem := rfl
@[simp] theorem record_ackEnable : (State.record off s t).ackEnable = t.ackEnable := rfl
@[simp] theorem record_latched : (State.record off s t).latched = t.latched := rfl
@[simp] theorem record_trace : (State.record off s t).trace = t.trace := rfl
@[simp] theorem record_host : (State.record off s t).host = t.host := rfl
@[simp] theorem record_reads : (State.record off s t).reads = t.reads := rfl
@[simp] theorem record_samples : (State.record off s t).samples = t.samples := rfl
@[simp] theorem record_rxBytes : (State.record off s t).rxBytes = t.rxBytes := rfl
@[simp] theorem record_draws : (State.record off s t).draws = t.draws := rfl
@[simp] theorem record_resets : (State.record off s t).resets = t.resets := rfl
end record

section applyReset
variable (s : State)
@[simp] theorem applyReset_cfg : s.applyReset.cfg = s.cfg := rfl
@[simp] theorem applyReset_regs : s.applyReset.regs = HostRegs.reset s.cfg := rfl
@[simp] theorem applyReset_mem : s.applyReset.mem = [] := rfl
@[simp] theorem applyReset_written : s.applyReset.written = [] := rfl
@[simp] theorem applyReset_ackEnable : s.applyReset.ackEnable = s.ackEnable := rfl
@[simp] theorem applyReset_latched : s.applyReset.latched = s.latched := rfl
@[simp] theorem applyReset_trace : s.applyReset.trace = s.trace := rfl
@[simp] theorem applyReset_host : s.applyReset.host = s.host := rfl
@[simp] theorem applyReset_reads : s.applyReset.reads = s.reads := rfl
@[simp] theorem applyReset_samples : s.applyReset.samples = s.samples := rfl
@[simp] theorem applyReset_rxBytes : s.applyReset.rxBytes = s.rxBytes := rfl
@[simp] theorem applyReset_draws : s.applyReset.draws = s.draws := rfl
@[simp] theorem applyReset_resets : s.applyReset.resets = s.resets + 1 := rfl
end applyReset

section accept
variable (s : State) (w : Word)
@[simp] theorem accept_cfg : (s.accept w).cfg = s.cfg := rfl
@[simp] theorem accept_regs :
    (s.accept w).regs = { s.regs with cmd := w, status := s.regs.status.accept } := rfl
@[simp] theorem accept_mem : (s.accept w).mem = s.mem := rfl
@[simp] theorem accept_written : (s.accept w).written = [] := rfl
@[simp] theorem accept_trace : (s.accept w).trace = [] := rfl
@[simp] theorem accept_host : (s.accept w).host = s.host := rfl
@[simp] theorem accept_samples : (s.accept w).samples = s.samples := rfl
@[simp] theorem accept_rxBytes : (s.accept w).rxBytes = s.rxBytes := rfl
end accept

@[simp] theorem init_cfg (c : Params) : (State.init c).cfg = c := rfl
@[simp] theorem init_regs (c : Params) : (State.init c).regs = HostRegs.reset c := rfl
@[simp] theorem init_mem (c : Params) : (State.init c).mem = [] := rfl
@[simp] theorem init_host (c : Params) : (State.init c).host = [] := rfl
@[simp] theorem init_trace (c : Params) : (State.init c).trace = [] := rfl

/-- READY completion of a status. -/
@[simp] theorem status_complete_none (st : Status) : st.complete none = readyStatus st := rfl

/-- NOT_READY completion of a status. -/
@[simp] theorem status_complete_some (st : Status) (cls : FailClass) :
    st.complete (some cls) = failedStatus st cls := rfl

section settled
variable (s : State) (r : HostRegs) (es : List Event) (xs : List Snapshot) (ys : List Byte) (b : Bool)
@[simp] theorem settled_cfg : (s.settled r es xs ys b).cfg = s.cfg := rfl
@[simp] theorem settled_regs : (s.settled r es xs ys b).regs = r := rfl
@[simp] theorem settled_mem : (s.settled r es xs ys b).mem = s.mem := rfl
@[simp] theorem settled_trace : (s.settled r es xs ys b).trace = s.trace ++ es := rfl
@[simp] theorem settled_samples : (s.settled r es xs ys b).samples = xs := rfl
@[simp] theorem settled_rxBytes : (s.settled r es xs ys b).rxBytes = ys := rfl
@[simp] theorem settled_host : (s.settled r es xs ys b).host = s.host := rfl
@[simp] theorem settled_written : (s.settled r es xs ys b).written = [] := rfl
end settled

end Sys2Proof.Machine
end

