-- ==== Sys2Proof/Laws/Frame.lean ====
section
/-! SUPPORT. What a piece of controller pseudocode can do, said once for every primitive and procedure: what it leaves
unchanged (`Frame`), with which class it may fail, and that it ends by a reset only when the host schedules one. -/

namespace Sys2Proof.Machine

/-- What stays the same from `s` to `t`, for a view `keep` of the host registers and all memory bytes but the first
`bytes` of DBUF: parameters, that view, the other bytes; the trace only grows, the host's schedule is only used up, and
with no host move scheduled the status and the host's record of reads do not change either. -/
structure Frame {κ : Type} (keep : HostRegs → κ) (bytes : Nat) (s t : State) : Prop where
  cfg : t.cfg = s.cfg
  regs : keep t.regs = keep s.regs
  mem : ∀ a, ¬(dbufBase ≤ a ∧ a < dbufBase + bytes) → t.mem.lookup a = s.mem.lookup a
  memWf : s.mem.wf → t.mem.wf
  resets : t.resets = s.resets
  trace : ∃ es, t.trace = s.trace ++ es
  host : ∀ m ∈ t.host, m ∈ s.host
  outcome : t.regs.status.busy = s.regs.status.busy ∧ t.regs.status.ready = s.regs.status.ready ∧
    t.regs.status.errClass = s.regs.status.errClass
  quiet : s.host = [] → t.regs.status = s.regs.status ∧ t.reads = s.reads ∧ t.host = []

variable {α β κ : Type} {keep : HostRegs → κ} {bytes : Nat}

theorem Frame.refl (s : State) : Frame keep bytes s s :=
  ⟨rfl, rfl, fun _ _ => rfl, id, rfl, ⟨[], by simp⟩, fun _ h => h, ⟨rfl, rfl, rfl⟩, fun h => ⟨rfl, rfl, h⟩⟩

theorem Frame.trans {s t u : State} (h : Frame keep bytes s t) (k : Frame keep bytes t u) :
    Frame keep bytes s u where
  cfg := k.cfg.trans h.cfg
  regs := k.regs.trans h.regs
  mem a ha := (k.mem a ha).trans (h.mem a ha)
  memWf w := k.memWf (h.memWf w)
  resets := k.resets.trans h.resets
  trace := by
    obtain ⟨es, he⟩ := h.trace
    obtain ⟨fs, hf⟩ := k.trace
    exact ⟨es ++ fs, by rw [hf, he, List.append_assoc]⟩
  host m hm := h.host m (k.host m hm)
  outcome := ⟨k.outcome.1.trans h.outcome.1, k.outcome.2.1.trans h.outcome.2.1,
    k.outcome.2.2.trans h.outcome.2.2⟩
  quiet q := by
    obtain ⟨a, b, c⟩ := h.quiet q
    obtain ⟨d, e, f⟩ := k.quiet c
    exact ⟨d.trans a, e.trans b, f⟩

/-- A piece of pseudocode that stays within `Frame keep bytes`, fails only with the classes `F` allows, and is ended by
a reset only if the host schedules one, the state then being the reset of a state within the frame. -/
def Within (F : FailClass → Prop) (keep : HostRegs → κ) (bytes : Nat) (m : Ctl α) : Prop :=
  ∀ s, match m s with
    | .ok _ t => Frame keep bytes s t
    | .stop (.fail c) t => F c ∧ Frame keep bytes s t
    | .stop .reset t => HostMove.reset ∈ s.host ∧ ∃ u, Frame keep bytes s u ∧ t = u.applyReset

/-- No class. -/
def noClass : FailClass → Prop := fun _ => False

/-- Only BUS. -/
def busOnly : FailClass → Prop := fun c => c = .bus

variable {F G : FailClass → Prop}

theorem within_ret (a : α) : Within F keep bytes (ret a : Ctl α) := fun s => Frame.refl s

theorem within_fail {cls : FailClass} (h : F cls) : Within F keep bytes (fail cls : Ctl α) :=
  fun s => ⟨h, Frame.refl s⟩

theorem within_andThen {m : Ctl α} {f : α → Ctl β} (hm : Within F keep bytes m)
    (hf : ∀ a, Within F keep bytes (f a)) : Within F keep bytes (andThen m f) := by
  intro s
  have h := hm s
  cases e : m s with
  | ok a t =>
    rw [andThen_of_ok e]
    simp only [e] at h
    have k := hf a t
    cases e' : f a t with
    | ok b u =>
      simp only [e'] at k
      exact h.trans k
    | stop w u =>
      cases w with
      | fail c =>
        simp only [e'] at k
        exact ⟨k.1, h.trans k.2⟩
      | reset =>
        simp only [e'] at k
        obtain ⟨hr, v, hv, rfl⟩ := k
        exact ⟨h.host _ hr, v, h.trans hv, rfl⟩
  | stop w t =>
    rw [andThen_of_stop e]
    cases w <;> simpa only [e] using h

theorem within_before {m : Ctl Unit} {n : Ctl α} (hm : Within F keep bytes m) (hn : Within F keep bytes n) :
    Within F keep bytes (before m n) :=
  within_andThen hm fun _ => hn

theorem within_ite {c : Prop} [Decidable c] {m n : Ctl α} (hm : Within F keep bytes m)
    (hn : Within F keep bytes n) : Within F keep bytes (if c then m else n) := by
  split
  · exact hm
  · exact hn

theorem within_mono {m : Ctl α} (h : ∀ c, F c → G c) (hm : Within F keep bytes m) : Within G keep bytes m := by
  intro s
  have k := hm s
  cases e : m s with
  | ok a t => simpa only [e] using k
  | stop w t =>
    cases w with
    | fail c =>
      simp only [e] at k
      exact ⟨h c k.1, k.2⟩
    | reset => simpa only [e] using k

/-- Pseudocode chosen by looking at the state. -/
theorem within_of_state {f : State → Ctl α} (h : ∀ s, Within F keep bytes (f s)) :
    Within F keep bytes (fun s => f s s) := fun s => h s s

/-- A change of the state that the frame allows. -/
theorem within_step {f : State → State} {g : State → α} (h : ∀ s, Frame keep bytes s (f s)) :
    Within F keep bytes (fun s => .ok (g s) (f s) : Ctl α) := fun s => h s

/-! ### The host's moves during a command -/

/-- The view does not look at `H_STATUS`. -/
def IgnoresStatus (keep : HostRegs → κ) : Prop := ∀ (r : HostRegs) (st : Status), keep { r with status := st } = keep r

/-- What a host access during a command can change: its record of reads, the draw counter, DONE and OVERRUN. -/
theorem busyLoad_fields (s : State) (off : Nat) :
    ∃ l d, s.busyLoad off = { s with reads := l, draws := d } := by
  unfold State.busyLoad
  split
  · exact ⟨_, s.draws, rfl⟩
  · exact ⟨_, _, rfl⟩

theorem busyStore_fields (s : State) (off : Nat) (v : Word) :
    ∃ d o, s.busyStore off v =
      { s with regs := { s.regs with status := { s.regs.status with done := d, overrun := o } } } := by
  unfold State.busyStore
  split
  · exact ⟨_, _, rfl⟩
  · exact ⟨s.regs.status.done, true, rfl⟩

/-- The part of a frame that host moves keep, with the host's schedule left out. -/
theorem hostTurn_frame (q : List HostMove) (s : State) :
    match hostTurn q s with
    | .ok _ t => (∃ l d st p, t = { s with reads := l, draws := d, host := p, regs := { s.regs with status := st } } ∧
        (∀ m ∈ p, m ∈ q) ∧ st.busy = s.regs.status.busy ∧ st.ready = s.regs.status.ready ∧
        st.errClass = s.regs.status.errClass)
    | .stop (.fail _) _ => False
    | .stop .reset t => HostMove.reset ∈ q ∧
        ∃ l d st p, t = ({ s with
          reads := l, draws := d, host := p, regs := { s.regs with status := st } } : State).applyReset ∧
        (∀ m ∈ p, m ∈ q) ∧ st.busy = s.regs.status.busy ∧ st.ready = s.regs.status.ready ∧
        st.errClass = s.regs.status.errClass := by
  induction q generalizing s with
  | nil => exact ⟨s.reads, s.draws, s.regs.status, [], rfl, fun _ h => h, rfl, rfl, rfl⟩
  | cons m q ih =>
    cases m with
    | pass =>
      exact ⟨s.reads, s.draws, s.regs.status, q, rfl, fun _ h => List.mem_cons_of_mem _ h, rfl, rfl, rfl⟩
    | reset =>
      exact ⟨List.mem_cons_self, s.reads, s.draws, s.regs.status, q, rfl,
        fun _ h => List.mem_cons_of_mem _ h, rfl, rfl, rfl⟩
    | read off n =>
      simp only [hostTurn]
      obtain ⟨l, d, hl⟩ := busyLoad_fields s off.toNat
      have := ih (s.busyLoad off.toNat)
      rw [hl] at this ⊢
      revert this
      cases hostTurn q _ with
      | ok _ t =>
        rintro ⟨l', d', st, p, rfl, hp, hb⟩
        exact ⟨l', d', st, p, rfl, fun m h => List.mem_cons_of_mem _ (hp m h), hb⟩
      | stop w t =>
        cases w with
        | fail c => exact id
        | reset =>
          rintro ⟨hr, l', d', st, p, rfl, hp, hb⟩
          exact ⟨List.mem_cons_of_mem _ hr, l', d', st, p, rfl, fun m h => List.mem_cons_of_mem _ (hp m h), hb⟩
    | write off n v =>
      simp only [hostTurn]
      obtain ⟨d, o, hl⟩ := busyStore_fields s off.toNat v
      have := ih (s.busyStore off.toNat v)
      rw [hl] at this ⊢
      revert this
      cases hostTurn q _ with
      | ok _ t =>
        rintro ⟨l', d', st, p, rfl, hp, hb⟩
        exact ⟨l', d', st, p, rfl, fun m h => List.mem_cons_of_mem _ (hp m h), hb⟩
      | stop w t =>
        cases w with
        | fail c => exact id
        | reset =>
          rintro ⟨hr, l', d', st, p, rfl, hp, hb⟩
          exact ⟨List.mem_cons_of_mem _ hr, l', d', st, p, rfl, fun m h => List.mem_cons_of_mem _ (hp m h), hb⟩

theorem frame_of_hostMoves (hk : IgnoresStatus keep) (s : State) {l : List (Nat × Word)} {d : Nat} {st : Status}
    {p : List HostMove} (hp : ∀ m ∈ p, m ∈ s.host)
    (hb : st.busy = s.regs.status.busy ∧ st.ready = s.regs.status.ready ∧ st.errClass = s.regs.status.errClass)
    (hq : s.host = [] → st = s.regs.status ∧ l = s.reads) :
    Frame keep bytes s { s with reads := l, draws := d, host := p, regs := { s.regs with status := st } } where
  cfg := rfl
  regs := hk _ _
  mem _ _ := rfl
  memWf := id
  resets := rfl
  trace := ⟨[], by simp⟩
  host := hp
  outcome := hb
  quiet q := by
    obtain ⟨a, b⟩ := hq q
    refine ⟨a, b, ?_⟩
    rw [q] at hp
    exact List.eq_nil_iff_forall_not_mem.mpr fun m h => List.not_mem_nil (hp m h)

theorem within_tick (hk : IgnoresStatus keep) : Within F keep bytes tick := by
  intro s
  by_cases q : s.host = []
  · rw [tick_quiet q]
    exact Frame.refl s
  · have h := hostTurn_frame s.host s
    unfold tick
    revert h
    cases hostTurn s.host s with
    | ok _ t =>
      rintro ⟨l, d, st, p, rfl, hp, hb⟩
      exact frame_of_hostMoves hk s hp hb fun e => absurd e q
    | stop w t =>
      cases w with
      | fail c => exact False.elim
      | reset =>
        rintro ⟨hr, l, d, st, p, rfl, hp, hb⟩
        exact ⟨hr, _, frame_of_hostMoves hk s hp hb fun e => absurd e q, rfl⟩

/-! ### Primitives -/

/-- A change of fields no frame speaks about, with at most one more event. -/
theorem frame_of_peripheral (s : State) (es : List Event) (ack : Bool) (fl : ErrorFlags) (xs : List Snapshot)
    (ys : List Byte) (d : Nat) (w : List (Nat × Word)) :
    Frame keep bytes s { s with
      trace := s.trace ++ es, ackEnable := ack, latched := fl, samples := xs, rxBytes := ys, draws := d,
      written := w } :=
  ⟨rfl, rfl, fun _ _ => rfl, id, rfl, ⟨es, rfl⟩, fun _ h => h, ⟨rfl, rfl, rfl⟩, fun h => ⟨rfl, rfl, h⟩⟩

theorem within_perform (hk : IgnoresStatus keep) (e : State → Event) {f : State → State}
    (hf : ∀ s, ∃ a l, f s = { s with ackEnable := a, latched := l }) : Within F keep bytes (perform e f) := by
  refine within_andThen (within_tick hk) fun _ s => ?_
  obtain ⟨a, l, h⟩ := hf (s.emit (e s))
  simp only [change_run, h]
  exact frame_of_peripheral s [e s] a l s.samples s.rxBytes s.draws s.written

theorem within_perform_id (hk : IgnoresStatus keep) (e : State → Event) : Within F keep bytes (perform e id) :=
  within_perform hk e fun s => ⟨s.ackEnable, s.latched, rfl⟩

theorem takeSample_fields (s : State) :
    ∃ x xs d, s.takeSample = (x, { s with samples := xs, draws := d }) := by
  unfold State.takeSample
  split
  · exact ⟨_, _, s.draws, rfl⟩
  · exact ⟨_, s.samples, _, rfl⟩

theorem takeByte_fields (s : State) :
    ∃ b ys d, s.takeByte = (b, { s with rxBytes := ys, draws := d }) := by
  unfold State.takeByte
  split
  · exact ⟨_, _, s.draws, rfl⟩
  · exact ⟨_, s.rxBytes, _, rfl⟩

theorem within_sample (hk : IgnoresStatus keep) : Within F keep bytes sample := by
  refine within_andThen (within_tick hk) fun _ s => ?_
  obtain ⟨x, xs, d, h⟩ := takeSample_fields s
  simp only [h]
  exact frame_of_peripheral s [.poll x] s.ackEnable (s.latched.observe x) xs s.rxBytes d s.written

theorem within_readData (hk : IgnoresStatus keep) : Within F keep bytes readData := by
  refine within_andThen (within_tick hk) fun _ s => ?_
  obtain ⟨b, ys, d, h⟩ := takeByte_fields s
  simp only [h]
  exact frame_of_peripheral s [.rx b] s.ackEnable s.latched s.samples ys d s.written

theorem within_delayMs (hk : IgnoresStatus keep) (n : Nat) : Within F keep bytes (delayMs n) :=
  within_perform_id hk _

theorem within_delayUs (hk : IgnoresStatus keep) (n : Nat) : Within F keep bytes (delayUs n) :=
  within_perform_id hk _

theorem within_delayMsUnlessZero (hk : IgnoresStatus keep) (n : Nat) :
    Within F keep bytes (delayMsUnlessZero n) :=
  within_ite (within_ret _) (within_delayMs hk n)

theorem within_setAck (hk : IgnoresStatus keep) (on : Bool) : Within F keep bytes (setAck on) :=
  within_perform hk _ fun s => ⟨on, s.latched, rfl⟩

theorem within_clearErr (hk : IgnoresStatus keep) : Within F keep bytes clearErr :=
  within_perform hk _ fun s => ⟨s.ackEnable, ErrorFlags.clear, rfl⟩

theorem within_require {cls : FailClass} (ok : Bool) (h : F cls) : Within F keep bytes (require ok cls) :=
  within_ite (within_ret _) (within_fail h)

theorem within_must {p : Ctl Bool} (hF : F .bus) (hp : Within F keep bytes p) : Within F keep bytes (must p) :=
  within_andThen hp fun _ => within_ite (within_ret _) (within_fail hF)

/-- A register write by the command that the frame allows. -/
theorem within_writeAt (off : Nat) {f : State → State} (h : ∀ s, Frame keep bytes s (f s)) :
    Within F keep bytes (writeAt off f) := by
  intro s
  simp only [writeAt_run, State.record]
  exact (h s).trans (frame_of_peripheral (f s) [] (f s).ackEnable (f s).latched (f s).samples (f s).rxBytes
    (f s).draws _ |> fun k => by simpa using k)

theorem within_draw (f : Nat → α) : Within F keep bytes (draw f) := by
  intro s
  have := frame_of_peripheral (keep := keep) (bytes := bytes) s [] s.ackEnable s.latched s.samples s.rxBytes
    (s.draws + 1) s.written
  simpa using this

/-- A write of host registers that the view does not look at, `H_STATUS` left alone. -/
theorem frame_of_regs {s : State} {r : HostRegs} (hk : keep r = keep s.regs) (hs : r.status = s.regs.status) :
    Frame keep bytes s { s with regs := r } :=
  ⟨rfl, hk, fun _ _ => rfl, id, rfl, ⟨[], by simp⟩, fun _ h => h, by rw [hs]; exact ⟨rfl, rfl, rfl⟩,
    fun h => ⟨hs, rfl, h⟩⟩

theorem within_ifOk {p q : Ctl Bool} (hp : Within F keep bytes p) (hq : Within F keep bytes q) :
    Within F keep bytes (ifOk p q) :=
  within_andThen hp fun _ => within_ite hq (within_ret _)

/-! ### The bus engine -/

theorem within_genStart (hk : IgnoresStatus keep) : Within F keep bytes genStart := within_perform_id hk _

theorem within_genStop (hk : IgnoresStatus keep) : Within F keep bytes genStop := within_perform_id hk _

theorem within_waitLoop (hk : IgnoresStatus keep) (c : Cond) (k : Nat) : Within F keep bytes (waitLoop c k) := by
  induction k with
  | zero => exact within_andThen (within_sample hk) fun _ => within_ret _
  | succ k ih =>
    exact within_andThen (within_sample hk) fun _ => within_ite (within_ret _) (within_ite (within_ret _) ih)

theorem within_wait (hk : IgnoresStatus keep) (c : Cond) : Within F keep bytes (wait c) :=
  within_of_state (f := fun s => waitLoop c (condBudget s.cfg c - 1)) fun _ => within_waitLoop hk c _

theorem within_recover (hk : IgnoresStatus keep) : Within F keep bytes recover :=
  within_before (within_genStop hk) (within_clearErr hk)

theorem within_waitOrRecover (hk : IgnoresStatus keep) (c : Cond) : Within F keep bytes (waitOrRecover c) :=
  within_andThen (within_wait hk c) fun _ =>
    within_ite (within_ret _) (within_before (within_recover hk) (within_ret _))

theorem within_startBus (hk : IgnoresStatus keep) (d : Dir) : Within F keep bytes (startBus d) :=
  within_ifOk (within_waitOrRecover hk _) <| within_before (within_genStart hk) <|
    within_ifOk (within_waitOrRecover hk _) <| within_before (within_perform_id hk _) <| within_waitOrRecover hk _

theorem within_restartBus (hk : IgnoresStatus keep) : Within F keep bytes restartBus :=
  within_before (within_genStart hk) <| within_ifOk (within_waitOrRecover hk _) <|
    within_before (within_perform_id hk _) <| within_waitOrRecover hk _

theorem within_sendByte (hk : IgnoresStatus keep) (b : Byte) : Within F keep bytes (sendByte b) :=
  within_ifOk (within_waitOrRecover hk _) <| within_before (within_perform_id hk _) <| within_waitOrRecover hk _

theorem within_sendBytes (hk : IgnoresStatus keep) (p : List Byte) : Within F keep bytes (sendBytes p) := by
  induction p with
  | nil => exact within_ret _
  | cons b p ih => exact within_ifOk (within_sendByte hk b) ih

theorem within_writeBytes (hk : IgnoresStatus keep) (p : List Byte) : Within F keep bytes (writeBytes p) := by
  cases p with
  | nil => exact within_ret _
  | cons b p =>
    exact within_ifOk (within_startBus hk _) <| within_ifOk (within_sendBytes hk _) <|
      within_before (within_genStop hk) (within_ret _)

theorem within_receiveBytes (hk : IgnoresStatus keep) {sink : Nat → Byte → Ctl Unit} {n : Nat}
    (hs : ∀ i b, i < n → Within F keep bytes (sink i b)) (k : Nat) (hkn : k ≤ n) :
    Within F keep bytes (receiveBytes sink n k) := by
  induction k with
  | zero => exact within_ret _
  | succ k ih =>
    refine within_before (within_ite (within_before (within_setAck hk _) (within_genStop hk)) (within_ret _)) <|
      within_andThen (within_waitOrRecover hk _) fun _ => within_ite ?_ (within_ret _)
    exact within_andThen (within_readData hk) fun b => within_before (hs _ b (by omega)) <|
      within_andThen (ih (by omega)) fun _ => within_ret _

theorem within_cleanup (hk : IgnoresStatus keep) (st : Option (List Byte)) : Within F keep bytes (cleanup st) :=
  within_before (within_setAck hk _) <| within_andThen (within_wait hk _) fun _ s => Frame.refl s

theorem within_openRead (hk : IgnoresStatus keep) (reg : Byte) : Within F keep bytes (openRead reg) :=
  within_ifOk (within_startBus hk _) <| within_ifOk (within_sendByte hk _) (within_restartBus hk)

theorem within_readRegisters (hk : IgnoresStatus keep) {sink : Nat → Byte → Ctl Unit} {n : Nat}
    (hs : ∀ i b, i < n → Within F keep bytes (sink i b)) (reg : Byte) :
    Within F keep bytes (readRegisters sink reg n) :=
  within_andThen
    (within_andThen (within_openRead hk reg) fun _ =>
      within_ite (within_receiveBytes hk hs n (Nat.le_refl n)) (within_ret _))
    fun _ => within_cleanup hk _

theorem within_mustGet {p : Ctl (Option α)} (hF : F .bus) (hp : Within F keep bytes p) :
    Within F keep bytes (mustGet p) := by
  refine within_andThen hp fun r => ?_
  cases r
  · exact within_fail hF
  · exact within_ret _

theorem within_writeRegister (hk : IgnoresStatus keep) (r v : Byte) : Within F keep bytes (writeRegister r v) :=
  within_writeBytes hk _

theorem within_readRegister (hk : IgnoresStatus keep) (r : Byte) : Within F keep bytes (readRegister r) :=
  within_andThen (within_readRegisters hk (fun _ _ _ => within_ret _) r) fun _ => within_ret _

/-- Storing `DBUF[i]` stays within a frame that leaves the first `bytes` bytes of DBUF open. -/
theorem frame_setDbufByte (s : State) (i : Nat) (v : Byte) (h : i < bytes) :
    Frame keep bytes s (s.setDbufByte i v) := by
  rw [setDbufByte_eq]
  refine ⟨rfl, rfl, fun a ha => ?_, fun w => setDbufByte_wf i v w, rfl, ⟨[], by simp⟩, fun _ h => h,
    ⟨rfl, rfl, rfl⟩, fun h => ⟨rfl, rfl, h⟩⟩
  unfold State.setDbufByte State.setMemByte
  split
  · split
    · simp only [lookup_insert]
      rw [if_neg]
      omega
    · rfl
  · rfl

theorem within_storeDbuf (i : Nat) (v : Byte) (h : i < bytes) : Within F keep bytes (storeDbuf i v) :=
  within_writeAt _ fun s => frame_setDbufByte s i v h

theorem within_freeDbuf (n : Nat) (h : n ≤ bytes) : Within F keep bytes (freeDbuf n) := by
  induction n with
  | zero => exact within_ret _
  | succ n ih =>
    exact within_before (ih (by omega)) <| within_andThen (within_draw _) fun _ => within_storeDbuf n _ (by omega)

/-- What is left open after a failure stays within the frame too. -/
theorem within_leavingOpen {o body : Ctl Unit} (ho : Within noClass keep bytes o) (hb : Within F keep bytes body) :
    Within F keep bytes (leavingOpen o body) := by
  intro s
  have h := hb s
  unfold leavingOpen
  cases e : body s with
  | ok a t => simpa only [e] using h
  | stop w t =>
    cases w with
    | reset => simpa only [e] using h
    | fail c =>
      simp only [e] at h
      have k := ho t
      simp only
      cases e' : o t with
      | ok a u =>
        simp only [e'] at k
        rw [before_of_ok e']
        exact ⟨h.1, h.2.trans k⟩
      | stop w u =>
        rw [before_of_stop e']
        cases w with
        | fail d =>
          simp only [e'] at k
          exact k.1.elim
        | reset =>
          simp only [e'] at k
          obtain ⟨hr, v, hv, rfl⟩ := k
          exact ⟨h.2.host _ hr, v, h.2.trans hv, rfl⟩

/-! ### Whole commands -/

/-- How a command whose pseudocode is within a frame ends: by its completion step, with no class or one that `F`
allows, or by a reset that the host scheduled. -/
theorem finish_cases (hk : IgnoresStatus keep) {body : Ctl Unit} (hb : Within F keep bytes body) (s : State) :
    (∃ u cls, Frame keep bytes s u ∧ finish (body s) = u.complete cls ∧ ∀ c, cls = some c → F c) ∨
      (HostMove.reset ∈ s.host ∧ ∃ u, Frame keep bytes s u ∧ finish (body s) = u.applyReset) := by
  have step : ∀ (cls : Option FailClass) (t : State), Frame keep bytes s t →
      (∃ u, Frame keep bytes s u ∧ completionStep cls t = u.complete cls) ∨
        (HostMove.reset ∈ s.host ∧ ∃ u, Frame keep bytes s u ∧ completionStep cls t = u.applyReset) := by
    intro cls t ht
    have k := within_tick (F := noClass) (bytes := bytes) hk t
    unfold completionStep
    cases e : tick t with
    | ok _ u =>
      simp only [e] at k
      exact .inl ⟨u, ht.trans k, rfl⟩
    | stop w u =>
      cases w with
      | fail c =>
        simp only [e] at k
        exact k.1.elim
      | reset =>
        simp only [e] at k
        obtain ⟨hr, v, hv, rfl⟩ := k
        exact .inr ⟨ht.host _ hr, v, ht.trans hv, rfl⟩
  have h := hb s
  cases e : body s with
  | ok a t =>
    simp only [e] at h
    rcases step none t h with ⟨u, hu, he⟩ | ⟨hr, u, hu, he⟩
    · exact .inl ⟨u, none, hu, he, fun _ hc => nomatch hc⟩
    · exact .inr ⟨hr, u, hu, he⟩
  | stop w t =>
    cases w with
    | fail c =>
      simp only [e] at h
      rcases step (some c) t h.2 with ⟨u, hu, he⟩ | ⟨hr, u, hu, he⟩
      · refine .inl ⟨u, some c, hu, he, fun d hd => ?_⟩
        cases hd
        exact h.1
      · exact .inr ⟨hr, u, hu, he⟩
    | reset =>
      simp only [e] at h
      exact .inr ⟨h.1, h.2.choose, h.2.choose_spec.1, h.2.choose_spec.2⟩

end Sys2Proof.Machine
end

