-- ==== Sys2Proof/Laws/PerInstr.lean ====
section
/-! SUPPORT. A statement about every command, proved constructor by constructor: its word meets its row of the opcode
map (30_encoding.md R84). -/

namespace Sys2Proof.Laws

/-- The encoding of `i` is selected by the row of the opcode map with the mnemonic of `i`, and that row's "must be 0"
bits are zero in it. -/
def EncodesItsRow.Statement (i : Instr) : Prop :=
  ∃ r ∈ opcodeTable, r.mnemonic = i.mnemonic ∧ r.selects (encode i) = true ∧ r.zerosClear (encode i) = true

/-- Row number `k` of the opcode map is such a row. -/
theorem EncodesItsRow.of_row {i : Instr} {r : OpcodeRow} (k : Nat) (row : opcodeTable[k]? = some r)
    (name : r.mnemonic = i.mnemonic) (sel : r.selects (encode i) = true) (zero : r.zerosClear (encode i) = true) :
    EncodesItsRow.Statement i :=
  ⟨r, List.mem_of_getElem? row, name, sel, zero⟩

theorem EncodesItsRow.busWrite (n : Byte) : EncodesItsRow.Statement (.busWrite n) :=
  of_row 0 rfl rfl (by simp [encode, OpcodeRow.selects]) (by simp [encode, OpcodeRow.zerosClear])

theorem EncodesItsRow.busRead (reg n : Byte) (dv : Bool) : EncodesItsRow.Statement (.busRead reg n dv) :=
  of_row 1 rfl rfl (by simp [encode, OpcodeRow.selects]) (by simp [encode, OpcodeRow.zerosClear])

theorem EncodesItsRow.regWrite (reg value : Byte) : EncodesItsRow.Statement (.regWrite reg value) :=
  of_row 2 rfl rfl (by simp [encode, OpcodeRow.selects]) (by simp [encode, OpcodeRow.zerosClear])

theorem EncodesItsRow.regRead (reg : Byte) (dv : Bool) : EncodesItsRow.Statement (.regRead reg dv) :=
  of_row 3 rfl rfl (by simp [encode, OpcodeRow.selects]) (by simp [encode, OpcodeRow.zerosClear])

theorem EncodesItsRow.setWaveform (slot effect : Byte) : EncodesItsRow.Statement (.setWaveform slot effect) :=
  of_row 4 rfl rfl (by simp [encode, OpcodeRow.selects]) (by simp [encode, OpcodeRow.zerosClear])

theorem EncodesItsRow.getWaveform (slot : Byte) (dv : Bool) : EncodesItsRow.Statement (.getWaveform slot dv) :=
  of_row 5 rfl rfl (by simp [encode, OpcodeRow.selects]) (by simp [encode, OpcodeRow.zerosClear])

theorem EncodesItsRow.clearSequence : EncodesItsRow.Statement .clearSequence :=
  of_row 6 rfl rfl (by simp [encode, OpcodeRow.selects]) (by simp [encode, OpcodeRow.zerosClear])

theorem EncodesItsRow.setSustain (pos neg : Byte) : EncodesItsRow.Statement (.setSustain pos neg) :=
  of_row 7 rfl rfl (by simp [encode, OpcodeRow.selects]) (by simp [encode, OpcodeRow.zerosClear])

theorem EncodesItsRow.encRated : EncodesItsRow.Statement .encRated :=
  of_row 8 rfl rfl (by simp [encode, OpcodeRow.selects]) (by simp [encode, OpcodeRow.zerosClear])

theorem EncodesItsRow.decRated (code : Byte) : EncodesItsRow.Statement (.decRated code) :=
  of_row 9 rfl rfl (by simp [encode, OpcodeRow.selects]) (by simp [encode, OpcodeRow.zerosClear])

theorem EncodesItsRow.encClamp : EncodesItsRow.Statement .encClamp :=
  of_row 10 rfl rfl (by simp [encode, OpcodeRow.selects]) (by simp [encode, OpcodeRow.zerosClear])

theorem EncodesItsRow.decClamp (code : Byte) : EncodesItsRow.Statement (.decClamp code) :=
  of_row 11 rfl rfl (by simp [encode, OpcodeRow.selects]) (by simp [encode, OpcodeRow.zerosClear])

theorem EncodesItsRow.defaultInit : EncodesItsRow.Statement .defaultInit :=
  of_row 12 rfl rfl (by simp [encode, OpcodeRow.selects]) (by simp [encode, OpcodeRow.zerosClear])

theorem EncodesItsRow.autocal (rb : Bool) : EncodesItsRow.Statement (.autocal rb) :=
  of_row 13 rfl rfl (by simp [encode, OpcodeRow.selects]) (by simp [encode, OpcodeRow.zerosClear])

theorem EncodesItsRow.cdConfigure (motor : Motor) (driveTime strength library : Byte) : EncodesItsRow.Statement (.cdConfigure motor driveTime strength library) := by
  cases motor <;>
    exact of_row 14 rfl rfl (by simp [encode, OpcodeRow.selects])
      (by simp [encode, OpcodeRow.zerosClear])

theorem EncodesItsRow.cdStart : EncodesItsRow.Statement .cdStart :=
  of_row 15 rfl rfl (by simp [encode, OpcodeRow.selects]) (by simp [encode, OpcodeRow.zerosClear])

theorem EncodesItsRow.cdStop : EncodesItsRow.Statement .cdStop :=
  of_row 16 rfl rfl (by simp [encode, OpcodeRow.selects]) (by simp [encode, OpcodeRow.zerosClear])

theorem EncodesItsRow.rtPrepare : EncodesItsRow.Statement .rtPrepare :=
  of_row 17 rfl rfl (by simp [encode, OpcodeRow.selects]) (by simp [encode, OpcodeRow.zerosClear])

theorem EncodesItsRow.playFreqAmp (amp : Byte) : EncodesItsRow.Statement (.playFreqAmp amp) :=
  of_row 18 rfl rfl (by simp [encode, OpcodeRow.selects]) (by simp [encode, OpcodeRow.zerosClear])

theorem EncodesItsRow.playFreqVoltage : EncodesItsRow.Statement .playFreqVoltage :=
  of_row 19 rfl rfl (by simp [encode, OpcodeRow.selects]) (by simp [encode, OpcodeRow.zerosClear])

theorem EncodesItsRow.agStep : EncodesItsRow.Statement .agStep :=
  of_row 20 rfl rfl (by simp [encode, OpcodeRow.selects]) (by simp [encode, OpcodeRow.zerosClear])

end Sys2Proof.Laws
end

