-- ==== Sys2Proof/Laws/Ready.lean ====
section
/-! SUPPORT. What the primitives and procedures do when the host is quiet and the bus environment satisfies every wait at
once: the value they answer, the events they issue, the answers they consume and the host registers they write (`Runs`),
one lemma each; and from it the state a command ends in. -/

namespace Sys2Proof.Machine

/-- `s` with the events `es` issued, the environment's answers consumed down to `xs` and `ys`, the host registers `r`
and the remembered writes `w`; `read` says that the acknowledge was left enabled. -/
def State.advance (s : State) (es : List Event) (xs : List Snapshot) (ys : List Byte) (read : Bool) (r : HostRegs)
    (w : List (Nat × Word)) : State :=
  { s with
    trace := s.trace ++ es
    samples := xs
    rxBytes := ys
    ackEnable := s.ackEnable || read
    regs := r
    written := w }

theorem advance_advance (s : State) (es fs : List Event) (xs us : List Snapshot) (ys vs : List Byte)
    (b d : Bool) (r r' : HostRegs) (w w' : List (Nat × Word)) :
    (s.advance es xs ys b r w).advance fs us vs d r' w' = s.advance (es ++ fs) us vs (b || d) r' w' := by
  simp only [State.advance, List.append_assoc, Bool.or_assoc]

/-- The completion of an advanced state. -/
theorem complete_advance (s : State) (es : List Event) (xs : List Snapshot) (ys : List Byte) (b : Bool)
    (r : HostRegs) (w : List (Nat × Word)) (cls : Option FailClass) :
    (s.advance es xs ys b r w).complete cls =
      s.settled { r with status := r.status.complete cls } es xs ys b := rfl

variable {α β : Type} {c : Params} {n k : Nat} {bs cs : List Byte} {es fs : List Event} {r q : Bool}
  {g h : HostRegs → HostRegs}

/-- `m` runs quietly to its end: with the host quiet and the next `n` samples ready, it answers `a`, issues `es`,
consumes those samples and the bytes `bs`, makes `g` of the host registers, and changes nothing else. -/
def Runs (c : Params) (m : Ctl α) (n : Nat) (bs : List Byte) (es : List Event) (read : Bool)
    (g : HostRegs → HostRegs) (a : α) : Prop :=
  ∀ (s : State) (xs : List Snapshot) (ys : List Byte), s.cfg = c → s.Answers n bs xs ys →
    ∃ w, m s = .ok a (s.advance es xs ys read (g s.regs) w)

/-- The same facts under equal names of the counts and lists. -/
theorem Runs.cast {m : Ctl α} {a : α} (H : Runs c m n bs es r g a) {n' : Nat} {bs' : List Byte} {es' : List Event}
    {r' : Bool} {g' : HostRegs → HostRegs} (hn : n = n') (hb : bs = bs') (he : es = es') (hr : r = r')
    (hg : g = g') : Runs c m n' bs' es' r' g' a := by
  subst hn hb he hr hg
  exact H

/-- An advance by nothing. -/
theorem advance_nothing {s : State} {xs : List Snapshot} {ys : List Byte} (H : s.Answers 0 [] xs ys) :
    s.advance [] xs ys false s.regs s.written = s := by
  have h1 : s.samples = xs := H.samples
  have h2 : s.rxBytes = ys := H.bytes
  simp only [State.advance, List.append_nil, Bool.or_false, ← h1, ← h2]

theorem runs_ret (a : α) : Runs c (ret a) 0 [] [] false id a := fun s _ _ _ H =>
  ⟨s.written, by rw [ret_run, id, advance_nothing H]⟩

theorem runs_andThen {m : Ctl α} {f : α → Ctl β} {a : α} {b : β} (hm : Runs c m n bs es r g a)
    (hf : Runs c (f a) k cs fs q h b) :
    Runs c (andThen m f) (n + k) (bs ++ cs) (es ++ fs) (r || q) (h ∘ g) b := by
  intro s xs ys hc H
  obtain ⟨w, e1⟩ := hm s (List.replicate k readySnapshot ++ xs) (cs ++ ys) hc
    ⟨H.quiet, by rw [H.samples, ← List.replicate_append_replicate, List.append_assoc],
      by rw [H.bytes, List.append_assoc]⟩
  obtain ⟨w', e2⟩ := hf (s.advance es (List.replicate k readySnapshot ++ xs) (cs ++ ys) r (g s.regs) w) xs ys hc
    ⟨H.quiet, rfl, rfl⟩
  refine ⟨w', ?_⟩
  rw [andThen_of_ok e1, e2, advance_advance]
  rfl

theorem runs_before {m : Ctl Unit} {f : Ctl β} {b : β} (hm : Runs c m n bs es r g ())
    (hf : Runs c f k cs fs q h b) : Runs c (before m f) (n + k) (bs ++ cs) (es ++ fs) (r || q) (h ∘ g) b :=
  runs_andThen hm hf

/-- A piece followed by one that does nothing. -/
theorem runs_andThen_ret {m : Ctl α} {f : α → Ctl β} {a : α} {b : β} (hm : Runs c m n bs es r g a)
    (hf : f a = ret b) : Runs c (andThen m f) n bs es r g b :=
  (runs_andThen (f := f) hm (by rw [hf]; exact runs_ret b)).cast rfl (List.append_nil _) (List.append_nil _)
    (Bool.or_false _) rfl

theorem runs_before_ret {m : Ctl Unit} (hm : Runs c m n bs es r g ()) (b : β) :
    Runs c (before m (ret b)) n bs es r g b :=
  runs_andThen_ret hm rfl

theorem runs_ifOk {p m : Ctl Bool} {b : Bool} (hp : Runs c p n bs es r g true) (hm : Runs c m k cs fs q h b) :
    Runs c (ifOk p m) (n + k) (bs ++ cs) (es ++ fs) (r || q) (h ∘ g) b :=
  by
    unfold ifOk
    exact runs_andThen hp hm

theorem runs_require {cls : FailClass} {ok : Bool} (H : ok = true) :
    Runs c (require ok cls) 0 [] [] false id () := by
  rw [H]
  exact runs_ret ()

theorem runs_must {p : Ctl Bool} (H : Runs c p n bs es r g true) : Runs c (must p) n bs es r g () :=
  runs_andThen_ret H rfl

theorem runs_mustGet {p : Ctl (Option α)} {a : α} (H : Runs c p n bs es r g (some a)) :
    Runs c (mustGet p) n bs es r g a :=
  runs_andThen_ret H rfl

/-- A piece after an argument check that passes. -/
theorem runs_checked {cls : FailClass} {ok : Bool} {m : Ctl α} {a : α} (hok : ok = true)
    (H : Runs c m n bs es r g a) : Runs c (before (require ok cls) m) n bs es r g a := by
  rw [hok]
  exact H

/-! ### Primitives -/

/-- An action, with no host move due. -/
theorem perform_quiet (e : State → Event) (f : State → State) {s : State} (H : s.host = []) :
    perform e f s = .ok () (f (s.emit (e s))) := by
  unfold perform
  rw [before_of_ok (tick_quiet H), change_run]

/-- An action that changes only the trace. -/
theorem runs_perform (e : State → Event) (e' : Event) (he : ∀ s : State, s.cfg = c → e s = e') :
    Runs c (perform e id) 0 [] [e'] false id () := by
  intro s xs ys hc H
  have h1 : s.samples = xs := H.samples
  have h2 : s.rxBytes = ys := H.bytes
  refine ⟨s.written, ?_⟩
  rw [perform_quiet _ _ (by exact H.quiet), he s hc]
  simp only [id, State.emit, State.advance, Bool.or_false, ← h1, ← h2]

theorem runs_genStart : Runs c genStart 0 [] [.start] false id () := runs_perform _ _ fun _ _ => rfl

theorem runs_genStop : Runs c genStop 0 [] [.stop] false id () := runs_perform _ _ fun _ _ => rfl

theorem runs_sendAddr (d : Dir) : Runs c (sendAddr d) 0 [] [.addr c.targetAddr d] false id () :=
  runs_perform _ _ fun _ H => by rw [H]

theorem runs_writeData (b : Byte) : Runs c (writeData b) 0 [] [.tx b] false id () := runs_perform _ _ fun _ _ => rfl

theorem runs_delayMs (n : Nat) : Runs c (delayMs n) 0 [] [.dms n] false id () := runs_perform _ _ fun _ _ => rfl

theorem runs_delayUs (n : Nat) : Runs c (delayUs n) 0 [] [.dus n] false id () := runs_perform _ _ fun _ _ => rfl

/-- The event of a hold or pause: none when it is 0. -/
theorem runs_delayMsUnlessZero (n : Nat) :
    Runs c (delayMsUnlessZero n) 0 [] (pauseEvents n) false id () := by
  unfold delayMsUnlessZero pauseEvents
  split
  · exact runs_ret ()
  · exact runs_delayMs n

theorem runs_sample : Runs c sample 1 [] [pollReady] false id readySnapshot := by
  intro s xs ys _ H
  have h1 : s.samples = readySnapshot :: xs := H.samples
  have h2 : s.rxBytes = ys := H.bytes
  refine ⟨s.written, ?_⟩
  unfold sample
  rw [before_of_ok (tick_quiet H.quiet)]
  simp only [State.takeSample, h1, State.emit, State.advance, pollReady, ErrorFlags.observe, readySnapshot,
    Bool.or_false, id, ← h2]

theorem runs_readData (b : Byte) : Runs c readData 0 [b] [.rx b] false id b := by
  intro s xs ys _ H
  have h1 : s.samples = xs := H.samples
  have h2 : s.rxBytes = b :: ys := H.bytes
  refine ⟨s.written, ?_⟩
  unfold readData
  rw [before_of_ok (tick_quiet H.quiet)]
  simp only [State.takeByte, h2, State.emit, State.advance, Bool.or_false, id, ← h1]

/-- A write of host registers by the command. -/
theorem runs_writeAt (off : Nat) (g : HostRegs → HostRegs) :
    Runs c (writeAt off fun s => { s with regs := g s.regs }) 0 [] [] false g () := by
  intro s xs ys _ H
  have h1 : s.samples = xs := H.samples
  have h2 : s.rxBytes = ys := H.bytes
  refine ⟨(State.record off s ({ s with regs := g s.regs })).written, ?_⟩
  simp only [writeAt_run, State.advance, List.append_nil, Bool.or_false, ← h1, ← h2]
  rfl

theorem runs_setRdata (v : Half) :
    Runs c (setRdata v) 0 [] [] false (fun x => { x with rdata := v }) () :=
  runs_writeAt _ fun x => { x with rdata := v }

theorem runs_setCdState (v : CdState) :
    Runs c (setCdState v) 0 [] [] false (fun x => { x with cdState := v }) () :=
  runs_writeAt _ fun x => { x with cdState := v }

theorem runs_setCdStrength (v : Byte) :
    Runs c (setCdStrength v) 0 [] [] false (fun x => { x with cdStrength := v.setWidth 7 }) () :=
  runs_writeAt _ fun x => { x with cdStrength := v.setWidth 7 }

theorem runs_setRtReady : Runs c setRtReady 0 [] [] false (fun x => { x with rtReady := true }) () :=
  runs_writeAt _ fun x => { x with rtReady := true }

theorem runs_setAgCursor (v : BitVec 9) :
    Runs c (setAgCursor v) 0 [] [] false (fun x => { x with agCursor := v }) () :=
  runs_writeAt _ fun x => { x with agCursor := v }

theorem runs_setResult (off : Nat) (f : AcalResult → AcalResult) :
    Runs c (setResult off f) 0 [] [] false (fun x => { x with res := f x.res }) () :=
  runs_writeAt _ fun x => { x with res := f x.res }

/-! ### The bus engine -/

theorem condHolds_ready (d : Cond) : condHolds d readySnapshot = true := by cases d <;> rfl

theorem runs_waitLoop (d : Cond) (k : Nat) : Runs c (waitLoop d k) 1 [] [pollReady] false id true := by
  cases k with
  | zero =>
    refine runs_andThen_ret (f := fun x => ret (condHolds d x)) runs_sample ?_
    simp only [condHolds_ready]
  | succ k =>
    refine runs_andThen_ret (f := fun x => if condHolds d x then ret true else if anyError x then ret false
      else waitLoop d k) runs_sample ?_
    simp only [condHolds_ready, if_true]

theorem runs_wait (d : Cond) : Runs c (wait d) 1 [] [pollReady] false id true :=
  fun s xs ys hc H => runs_waitLoop d _ s xs ys hc H

theorem runs_waitOrRecover (d : Cond) : Runs c (waitOrRecover d) 1 [] [pollReady] false id true :=
  runs_andThen_ret (runs_wait d) rfl

theorem runs_startBus (d : Dir) : Runs c (startBus d) 3 [] (startEvents c d) false id true :=
  runs_ifOk (runs_waitOrRecover _) <| runs_before runs_genStart <| runs_ifOk (runs_waitOrRecover _) <|
    runs_before (runs_sendAddr d) (runs_waitOrRecover _)

theorem runs_restartBus :
    Runs c restartBus 2 [] [.start, pollReady, .addr c.targetAddr .r, pollReady] false id true :=
  runs_before runs_genStart <| runs_ifOk (runs_waitOrRecover _) <|
    runs_before (runs_sendAddr .r) (runs_waitOrRecover _)

theorem runs_sendByte (b : Byte) : Runs c (sendByte b) 2 [] (sendEvents b) false id true :=
  runs_ifOk (runs_waitOrRecover _) <| runs_before (runs_writeData b) (runs_waitOrRecover _)

theorem runs_sendBytes (p : List Byte) :
    Runs c (sendBytes p) (2 * p.length) [] (p.flatMap sendEvents) false id true := by
  induction p with
  | nil => exact runs_ret true
  | cons b p ih =>
    refine (runs_ifOk (runs_sendByte b) ih).cast ?_ rfl ?_ rfl rfl
    · simp only [List.length_cons]
      omega
    · rw [List.flatMap_cons]

theorem runs_writeBytes (p : List Byte) (H : p ≠ []) :
    Runs c (writeBytes p) (3 + 2 * p.length) [] (writeEvents c p) false id true := by
  cases p with
  | nil => exact absurd rfl H
  | cons b p =>
    refine (runs_ifOk (runs_startBus .w) <| runs_ifOk (runs_sendBytes (b :: p)) <|
      runs_before_ret runs_genStop true).cast rfl rfl ?_ rfl rfl
    simp only [writeEvents, List.append_assoc]

theorem runs_writeRegister (reg v : Byte) : Runs c (writeRegister reg v) 7 [] (wrEvents c reg v) false id true :=
  runs_writeBytes [reg, v] (List.cons_ne_nil _ _)

theorem runs_openRead (reg : Byte) :
    Runs c (openRead reg) 7 [] (startEvents c .w ++ sendEvents reg ++
      [.start, pollReady, .addr c.targetAddr .r, pollReady]) false id true :=
  (runs_ifOk (runs_startBus .w) <| runs_ifOk (runs_sendByte reg) runs_restartBus).cast rfl rfl
    (List.append_assoc _ _ _).symm rfl rfl

/-- Memory after the bytes `q` are given one after another to a sink that makes `f i b` of memory, from index `i` on. -/
def sinkAll (f : Nat → Byte → Memory → Memory) : Nat → List Byte → Memory → Memory
  | _, [], m => m
  | i, b :: q, m => sinkAll f (i + 1) q (f i b m)

/-- A sink that only changes memory, by `f`, and what busy reads remember. -/
def SinksBy (c : Params) (sink : Nat → Byte → Ctl Unit) (f : Nat → Byte → Memory → Memory) : Prop :=
  ∀ i b (s : State), s.cfg = c → ∃ w, sink i b s = .ok () { s with mem := f i b s.mem, written := w }

/-- `s` after the byte loop of a read: the acknowledge is off. -/
def State.received (s : State) (es : List Event) (xs : List Snapshot) (ys : List Byte) (m : Memory)
    (w : List (Nat × Word)) : State :=
  { s with
    trace := s.trace ++ es
    samples := xs
    rxBytes := ys
    mem := m
    written := w
    ackEnable := false }

/-- `s` after one byte of a read that is not the last. -/
def State.gotByte (s : State) (b : Byte) (xs : List Snapshot) (ys : List Byte) (m : Memory)
    (w : List (Nat × Word)) : State :=
  { s with
    trace := s.trace ++ [pollReady, .rx b]
    samples := xs
    rxBytes := ys
    mem := m
    written := w }

/-- One byte: wait, read, sink. -/
theorem gotByte_ready {sink : Nat → Byte → Ctl Unit} {f : Nat → Byte → Memory → Memory}
    (hs : SinksBy c sink f) (i : Nat) (b : Byte) (s : State) (xs : List Snapshot) (ys : List Byte)
    (hc : s.cfg = c) (H : s.Answers 1 [b] xs ys) (next : Byte → Ctl α) (other : Ctl α) :
    ∃ w, (andThen (waitOrRecover .byteRx) fun ok => if ok then andThen readData fun v => before (sink i v) (next v)
      else other) s = next b (s.gotByte b xs ys (f i b s.mem) w) := by
  obtain ⟨w1, e1⟩ := runs_waitOrRecover (c := c) .byteRx s xs ([b] ++ ys) hc ⟨H.quiet, H.samples, H.bytes⟩
  obtain ⟨w2, e2⟩ := runs_readData (c := c) b _ xs ys
    (show (s.advance [pollReady] xs ([b] ++ ys) false (id s.regs) w1).cfg = c from hc) ⟨H.quiet, rfl, rfl⟩
  obtain ⟨w3, e3⟩ := hs i b (((s.advance [pollReady] xs ([b] ++ ys) false (id s.regs) w1)).advance [.rx b] xs ys false
    (id (s.advance [pollReady] xs ([b] ++ ys) false (id s.regs) w1).regs) w2) hc
  refine ⟨w3, ?_⟩
  rw [andThen_of_ok e1]
  simp only [if_true]
  rw [andThen_of_ok e2, before_of_ok e3]
  simp only [State.advance, State.gotByte, id, Bool.or_false, List.append_assoc, List.cons_append, List.nil_append]

/-- The byte loop of a read, quietly: it leaves the acknowledge off. -/
theorem receiveBytes_ready {sink : Nat → Byte → Ctl Unit} {f : Nat → Byte → Memory → Memory}
    (hs : SinksBy c sink f) (n : Nat) (b : Byte) (q : List Byte) (s : State) (xs : List Snapshot) (ys : List Byte)
    (hc : s.cfg = c) (H : s.Answers (q.length + 1) (b :: q) xs ys) (hn : q.length + 1 ≤ n) :
    ∃ w, receiveBytes sink n (q.length + 1) s = .ok (some (b :: q))
      (s.received (receiveEvents (b :: q)) xs ys (sinkAll f (n - (q.length + 1)) (b :: q) s.mem) w) := by
  induction q generalizing b s with
  | nil =>
    have e1 : endOfRead 0 s = .ok () (s.received [.ack false, .stop] s.samples s.rxBytes s.mem s.written) := by
      simp only [endOfRead, if_true, setAck, genStop]
      rw [before_of_ok (perform_quiet _ _ (by exact H.quiet)), perform_quiet _ _ (by exact H.quiet)]
      simp only [id, State.emit, State.received, List.append_assoc, List.cons_append, List.nil_append]
    obtain ⟨w, e2⟩ := gotByte_ready hs (n - 1) b
      (s.received [.ack false, .stop] s.samples s.rxBytes s.mem s.written) xs ys hc
      ⟨H.quiet, H.samples, H.bytes⟩
      (fun v => andThen (receiveBytes sink n 0) fun q => ret (q.map fun bs => v :: bs)) (ret none)
    refine ⟨w, ?_⟩
    rw [List.length_nil, Nat.zero_add, receiveBytes, before_of_ok e1, e2]
    simp only [receiveBytes, andThen_ret, Option.map, ret_run, sinkAll, receiveEvents, State.received,
      State.gotByte, List.append_assoc, List.cons_append, List.nil_append]
  | cons d q ih =>
    have e1 : endOfRead (q.length + 1) s = .ok () s := by
      simp only [endOfRead, Nat.add_eq_zero_iff, Nat.one_ne_zero, and_false, if_false, ret_run]
    obtain ⟨w, e2⟩ := gotByte_ready hs (n - (q.length + 1 + 1)) b s
      (List.replicate (q.length + 1) readySnapshot ++ xs) (d :: q ++ ys) hc
      ⟨H.quiet, H.samples, H.bytes⟩
      (fun v => andThen (receiveBytes sink n (q.length + 1)) fun q => ret (q.map fun bs => v :: bs)) (ret none)
    simp only [List.length_cons] at hn
    obtain ⟨w', e3⟩ := ih d (s.gotByte b (List.replicate (q.length + 1) readySnapshot ++ xs) (d :: q ++ ys)
      (f (n - (q.length + 1 + 1)) b s.mem) w) hc ⟨H.quiet, rfl, rfl⟩ (by omega)
    have hi : n - (q.length + 1 + 1) + 1 = n - (q.length + 1) := by omega
    refine ⟨w', ?_⟩
    rw [List.length_cons, receiveBytes, before_of_ok e1, e2, andThen_of_ok e3]
    simp only [ret_run, Option.map, sinkAll, receiveEvents, hi, State.received, State.gotByte, List.append_assoc,
      List.cons_append, List.nil_append]

/-- `s` after Cleanup. -/
def State.cleaned (s : State) (xs : List Snapshot) (ys : List Byte) (w : List (Nat × Word)) : State :=
  { s with
    trace := s.trace ++ [.ack true, pollReady]
    samples := xs
    rxBytes := ys
    written := w
    ackEnable := true }

/-- Cleanup, quietly: the outcome of the read stands. -/
theorem cleanup_ready {p : Ctl (Option (List Byte))} {st : Option (List Byte)} {s₀ s : State} (e₀ : p s₀ = .ok st s)
    (xs : List Snapshot) (ys : List Byte) (hc : s.cfg = c) (H : s.Answers 1 [] xs ys) :
    ∃ w, andThen p cleanup s₀ = .ok st (s.cleaned xs ys w) := by
  obtain ⟨w, e⟩ := runs_wait (c := c) .idle { s.emit (.ack true) with ackEnable := true } xs ys hc
    ⟨H.quiet, H.samples, H.bytes⟩
  refine ⟨w, ?_⟩
  rw [andThen_of_ok e₀]
  unfold cleanup setAck
  rw [before_of_ok (perform_quiet _ _ (by exact H.quiet)), andThen_of_ok e]
  simp only [Bool.not_true, Bool.false_and, Bool.false_eq_true, if_false, id, State.advance, State.cleaned,
    State.emit, List.append_assoc, List.cons_append, List.nil_append, Bool.or_false]

/-- A combined-format read, quietly. -/
theorem readRegisters_ready {sink : Nat → Byte → Ctl Unit} {f : Nat → Byte → Memory → Memory}
    (hs : SinksBy c sink f) (reg b : Byte) (q : List Byte) (s : State) (xs : List Snapshot) (ys : List Byte)
    (hc : s.cfg = c) (H : s.Answers (8 + (q.length + 1)) (b :: q) xs ys) :
    ∃ w, readRegisters sink reg (q.length + 1) s = .ok (some (b :: q))
      { s.advance (readEvents c reg (b :: q)) xs ys true s.regs w with mem := sinkAll f 0 (b :: q) s.mem } := by
  have e0 : List.replicate (8 + (q.length + 1)) readySnapshot ++ xs = List.replicate 7 readySnapshot ++
      (List.replicate (q.length + 1) readySnapshot ++ (List.replicate 1 readySnapshot ++ xs)) := by
    simp only [← List.append_assoc, List.replicate_append_replicate]
    congr 2
    omega
  obtain ⟨w1, e1⟩ := runs_openRead (c := c) reg s (List.replicate (q.length + 1) readySnapshot ++
    (List.replicate 1 readySnapshot ++ xs)) (b :: q ++ ys) hc ⟨H.quiet, H.samples.trans e0, H.bytes⟩
  obtain ⟨w2, e2⟩ := receiveBytes_ready hs (q.length + 1) b q _ (List.replicate 1 readySnapshot ++ xs) ys
    (show (s.advance _ _ _ _ _ _).cfg = c from hc) ⟨H.quiet, rfl, rfl⟩ (Nat.le_refl _)
  have e3 := (andThen_of_ok (f := fun ok => if ok then receiveBytes sink (q.length + 1) (q.length + 1)
    else ret none) e1).trans e2
  obtain ⟨w3, e4⟩ := cleanup_ready (c := c) e3 xs ys hc ⟨H.quiet, rfl, rfl⟩
  refine ⟨w3, e4.trans ?_⟩
  simp only [Nat.sub_self, id, State.advance, State.cleaned, State.received, readEvents, List.append_assoc,
    List.cons_append, List.nil_append, Bool.or_true]

theorem noSink_sinks : SinksBy c noSink fun _ _ m => m := fun _ _ s _ => ⟨s.written, rfl⟩

theorem sinkAll_id (i : Nat) (q : List Byte) (m : Memory) : sinkAll (fun _ _ m => m) i q m = m := by
  induction q generalizing i with
  | nil => rfl
  | cons b q ih => exact ih _

theorem runs_readRegister (reg b : Byte) :
    Runs c (readRegister reg) 9 [b] (rdEvents c reg b) true id (some b) := by
  intro s xs ys hc H
  obtain ⟨w, e⟩ := readRegisters_ready noSink_sinks reg b [] s xs ys hc H
  rw [sinkAll_id] at e
  refine ⟨w, ?_⟩
  unfold readRegister
  rw [andThen_of_ok (show readRegisters noSink reg 1 s = _ from e)]
  rfl

/-! ### Commands -/

/-- A command whose pseudocode runs quietly to its end. -/
theorem command_of_runs {m : Ctl Unit} (H : Runs c m n bs es r g ()) {s : State} {xs : List Snapshot}
    {ys : List Byte} (hc : s.cfg = c) (hs : s.Answers n bs xs ys) :
    command m s = .next (s.settled ((g s.regs).ready) es xs ys r) := by
  obtain ⟨w, e⟩ := H s xs ys hc hs
  rw [command_of_ok e hs.quiet, complete_advance]
  rfl

/-- A getter whose pseudocode runs quietly to its end. -/
theorem getterCommand_of_runs {m : Ctl Unit} (H : Runs c m n bs es r g ()) {s : State} {xs : List Snapshot}
    {ys : List Byte} (hc : s.cfg = c) (hs : s.Answers n bs xs ys) :
    getterCommand m s = .next (s.settled ((g s.regs).ready) es xs ys r) := by
  obtain ⟨w, e⟩ := H s xs ys hc hs
  unfold getterCommand
  rw [command_of_ok (leavingOpen_of_ok e) hs.quiet, complete_advance]
  rfl

end Sys2Proof.Machine
end

