-- ==== Sys2Proof/Laws/Routines.lean ====
section
/-! SUPPORT. The procedures of the timed routines on a bus that satisfies every wait at once (`Runs`), and that a bus write
leaves what busy reads remember alone. -/

namespace Sys2Proof.Machine

variable {α β : Type} {c : Params} {n k : Nat} {bs cs : List Byte} {es fs : List Event} {r q : Bool}
  {g h : HostRegs → HostRegs}

/-! ### Procedures of the routines -/

theorem runs_clearSlots (ks : List Byte) : Runs c (clearSlots c ks) (7 * ks.length) []
    (wrAll c (ks.map fun k => (c.waveseqBase + k, 0))) false id true := by
  induction ks with
  | nil => exact runs_ret true
  | cons k ks ih =>
    refine (runs_ifOk (runs_writeRegister _ _) ih).cast ?_ rfl ?_ rfl rfl
    · simp only [List.length_cons]
      omega
    · simp [wrAll, slotReg]

theorem runs_mustOrStop {p : Ctl Bool} (H : Runs c p n bs es r g true) : Runs c (mustOrStop c p) n bs es r g () :=
  runs_andThen_ret H rfl

theorem runs_acalSetup (q : AcalRequest) : Runs c (acalSetup c q) 84 [] (setupEvents c q) false id () := by
  have w (a v : Byte) := runs_mustOrStop (runs_writeRegister (c := c) a v)
  refine (runs_before (w _ _) <| runs_before (runs_delayMs _) <| runs_before (w _ _) <| runs_before (w _ _) <|
    runs_before (w _ _) <| runs_before (w _ _) <| runs_before (w _ _) <| runs_before (w _ _) <|
    runs_before (w _ _) <| runs_before (w _ _) <| runs_before (w _ _) <| runs_before (w _ _) (w _ _)).cast rfl rfl ?_
      rfl rfl
  simp [setupEvents, setupRest, wrAll, feedbackPattern]

theorem runs_pollGo (g : Byte) : Runs c (pollGo c) 9 [g] (rdEvents c c.regGo g) true id (goClear c g) :=
  runs_andThen_ret (runs_readRegister _ g) rfl

/-- The GO poll loop: reads that show GO set, then one that shows it clear or uses up the budget. -/
theorem runs_pollLoop (k : Nat) (gs : List Byte) (g : Byte) (hg : ∀ x ∈ gs, goClear c x = false)
    (hlen : gs.length ≤ k) (hl : goClear c g = true ∨ gs.length = k) :
    Runs c (pollLoop c k) (9 * (gs.length + 1)) (gs ++ [g]) (pollEvents c gs g) true id (!goClear c g) := by
  induction gs generalizing k with
  | nil =>
    cases k with
    | zero => exact runs_andThen_ret (runs_pollGo g) rfl
    | succ k =>
      have hc : goClear c g = true := hl.resolve_right (by simp)
      refine (runs_andThen_ret (runs_pollGo g) ?_).cast rfl rfl (by simp [pollEvents, goSetEvents]) rfl rfl
      simp [hc]
  | cons x gs ih =>
    cases k with
    | zero => simp at hlen
    | succ k =>
      have hx := hg x (by simp)
      have rest := ih k (fun y hy => hg y (by simp [hy])) (by simpa using hlen) (by simpa using hl)
      refine (runs_andThen (f := fun cleared => if cleared then ret false
        else before (delayMs acalPollMs) (pollLoop c k)) (runs_pollGo x)
        (by rw [hx]; exact runs_before (runs_delayMs _) rest)).cast ?_ ?_ ?_ rfl rfl
      · simp only [List.length_cons]
        omega
      · simp
      · simp [pollEvents, goSetEvents, acalPollMs]

theorem runs_acalEntry (rb : Bool) : Runs c (acalEntry rb) 0 [] [] false
    (fun x => if rb then { x with res := AcalResult.zero } else x) () := by
  cases rb
  · exact runs_ret ()
  · unfold acalEntry
    rw [if_pos rfl]
    refine (runs_before (runs_setResult _ _) (runs_setResult _ _)).cast rfl rfl rfl rfl ?_
    rfl

theorem runs_hardRead (reg v : Byte) (off : Nat) (put : AcalResult → Byte → AcalResult) :
    Runs c (hardRead reg off put) 9 [v] (rdEvents c reg v) true (fun x => { x with res := put x.res v }) () :=
  (runs_andThen (f := fun v => setResult off fun r => put r v) (runs_mustGet (runs_readRegister _ v))
    (runs_setResult _ _)).cast rfl rfl (by simp) rfl rfl

theorem runs_resultReads (r : ResultBytes) : Runs c (before (hardReads c) (bestEffortReads c)) 63 r.bytes (r.events c)
    true (fun x => { x with res := r.result }) () :=
  (runs_before (runs_before (runs_hardRead _ r.status _ _) <| runs_before (runs_hardRead _ r.comp _ _) <|
      runs_before (runs_hardRead _ r.bemf _ _) <| runs_before (runs_hardRead _ r.rated _ _)
      (runs_hardRead _ r.clamp _ _)) <|
    runs_andThen (runs_readRegister _ r.vbat) <| runs_before (runs_setResult _ _) <|
    runs_andThen (runs_readRegister _ r.reson) (runs_setResult _ _)).cast rfl rfl (by simp [ResultBytes.events]) rfl rfl

theorem runs_prepareSteps :
    Runs c (prepareSteps c) 28 [] (prepareEvents c) false (fun r => { r with rtReady := true }) true :=
  (runs_ifOk (runs_writeRegister _ _) <| runs_before (runs_delayMs _) <| runs_ifOk (runs_writeRegister _ _) <|
    runs_ifOk (runs_writeRegister _ _) <| runs_ifOk (runs_writeRegister _ _) <|
    runs_before_ret runs_setRtReady true).cast rfl rfl (by simp [prepareEvents, wrAll, feedbackPattern]) rfl rfl

/-- `PrepareRealtime()` by the latch. -/
theorem prepareRealtime_eq (c : Params) (s : State) :
    prepareRealtime c s = if s.regs.rtReady then .ok true s else prepareSteps c s := rfl

theorem runs_toneLoop (v : Byte) (h n : Nat) : Runs c (toneLoop c v h n) (14 * n) []
    ((List.replicate n (cycleEvents c v h)).flatten) false id () := by
  induction n with
  | zero => exact runs_ret ()
  | succ n ih =>
    exact (runs_before (runs_must (runs_writeRegister _ _)) <| runs_before (runs_delayUs _) <|
      runs_before (runs_must (runs_writeRegister _ _)) <| runs_before (runs_delayUs _) ih).cast (by omega) rfl
        (by simp [cycleEvents, List.replicate_succ]) rfl rfl

/-! ### Pieces that write no host register -/

/-- The state a piece of pseudocode leaves. -/
def Run.state : Run α → State
  | .ok _ t => t
  | .stop _ t => t

/-- The same run with `w` as what busy reads remember. -/
def Run.withWritten (w : List (Nat × Word)) : Run α → Run α
  | .ok a t => .ok a { t with written := w }
  | .stop y t => .stop y { t with written := w }

/-- With the host quiet, `m` leaves it quiet, changes no host register, and neither reads nor changes what busy reads
remember. -/
def Silent (m : Ctl α) : Prop :=
  ∀ s w, s.host = [] → m { s with written := w } = (m s).withWritten w ∧
    (m s).state.host = [] ∧ (m s).state.regs = s.regs

/-- What busy reads remember is as before. -/
theorem Silent.written_eq {m : Ctl α} (H : Silent m) {s t : State} {a : α} (q : s.host = []) (h : m s = .ok a t) :
    t.written = s.written := by
  have e := (H s s.written q).1
  rw [show m { s with written := s.written } = .ok a t from h] at e
  exact congrArg (fun r => r.state.written) e

/-- The host stays quiet and the host registers are as before. -/
theorem Silent.quiet {m : Ctl α} (H : Silent m) {s t : State} {a : α} (q : s.host = []) (h : m s = .ok a t) :
    t.host = [] ∧ t.regs = s.regs := by
  have e := (H s [] q).2
  rw [h] at e
  exact e

/-- The same run from a state with another memory of writes. -/
theorem Silent.with_written {m : Ctl α} (H : Silent m) {s t : State} {a : α} (w : List (Nat × Word)) (q : s.host = [])
    (h : m s = .ok a t) : m { s with written := w } = .ok a { t with written := w } := by
  rw [(H s w q).1, h]
  rfl

theorem silent_ret (a : α) : Silent (ret a) := fun _ _ q => ⟨rfl, q, rfl⟩

theorem silent_fail (cls : FailClass) : Silent (fail cls : Ctl α) := fun _ _ q => ⟨rfl, q, rfl⟩

theorem silent_andThen {m : Ctl α} {f : α → Ctl β} (hm : Silent m) (hf : ∀ a, Silent (f a)) :
    Silent (andThen m f) := by
  intro s w q
  obtain ⟨e, hq, hr⟩ := hm s w q
  simp only [andThen, e]
  cases h : m s with
  | ok a t =>
    rw [h] at hq hr
    obtain ⟨e', hq', hr'⟩ := hf a t w hq
    exact ⟨e', hq', hr'.trans hr⟩
  | stop y t =>
    rw [h] at hq hr
    exact ⟨rfl, hq, hr⟩

theorem silent_ite {p : Prop} [Decidable p] {m n : Ctl α} (hm : Silent m) (hn : Silent n) :
    Silent (if p then m else n) := by
  split
  · exact hm
  · exact hn

theorem silent_ifOk {p q : Ctl Bool} (hp : Silent p) (hq : Silent q) : Silent (ifOk p q) :=
  silent_andThen hp fun _ => silent_ite hq (silent_ret _)

theorem silent_tick : Silent tick := by
  intro s w q
  have q' : ({ s with written := w } : State).host = [] := q
  rw [tick_quiet q, tick_quiet q']
  exact ⟨rfl, q, rfl⟩

theorem silent_perform (e : State → Event) (he : ∀ s w, e { s with written := w } = e s := by intros; rfl) :
    Silent (perform e id) :=
  silent_andThen silent_tick fun _ s w q =>
    ⟨by simp only [change_run, State.emit, id, he, Run.withWritten], q, rfl⟩

theorem silent_clearErr : Silent clearErr :=
  silent_andThen silent_tick fun _ _ _ q => ⟨rfl, q, rfl⟩

theorem silent_setAck (on : Bool) : Silent (setAck on) :=
  silent_andThen silent_tick fun _ _ _ q => ⟨rfl, q, rfl⟩

theorem silent_readData : Silent readData :=
  silent_andThen silent_tick fun _ s w q => by
    simp only [State.takeByte]
    cases s.rxBytes <;> exact ⟨rfl, q, rfl⟩

theorem silent_sample : Silent sample :=
  silent_andThen silent_tick fun _ s w q => by
    simp only [State.takeSample]
    cases s.samples <;> exact ⟨rfl, q, rfl⟩

theorem silent_waitLoop (d : Cond) (k : Nat) : Silent (waitLoop d k) := by
  induction k with
  | zero => exact silent_andThen silent_sample fun _ => silent_ret _
  | succ k ih => exact silent_andThen silent_sample fun _ => silent_ite (silent_ret _) (silent_ite (silent_ret _) ih)

theorem silent_wait (d : Cond) : Silent (wait d) := fun s w q => silent_waitLoop d (condBudget s.cfg d - 1) s w q

theorem silent_waitOrRecover (d : Cond) : Silent (waitOrRecover d) :=
  silent_andThen (silent_wait d) fun _ => silent_ite (silent_ret _) <|
    silent_andThen (silent_andThen (silent_perform _) fun _ => silent_clearErr) fun _ => silent_ret _

theorem silent_sendByte (b : Byte) : Silent (sendByte b) :=
  silent_ifOk (silent_waitOrRecover _) <| silent_andThen (silent_perform _) fun _ => silent_waitOrRecover _

theorem silent_sendBytes (p : List Byte) : Silent (sendBytes p) := by
  induction p with
  | nil => exact silent_ret _
  | cons b p ih => exact silent_ifOk (silent_sendByte b) ih

theorem silent_startBus (d : Dir) : Silent (startBus d) :=
  silent_ifOk (silent_waitOrRecover _) <| silent_andThen (silent_perform _) fun _ =>
    silent_ifOk (silent_waitOrRecover _) <| silent_andThen (silent_perform _) fun _ => silent_waitOrRecover _

/-- A bus write changes no host register, so busy reads remember nothing of it. -/
theorem silent_writeBytes (p : List Byte) : Silent (writeBytes p) := by
  cases p with
  | nil => exact silent_ret _
  | cons b p =>
    exact silent_ifOk (silent_startBus _) <| silent_ifOk (silent_sendBytes _) <|
      silent_andThen (silent_perform _) fun _ => silent_ret _

theorem silent_receiveBytes (n k : Nat) : Silent (receiveBytes noSink n k) := by
  induction k with
  | zero => exact silent_ret _
  | succ k ih =>
    refine silent_andThen ?_ fun _ => silent_andThen (silent_waitOrRecover _) fun _ => silent_ite ?_ (silent_ret _)
    · exact silent_ite (silent_andThen (silent_setAck _) fun _ => silent_perform _) (silent_ret _)
    · exact silent_andThen silent_readData fun _ => silent_andThen (silent_ret _) fun _ =>
        silent_andThen ih fun _ => silent_ret _

/-- A register read changes no host register either. -/
theorem silent_readRegister (reg : Byte) : Silent (readRegister reg) := by
  refine silent_andThen (silent_andThen (silent_andThen ?_ fun _ => ?_) fun st => ?_) fun _ => silent_ret _
  · exact silent_ifOk (silent_startBus _) <| silent_ifOk (silent_sendByte _) <|
      silent_andThen (silent_perform _) fun _ => silent_ifOk (silent_waitOrRecover _) <|
      silent_andThen (silent_perform _) fun _ => silent_waitOrRecover _
  · exact silent_ite (silent_receiveBytes _ _) (silent_ret _)
  · refine silent_andThen (silent_setAck _) fun _ => silent_andThen (silent_wait _) fun idle s w q => ?_
    exact ⟨rfl, q, rfl⟩

/-- A silent piece that leaves the host registers alone: the state after it, all of it. -/
theorem polled_of_runs {m : Ctl α} {a : α} {s : State} {xs : List Snapshot} {ys : List Byte}
    (H : Runs c m n bs es r id a) (S : Silent m) (hc : s.cfg = c) (A : s.Answers n bs xs ys) :
    m s = .ok a (s.polled es xs ys r) := by
  obtain ⟨w, e⟩ := H s xs ys hc A
  have hw : w = s.written := S.written_eq A.quiet e
  rw [e, hw]
  rfl

/-! ### AUTOCAL: its setup as a list of writes, and what a failure does -/

/-- Register writes one after the other, each failing the command through `StopAbort(BUS)`. -/
def writesOrStop (c : Params) : List (Byte × Byte) → Ctl Unit
  | [] => ret ()
  | w :: ws => before (mustOrStop c (writeRegister w.1 w.2)) (writesOrStop c ws)

theorem before_ret_right (m : Ctl Unit) : before m (ret ()) = m := by
  funext s
  simp only [before, andThen]
  cases m s <;> rfl

/-- The setup phase: the first write, the settle delay, the other writes. -/
theorem acalSetup_eq (q : AcalRequest) :
    acalSetup c q = before (mustOrStop c (writeRegister c.regMode c.modeIntTrig))
      (before (delayMs c.settleMs.toNat) (writesOrStop c (setupRest c q))) := by
  simp only [setupRest, writesOrStop, before_ret_right]
  rfl

/-- A failing procedure of AUTOCAL: one DEV-STOP attempt, whatever it answers, then BUS. -/
theorem mustOrStop_of_fail {p : Ctl Bool} {s t u : State} {ok : Bool} (h : p s = .ok false t)
    (h' : writeRegister c.regGo 0 t = .ok ok u) : mustOrStop c p s = .stop (.fail .bus) u := by
  refine (andThen_of_ok h).trans ?_
  exact andThen_of_ok (show devStop c t = _ from h')

/-- A failing GO read of AUTOCAL: the same. -/
theorem pollGo_of_fail {s t u : State} {ok : Bool} (h : readRegister c.regGo s = .ok none t)
    (h' : writeRegister c.regGo 0 t = .ok ok u) : pollGo c s = .stop (.fail .bus) u := by
  refine (andThen_of_ok h).trans ?_
  exact andThen_of_ok (show devStop c t = _ from h')

/-- A failing hard result read: BUS at once, no DEV-STOP. -/
theorem hardRead_of_fail {reg : Byte} {off : Nat} {put : AcalResult → Byte → AcalResult} {s t : State}
    (h : readRegister reg s = .ok none t) : hardRead reg off put s = .stop (.fail .bus) t :=
  andThen_of_stop ((andThen_of_ok h).trans rfl)

theorem silent_stopAbort {cls : FailClass} : Silent (stopAbort c cls : Ctl α) :=
  silent_andThen (show Silent (writeRegister c.regGo 0) from silent_writeBytes _) fun _ => silent_fail _

theorem silent_mustOrStop {p : Ctl Bool} (h : Silent p) : Silent (mustOrStop c p) :=
  silent_andThen h fun _ => silent_ite (silent_ret _) silent_stopAbort

theorem silent_writesOrStop (ws : List (Byte × Byte)) : Silent (writesOrStop c ws) := by
  induction ws with
  | nil => exact silent_ret _
  | cons w ws ih => exact silent_andThen (silent_mustOrStop (silent_writeBytes _)) fun _ => ih

theorem silent_acalSetup (q : AcalRequest) : Silent (acalSetup c q) := by
  rw [acalSetup_eq]
  exact silent_andThen (silent_mustOrStop (silent_writeBytes _)) fun _ =>
    silent_andThen (silent_perform _) fun _ => silent_writesOrStop _

theorem silent_pollLoop (k : Nat) : Silent (pollLoop c k) := by
  have go : Silent (pollGo c) := silent_andThen (silent_readRegister _) fun v => by
    cases v with
    | none => exact silent_stopAbort
    | some g => exact silent_ret _
  induction k with
  | zero => exact silent_andThen go fun _ => silent_ret _
  | succ k ih =>
    exact silent_andThen go fun _ => silent_ite (silent_ret _) (silent_andThen (silent_perform _) fun _ => ih)

/-- What the entry actions of AUTOCAL leave. -/
theorem acalEntry_eq (rb : Bool) (s : State) : ∃ w, acalEntry rb s = .ok () { s with
    regs := if rb then { s.regs with res := AcalResult.zero } else s.regs, written := w } := by
  cases rb <;> exact ⟨_, rfl⟩

/-- The state after a register write on a bus that satisfies every wait at once. -/
theorem writeRegister_ready (reg v : Byte) {s : State} {xs : List Snapshot} {ys : List Byte}
    (H : s.Answers 7 [] xs ys) : writeRegister reg v s = .ok true (s.sent (wrEvents s.cfg reg v) xs) := by
  obtain ⟨w, e⟩ := runs_writeRegister (c := s.cfg) reg v s xs ys rfl H
  have hw : w = s.written := (silent_writeBytes _).written_eq H.quiet e
  have hy : s.rxBytes = ys := H.bytes
  rw [e, hw, ← hy]
  simp only [State.advance, State.sent, Bool.or_false, id]

end Sys2Proof.Machine
end

