-- ==== Sys2Proof/Tests/Slice0.lean ====
section
/-! SUPPORT. Tests: ill-formed parameter sets, words written out from the spec's encodings, vectors of 95_test_vectors.md
(its row is named in each docstring), and a witness for the hypotheses of every statement. -/

namespace Sys2Proof.Tests

open Sys2Proof.Machine

/-! ### Parameters -/

/-- REFCFG of 95_test_vectors.md. -/
def refCfg : Params where
  targetAddr := 0x5A
  wIdle := 4
  wEvent := 4
  dbufLen := 16
  maxFrames := 8
  settleMs := 10
  regStatus := 0x00
  regMode := 0x01
  regRtp := 0x02
  regLibrary := 0x03
  waveseqBase := 0x04
  regGo := 0x0C
  regOdt := 0x0D
  regSpt := 0x0E
  regSnt := 0x0F
  regBrt := 0x10
  regAudioCtrl := 0x11
  regAudioMin := 0x12
  regAudioMax := 0x13
  regRatedV := 0x16
  regOdClamp := 0x17
  regAcalComp := 0x18
  regAcalBemf := 0x19
  regFeedback := 0x1A
  regControl1 := 0x1B
  regControl2 := 0x1C
  regControl3 := 0x1D
  regControl4 := 0x1E
  regControl5 := 0x1F
  regVbat := 0x21
  regLraPeriod := 0x22
  modeIntTrig := 0
  modeExtEdge := 1
  modeExtLevel := 2
  modePwm := 3
  modeAudio := 4
  modeRtp := 5
  modeDiag := 6
  modeAutocal := 7
  goMask := 0x01
  fbLra := 0x80
  fbErm := 0x00
  libLra := 6
  effectStrongClick := 1
  audioMaxDefault := 0x64
  driveTimeReg := .control1
  dtFallback := 0x93
  burstMsReset := 0
  pauseMsReset := 0
  maxMvReset := 0
  cleanupIdleAffectsOutcome := false
  readResultsOnTimeout := false

theorem test_refCfg_wellFormed : refCfg.wellFormed = true := by decide

/-- Each constraint of 00_scope.md R10 refuses a parameter set that breaks it. -/
theorem test_illFormed_idleBudget : { refCfg with wIdle := 0 }.wellFormed = false := by decide
theorem test_illFormed_eventBudget : { refCfg with wEvent := 0 }.wellFormed = false := by decide
theorem test_illFormed_dbufShort : { refCfg with dbufLen := 1 }.wellFormed = false := by decide
theorem test_illFormed_dbufLong : { refCfg with dbufLen := 257 }.wellFormed = false := by decide
theorem test_illFormed_noFrames : { refCfg with maxFrames := 0 }.wellFormed = false := by decide
theorem test_illFormed_manyFrames : { refCfg with maxFrames := 257 }.wellFormed = false := by decide
theorem test_illFormed_slots : { refCfg with waveseqBase := 0xF9 }.wellFormed = false := by decide
theorem test_illFormed_regs : { refCfg with regGo := 0x0B }.wellFormed = false := by decide
theorem test_illFormed_modes : { refCfg with modeRtp := 7 }.wellFormed = false := by decide
theorem test_illFormed_goMask : { refCfg with goMask := 0x03 }.wellFormed = false := by decide
theorem test_illFormed_goMaskZero : { refCfg with goMask := 0x00 }.wellFormed = false := by decide

/-! ### Decoding: words put together from the tables of 30_encoding.md R81 and R84 -/

theorem test_decode_busWrite : decode 0b00000000_00010001_00000000_00000001 = .command (.busWrite 17) := by decide
theorem test_decode_busRead : decode 0b00000001_00000010_00010110_00000010 = .command (.busRead 0x16 2 true) := by
  decide
theorem test_decode_regWrite : decode 0b00000000_00000101_00000001_00000011 = .command (.regWrite 1 5) := by decide
theorem test_decode_regRead : decode 0b00000001_00000000_00010110_00000100 = .command (.regRead 0x16 true) := by
  decide
theorem test_decode_setWaveform : decode 0b00000000_00101111_00000111_00010000 = .command (.setWaveform 7 0x2F) := by
  decide
theorem test_decode_getWaveform : decode 0b00000001_00000000_00000011_00010001 = .command (.getWaveform 3 true) := by
  decide
theorem test_decode_clearSequence : decode 0b00000000_00000000_00000000_00010010 = .command .clearSequence := by decide
theorem test_decode_setSustain : decode 0b00000000_00100000_00010000_00010011 = .command (.setSustain 0x10 0x20) := by
  decide
theorem test_decode_encRated : decode 0b00000000_00000000_00000000_00100000 = .command .encRated := by decide
theorem test_decode_decRated : decode 0b00000000_00000000_10011011_00100001 = .command (.decRated 155) := by decide
theorem test_decode_encClamp : decode 0b00000000_00000000_00000000_00100010 = .command .encClamp := by decide
theorem test_decode_decClamp : decode 0b00000000_00000000_10110011_00100011 = .command (.decClamp 179) := by decide
theorem test_decode_defaultInit : decode 0b00000000_00000000_00000000_00110000 = .command .defaultInit := by decide
theorem test_decode_autocal : decode 0b00000001_00000000_00000000_00110001 = .command (.autocal true) := by decide
theorem test_decode_autocal_noBuffer : decode 0b00000000_00000000_00000000_00110001 = .command (.autocal false) := by
  decide
theorem test_decode_cdConfigure_lra : decode 0b00000110_01010000_00010011_01000001 =
    .command (.cdConfigure .lra 0x13 0x50 6) := by decide
theorem test_decode_cdConfigure_erm : decode 0b00000001_00100000_11111111_01000000 =
    .command (.cdConfigure .erm 0xFF 0x20 1) := by decide
theorem test_decode_cdStart : decode 0b00000000_00000000_00000000_01000010 = .command .cdStart := by decide
theorem test_decode_cdStop : decode 0b00000000_00000000_00000000_01000011 = .command .cdStop := by decide
theorem test_decode_rtPrepare : decode 0b00000000_00000000_00000000_01010000 = .command .rtPrepare := by decide
theorem test_decode_playFreqAmp : decode 0b00000000_00000000_01000000_01010001 = .command (.playFreqAmp 0x40) := by
  decide
theorem test_decode_playFreqVoltage : decode 0b00000000_00000000_00000000_01010010 = .command .playFreqVoltage := by
  decide
theorem test_decode_agStep : decode 0b00000000_00000000_00000000_01100000 = .command .agStep := by decide

/-- The ILLEGAL words of 95_test_vectors.md, "Encoding and decode". -/
theorem test_decode_illegal :
    decode 0x00000000 = .illegal .unassignedOpcode ∧ decode 0x00000005 = .illegal .unassignedOpcode ∧
    decode 0x000000FF = .illegal .unassignedOpcode ∧ decode 0x00000112 = .illegal .mustBeZero ∧
    decode 0x02000004 = .illegal .mustBeZero ∧ decode 0x00010004 = .illegal .mustBeZero ∧
    decode 0x00010101 = .illegal .mustBeZero ∧ decode 0x00014051 = .illegal .mustBeZero := by decide

/-- The words of 30_encoding.md R88, from the encoder. -/
theorem test_encode_R88 :
    encode (.regWrite 0x01 0x05) = 0x00050103 ∧ encode (.regRead 0x00 true) = 0x01000004 ∧
    encode (.cdConfigure .lra 0x13 0x50 6) = 0x06501341 ∧ encode (.playFreqAmp 0x40) = 0x00004051 := by decide

/-- 30_encoding.md R89: `SET_RTP 0xFF` is the word of `REG_WRITE REG_RTP, 0x7F` (vector G5). -/
theorem test_pseudo_setRtp : encode (expandPseudo refCfg (.setRtp 0xFF)) = 0x007F0203 := by decide

theorem test_tableWord : decodeTableWord 8 0x41 = some (.cdConfigure .lra 0 0 0) ∧ decodeTableWord 32 0x00014051 = none := by
  decide

/-! ### One command at a time -/

/-- REFCFG after reset, the bus answering `xs` and then the bytes `bs`. -/
def bus (xs : List Snapshot) (bs : List Byte) : State := { State.init refCfg with samples := xs, rxBytes := bs }

/-- The REF environment with `n` samples. -/
def ready (n : Nat) (bs : List Byte) : State := bus (List.replicate n readySnapshot) bs

/-- The snapshot of a fault injected with AF: no condition holds. -/
def nack : Snapshot := ⟨true, false, false, false, false, false, false, true, false, false⟩

/-- A snapshot in which no condition holds and no flag is set. -/
def waiting : Snapshot := ⟨true, false, false, false, false, false, false, false, false, false⟩

/-- `FI(k, AF)`: the `k`-th sample shows the flag, the others are ready. -/
def failAt (k n : Nat) (bs : List Byte) : State :=
  bus (List.replicate (k - 1) readySnapshot ++ [nack] ++ List.replicate n readySnapshot) bs

/-- The next state of an outcome; another outcome gives the state after reset. -/
def after : Host.Outcome State Fault Refusal → State
  | .next s => s
  | .fault _ => State.reset
  | .refused _ => State.reset

/-- The state after command `i`. -/
def run (i : Instr) (s : State) : State := after (exec i s)

/-- `H_STATUS` and the event trace, which a vector gives. -/
def outcome (s : State) : Word × List Event := (s.hostWord 0x000, s.trace)

def P : Event := .poll readySnapshot
def N : Event := .poll nack

/-- `WR(r, v)` of 95_test_vectors.md. -/
def WR (r v : Byte) : List Event :=
  [P, .start, P, .addr 0x5A .w, P, P, .tx r, P, P, .tx v, P, .stop]

/-- `RD(r)->v` of 95_test_vectors.md. -/
def RD (r v : Byte) : List Event :=
  [P, .start, P, .addr 0x5A .w, P, P, .tx r, P, .start, P, .addr 0x5A .r, P, .ack false, .stop, P, .rx v, .ack true, P]

/-- A write whose address is not acknowledged. -/
def addrNack : List Event := [P, .start, P, .addr 0x5A .w, N, .stop, .clr]

/-- Vector B1. -/
theorem test_busWrite_four :
    outcome (run (.busWrite 4) ((ready 11 []).hostStore 0x100 0x44332211)) = (0x06,
      [P, .start, P, .addr 0x5A .w, P, P, .tx 0x11, P, P, .tx 0x22, P, P, .tx 0x33, P, P, .tx 0x44, P, .stop]) := by
  decide +kernel

/-- Vector B7: the second data byte is not acknowledged. -/
theorem test_busWrite_dataNack :
    outcome (run (.busWrite 2) ((failAt 7 0 []).hostStore 0x100 0x2211)) = (0x12,
      [P, .start, P, .addr 0x5A .w, P, P, .tx 0x11, P, P, .tx 0x22, N, .stop, .clr]) := by decide +kernel

/-- Vector B9. -/
theorem test_busRead_two :
    let s := run (.busRead 0x16 2 true) (ready 10 [0x3E, 0x8C])
    outcome s = (0x06, [P, .start, P, .addr 0x5A .w, P, P, .tx 0x16, P, .start, P, .addr 0x5A .r, P, P, .rx 0x3E,
      .ack false, .stop, P, .rx 0x8C, .ack true, P]) ∧ s.mem = [(0x100, 0x3E), (0x101, 0x8C)] := by decide +kernel

/-- Vector B14: the wait for the last byte runs out its budget, so there are two STOPs. -/
theorem test_busRead_lastByteTimeout :
    let w := Event.poll waiting
    outcome (run (.busRead 0x16 1 true) (bus (List.replicate 7 readySnapshot ++ List.replicate 4 waiting ++
      [readySnapshot]) [])) = (0x12, [P, .start, P, .addr 0x5A .w, P, P, .tx 0x16, P, .start, P, .addr 0x5A .r, P,
      .ack false, .stop, w, w, w, w, .stop, .clr, .ack true, P]) := by decide +kernel

/-- Vector G6: no clamp. -/
theorem test_regWrite : outcome (run (.regWrite 0x02 0xFF) (ready 7 [])) = (0x06, WR 0x02 0xFF) := by decide +kernel

/-- Vector B5, on REG_WRITE: the bus stays busy. -/
theorem test_regWrite_busBusy :
    let w := Event.poll waiting
    outcome (run (.regWrite 0x02 0xFF) (bus (List.replicate 4 waiting) [])) = (0x12, [w, w, w, w, .stop, .clr]) := by
  decide +kernel

/-- Vector G2. -/
theorem test_regRead :
    let s := run (.regRead 0x00 true) (ready 9 [0xE0])
    outcome s = (0x06, RD 0x00 0xE0) ∧ s.hostWord 0x014 = 0xE0 := by decide +kernel

/-- Vector G4. -/
theorem test_regRead_nack : outcome (run (.regRead 0x00 true) (failAt 3 1 [])) =
    (0x12, [P, .start, P, .addr 0x5A .w, N, .stop, .clr, .ack true, P]) := by decide +kernel

/-- Vector W1. -/
theorem test_setWaveform : outcome (run (.setWaveform 7 0x2F) (ready 7 [])) = (0x06, WR 0x0B 0x2F) := by decide +kernel

/-- Vector W2. -/
theorem test_setWaveform_range : outcome (run (.setWaveform 8 1) (ready 7 [])) = (0x22, []) := by decide +kernel

/-- Vector W3. -/
theorem test_getWaveform :
    let s := run (.getWaveform 3 true) (ready 9 [0x2F])
    outcome s = (0x06, RD 0x07 0x2F) ∧ s.hostWord 0x014 = 0x2F := by decide +kernel

/-- Vector W4. -/
theorem test_getWaveform_range : outcome (run (.getWaveform 255 true) (ready 9 [0])) = (0x22, []) := by decide +kernel

/-- Vector W5. -/
theorem test_clearSequence : outcome (run .clearSequence (ready 49 [])) =
    (0x06, WR 0x05 0 ++ WR 0x06 0 ++ WR 0x07 0 ++ WR 0x08 0 ++ WR 0x09 0 ++ WR 0x0A 0 ++ WR 0x0B 0) := by decide +kernel

/-- Vector W6. -/
theorem test_clearSequence_fourth : outcome (run .clearSequence (failAt 24 0 [])) =
    (0x12, WR 0x05 0 ++ WR 0x06 0 ++ WR 0x07 0 ++ addrNack) := by decide +kernel

/-- Vector W7. -/
theorem test_setSustain : outcome (run (.setSustain 0x10 0x20) (ready 14 [])) =
    (0x06, WR 0x0E 0x10 ++ WR 0x0F 0x20) := by decide +kernel

/-- Vector W8. -/
theorem test_setSustain_second : outcome (run (.setSustain 0x10 0x20) (failAt 10 0 [])) =
    (0x12, WR 0x0E 0x10 ++ addrNack) := by decide +kernel

/-- The machine after reset with `v` in `H_ARG0`. -/
def withArg0 (v : Word) : State := (ready 0 []).hostStore 0x008 v

/-- The codec table of 95_test_vectors.md: 3300 and 5428 mV; the higher bits of `H_ARG0` are ignored. -/
theorem test_encRated : (run .encRated (withArg0 3300)).hostWord 0x014 = 155 ∧
    (run .encRated (withArg0 0xFFFF1534)).hostWord 0x014 = 254 := by decide +kernel

/-- 65535 mV saturates, and the command is READY. -/
theorem test_encRated_saturates : (run .encRated (withArg0 65535)).hostWord 0x014 = 255 ∧
    outcome (run .encRated (withArg0 65535)) = (0x06, []) := by decide +kernel

theorem test_decRated : (run (.decRated 155) (ready 0 [])).hostWord 0x014 = 3306 ∧
    (run (.decRated 255) (ready 0 [])).hostWord 0x014 = 5439 := by decide +kernel

theorem test_encClamp : (run .encClamp (withArg0 1425)).hostWord 0x014 = 254 ∧
    (run .encClamp (withArg0 1426)).hostWord 0x014 = 255 := by decide +kernel

theorem test_decClamp : (run (.decClamp 179) (ready 0 [])).hostWord 0x014 = 1002 ∧
    (run (.decClamp 255) (ready 0 [])).hostWord 0x014 = 1428 := by decide +kernel

/-- Vector R1. -/
theorem test_defaultInit : outcome (run .defaultInit (ready 119 [])) =
    (0x06, WR 0x01 0x00 ++ [.dms 10] ++ WR 0x1A 0x80 ++ WR 0x03 0x06 ++ WR 0x04 0x01 ++ WR 0x05 0 ++ WR 0x06 0 ++
      WR 0x07 0 ++ WR 0x08 0 ++ WR 0x09 0 ++ WR 0x0A 0 ++ WR 0x0B 0 ++ WR 0x0D 0 ++ WR 0x0E 0 ++ WR 0x0F 0 ++
      WR 0x10 0 ++ WR 0x13 0x64 ++ WR 0x01 0x05) := by decide +kernel

/-- Vector R2. -/
theorem test_defaultInit_second : outcome (run .defaultInit (failAt 10 0 [])) =
    (0x12, WR 0x01 0x00 ++ [.dms 10] ++ addrNack) := by decide +kernel

/-- The request of program P2. -/
def acalRequest (s : State) : State :=
  ((s.hostStore 0x040 0x0000E854).hostStore 0x044 0x2080F593).hostStore 0x048 0x00320080

/-- Program P2: 358 events and the result registers. -/
theorem test_autocal :
    let s := run (.autocal true)
      (acalRequest (ready 190 [1, 1, 1, 0, 0xE0, 0x08, 0x9A, 0x54, 0xE8, 0xB4, 0x33]))
    s.trace = WR 0x01 0x00 ++ [.dms 10] ++ WR 0x1A 0x80 ++ WR 0x03 0x06 ++ WR 0x16 0x54 ++ WR 0x17 0xE8 ++
      WR 0x1B 0x93 ++ WR 0x1C 0xF5 ++ WR 0x1D 0x80 ++ WR 0x1E 0x20 ++ WR 0x1F 0x80 ++ WR 0x01 0x07 ++ WR 0x0C 0x01 ++
      RD 0x0C 1 ++ [.dms 1] ++ RD 0x0C 1 ++ [.dms 1] ++ RD 0x0C 1 ++ [.dms 1] ++ RD 0x0C 0 ++ WR 0x0C 0x00 ++
      RD 0x00 0xE0 ++ RD 0x18 0x08 ++ RD 0x19 0x9A ++ RD 0x16 0x54 ++ RD 0x17 0xE8 ++ RD 0x21 0xB4 ++ RD 0x22 0x33 ∧
    s.hostWord 0x000 = 0x06 ∧ s.hostWord 0x050 = 0x549A08E0 ∧ s.hostWord 0x054 = 0x0A33B4E8 := by decide +kernel

/-- Vector R7: the battery read fails (sample 3 of it), the resonance read does not. -/
theorem test_autocal_battery :
    let s := run (.autocal true) (failAt (84 + 9 + 7 + 45 + 3) 10 [0, 1, 2, 3, 4, 5, 0x33])
    s.hostWord 0x000 = 0x06 ∧ s.hostWord 0x050 = 0x04030201 ∧ s.hostWord 0x054 = 0x09330005 := by decide +kernel

/-- Vector R10. -/
theorem test_cdConfigure :
    let s := run (.cdConfigure .lra 0x13 0xFF 6) (ready 30 [0xA5])
    outcome s = (0x06, WR 0x1A 0x80 ++ WR 0x03 0x06 ++ RD 0x1B 0xA5 ++ WR 0x1B 0x93) ∧
      s.hostWord 0x018 = 0x00007F01 := by decide +kernel

/-- Vector R11: the drive-time read is not acknowledged. -/
theorem test_cdConfigure_fallback :
    let s := run (.cdConfigure .erm 0xFF 0x20 1) (failAt 17 8 [])
    outcome s = (0x06, WR 0x1A 0x00 ++ WR 0x03 0x01 ++ addrNack ++ [.ack true, P] ++ WR 0x1B 0xBF) ∧
      s.hostWord 0x018 = 0x00002001 := by decide +kernel

/-- The session CONFIGURED_IDLE with strength 0x50. -/
def configured (s : State) : State := { s with regs := { s.regs with cdState := .configuredIdle, cdStrength := 0x50 } }

/-- Program P3: CD_START of a configured session. -/
theorem test_cdStart :
    let s := run .cdStart (configured (ready 21 []))
    outcome s = (0x06, WR 0x01 0x05 ++ WR 0x02 0x50 ++ WR 0x0C 0x01) ∧ s.hostWord 0x018 = 0x00005002 := by decide +kernel

/-- Vector R9. -/
theorem test_cdStart_unconfigured : outcome (run .cdStart (ready 21 [])) = (0x22, []) := by decide +kernel

/-- Vector R13. -/
theorem test_cdStop_unconfigured :
    let s := run .cdStop (ready 14 [])
    outcome s = (0x06, WR 0x02 0 ++ WR 0x0C 0) ∧ s.hostWord 0x018 = 0 := by decide +kernel

/-- CD_STOP from RUNNING whose DEV-STOP fails: the state is unchanged (44_timed_routines.md R182). -/
theorem test_cdStop_fails :
    let s := (ready 0 []).regs
    let t := run .cdStop { failAt 10 0 [] with regs := { s with cdState := .running } }
    outcome t = (0x12, WR 0x02 0 ++ addrNack) ∧ t.hostWord 0x018 = 2 := by decide +kernel

/-- Vector R14. -/
theorem test_rtPrepare :
    let s := run .rtPrepare (ready 28 [])
    outcome s = (0x06, WR 0x01 0x00 ++ [.dms 10] ++ WR 0x1A 0x80 ++ WR 0x03 0x06 ++ WR 0x01 0x05) ∧
      s.hostWord 0x01C = 1 := by decide +kernel

/-- Vector R16. -/
theorem test_rtPrepare_last :
    let s := run .rtPrepare (failAt 24 0 [])
    outcome s = (0x12, WR 0x01 0x00 ++ [.dms 10] ++ WR 0x1A 0x80 ++ WR 0x03 0x06 ++ addrNack) ∧
      s.hostWord 0x01C = 0 := by decide +kernel

/-- The registers of program P4: burst 20 ms, pause 5 ms, maximum 3000 mV, 200 Hz, 1500 mV. -/
def burst (s : State) : State :=
  ((((s.hostStore 0x020 20).hostStore 0x024 5).hostStore 0x028 3000).hostStore 0x008 200).hostStore 0x00C 1500

/-- `RT_READY = 1`. -/
def prepared (s : State) : State := { s with regs := { s.regs with rtReady := true } }

/-- Program P4, step 1. -/
theorem test_playFreqAmp :
    let s := run (.playFreqAmp 0x90) (burst (ready 56 []))
    let cycle := WR 0x02 0x7F ++ [.dus 5000] ++ WR 0x02 0 ++ [.dus 5000]
    outcome s = (0x06, WR 0x01 0x00 ++ [.dms 10] ++ WR 0x1A 0x80 ++ WR 0x03 0x06 ++ WR 0x01 0x05 ++ cycle ++ cycle ++
      [.dms 5]) ∧ s.hostWord 0x01C = 1 := by decide +kernel

/-- Vector R18: the zero write is not acknowledged. -/
theorem test_playFreqAmp_zeroWrite :
    outcome (run (.playFreqAmp 0x40) (prepared ((((failAt 10 0 []).hostStore 0x008 250).hostStore 0x020 10)))) =
      (0x12, WR 0x02 0x40 ++ [.dus 4000] ++ addrNack) := by decide +kernel

/-- Program P4, step 2. -/
theorem test_playFreqVoltage :
    let cycle := WR 0x02 0x40 ++ [.dus 5000] ++ WR 0x02 0 ++ [.dus 5000]
    outcome (run .playFreqVoltage (burst (prepared (ready 28 [])))) = (0x06, cycle ++ cycle ++ [.dms 5]) := by
  decide +kernel

/-- Vector R20. -/
theorem test_playFreqVoltage_noFrequency :
    outcome (run .playFreqVoltage ((burst (ready 28 [])).hostStore 0x008 0)) = (0x22, []) := by decide +kernel

/-- A one-frame group, hold 100 ms, amplitude 0x80. -/
def group (s : State) : State := ((s.hostStore 0x200 0x00006480).hostStore 0x030 200).hostStore 0x02C 1

/-- Vector R22 with a hold. -/
theorem test_agStep :
    let s := run .agStep (group (ready 7 []))
    outcome s = (0x06, WR 0x02 0x7F ++ [.dms 100]) ∧ s.hostWord 0x034 = 1 := by decide +kernel

/-- Program P4, step 5: the end of the group. -/
theorem test_agStep_wraps :
    let s := group (ready 7 [])
    let t := run .agStep { s with regs := { s.regs with agCursor := 1 } }
    outcome t = (0x06, WR 0x02 0x00 ++ [.dms 200]) ∧ t.hostWord 0x034 = 0 := by decide +kernel

/-! ### The host interface -/

/-- A step of the machine whose host makes the move `m`. -/
def move (m : HostMove) (s : State) : State := after (step { s with host := [m] })

/-- A machine on which a command is running. -/
def running (s : State) : State := { s with regs := { s.regs with status := { s.regs.status with busy := true } } }

/-- Vectors H1 and H2. -/
theorem test_host_overrun :
    let s := move (.write 0x004 4 0x30) (running (ready 0 []))
    s.hostWord 0x000 = 0x9 ∧ s.hostWord 0x004 = 0 ∧ (move (.write 0x000 4 0xA) s).hostWord 0x000 = 0x1 := by
  decide +kernel

/-- Vector H3. -/
theorem test_host_agCount :
    let s := move (.write 0x02C 4 0x3FF) { ready 0 [] with regs := { (ready 0 []).regs with agCursor := 5 } }
    s.hostWord 0x02C = 8 ∧ s.hostWord 0x034 = 0 := by decide +kernel

/-- Vectors H4 and H5. -/
theorem test_host_dbuf :
    let s := move (.write 0x100 4 0x44332211) (ready 0 [])
    s.dbufByte 0 = 0x11 ∧ s.dbufByte 3 = 0x44 ∧ s.hostWord 0x100 = 0x44332211 ∧ s.hostWord 0x110 = 0 := by decide +kernel

/-- Vector H6. -/
theorem test_host_readOnly : (move (.write 0x014 4 0xFFFF) (ready 0 [])).hostWord 0x014 = 0 := by decide +kernel

/-- A misaligned access and one of another width are refused (20_memory.md R61). -/
theorem test_host_shape :
    step { ready 0 [] with host := [.read 0x001 4] } = .refused .hostAccessShape ∧
    step { ready 0 [] with host := [.write 0x100 2 0] } = .refused .hostAccessShape :=
  ⟨rfl, rfl⟩

/-- An ILLEGAL word completes with `H_STATUS = 0x42` and an empty trace (program P5). -/
theorem test_host_illegal : outcome (move (.write 0x004 4 0x00010012) (ready 0 [])) = (0x42, []) := by decide +kernel

/-- A reset during a command: no completion step, and the peripheral is left as it was (70_reset_and_hazards.md R250). -/
theorem test_host_reset :
    let s := after (step { ready 7 [] with host := [.write 0x004 4 0x00050103, .pass, .pass, .reset] })
    outcome s = (0, [P, .start]) ∧ s.hostWord 0x004 = 0 ∧ s.resets = 1 := by decide +kernel

/-- The command of `withFetchWord` is the one the next step runs, from the state after reset too. -/
theorem test_withFetchWord :
    ((after (step ((ready 0 []).withFetchWord 32 0x00009B21))).hostWord 0x014 = 3306) ∧
    (after (step (State.reset.withFetchWord 8 0x22))).regs.cmd = 0x22 := by decide +kernel

/-! ### The wait primitive: vectors V1 to V6, with a budget of 3 -/

/-- The answer of `Wait(txe, 3)` on the samples `xs`, and how many it leaves. -/
def waitTxe (xs : List Snapshot) : Option (Bool × Nat) :=
  match wait .txe { bus xs [] with cfg := { refCfg with wEvent := 3 } } with
  | .ok ok s => some (ok, s.samples.length)
  | .stop _ _ => none

def arlo : Snapshot := { waiting with arlo := true }
def readyBerr : Snapshot := { readySnapshot with berr := true }

theorem test_wait :
    waitTxe [readySnapshot] = some (true, 0) ∧ waitTxe [waiting, waiting, readySnapshot] = some (true, 0) ∧
    waitTxe [waiting, waiting, waiting, readySnapshot] = some (false, 1) ∧ waitTxe [waiting, nack] = some (false, 0) ∧
    waitTxe [readyBerr] = some (true, 0) ∧ waitTxe [arlo] = some (false, 0) := by decide +kernel

/-- An idle wait that fails at its first sample gives three events (70_reset_and_hazards.md R265). -/
theorem test_write_idleError : outcome (run (.regWrite 0x02 0xFF) (bus [nack] [])) = (0x12, [N, .stop, .clr]) := by
  decide +kernel

/-! ### Witnesses: states and operands that meet the hypotheses of the statements -/

theorem answers_of {s : State} {n : Nat} {bs : List Byte} (h : s.host = [])
    (hs : s.samples = List.replicate n readySnapshot) (hb : s.rxBytes = bs) : s.Answers n bs [] [] :=
  ⟨h, by simp [hs], by simp [hb]⟩

theorem ready_answers (n : Nat) (bs : List Byte) : (ready n bs).Answers n bs [] [] := answers_of rfl rfl rfl

theorem exec_run (i : Instr) (s : State) : exec i s = .next (run i s) := by cases i <;> rfl

/-- The value a piece of pseudocode answers. -/
def value {α : Type} : Run α → Option α
  | .ok a _ => some a
  | .stop _ _ => none

theorem ok_of {α : Type} {r : Run α} {a : α} (h : value r = some a) : ∃ t, r = .ok a t := by
  cases r with
  | ok b t => exact ⟨t, by simp only [value, Option.some.injEq] at h; rw [h]⟩
  | stop w t => simp [value] at h

/-- `DecodingTotalAndUnambiguous`: a row selects the word, and a command is decoded from it. -/
theorem witness_unambiguous : (∃ r ∈ opcodeTable, r.selects 0x00000041 = true) ∧
    decode 0x00000041 = .command (.cdConfigure .lra 0 0 0) := by decide

/-- `IllegalWords`. -/
theorem witness_illegal : (ready 0 []).host = [] ∧ decode 0x00000061 = .illegal .unassignedOpcode ∧
    decode 0x00000161 = .illegal .unassignedOpcode ∧ decode 0x00000160 = .illegal .mustBeZero := by decide

/-- `StepRunsAcceptedWord`, for a command and for an ILLEGAL word, with more moves to come. -/
theorem witness_accepted :
    let s (w : Word) : State := { ready 7 [] with host := [.write 0x004 4 w, .pass, .read 0x000 4] }
    (s 0x00050103).regs.status.busy = false ∧ (∀ m ∈ (s 0).host, m.legal = true) ∧
    decode 0x00050103 = .command (.regWrite 1 5) ∧ decode 0 = .illegal .unassignedOpcode := by decide

/-- `AccessShapeRefused`: the bad access need not be the next one; a good schedule is run. -/
theorem witness_shape : step { ready 0 [] with host := [.pass, .read 0x002 4] } = .refused .hostAccessShape ∧
    ∃ t, step { ready 0 [] with host := [.pass, .read 0x000 4] } = .next t := ⟨rfl, _, rfl⟩

/-- The running machine after the command has written `H_RDATA`. -/
def writtenOnce : State := { running (ready 0 []) with written := [(0x014, 0), (0x014, 7)] }

/-- A machine in the middle of a command whose host is going to make the moves `q`. -/
def due (q : List HostMove) : State := { running (ready 0 []) with host := q }

/-- `HostReadReturnsValue`: a step, idle and busy, and a turn with a read and with a pass. -/
theorem witness_hostRead : (due [.read 0x014 4, .pass]).host = .read 0x014 4 :: [.pass] ∧
    (due [.read 0x014 4, .pass]).writtenAt 0x014 = [] ∧ (due [.pass]).host = .pass :: [] ∧ (due []).host = [] ∧
    (ready 0 []).regs.status.busy = false ∧ (running (ready 0 [])).regs.status.busy = true ∧
    (running (ready 0 [])).writtenAt 0x014 = [] ∧ (HostMove.read 0x014 4).legal = true := by decide

/-- `BusyReadAmongWritten`: a read due of a register that has been written, and the two ways a write extends the list. -/
theorem witness_busyRead : { writtenOnce with host := [.read 0x014 4] }.writtenAt 0x014 = [0, 7] ∧
    (running (ready 0 [])).writtenAt 0x014 = [] ∧
    (match setRdata 9 writtenOnce with
      | .ok _ t => t.writtenAt 0x014
      | .stop _ _ => []) = [0, 7, 9] ∧
    (match setCdState .running writtenOnce with
      | .ok _ t => t.writtenAt 0x018
      | .stop _ _ => []) = [0, 2] := by decide

/-- `StatusAndBusyWrites`, a write that is due in the middle of a command: DONE is set by no command, OVERRUN is. -/
theorem witness_busyWrite :
    (run (.regWrite 1 5) { ready 7 [] with host := [.write 0x008 4 5] }).hostWord 0x000 = 0xE ∧
    (run (.regWrite 1 5) { ready 7 [] with host := [.write 0x008 4 5, .pass, .write 0x000 4 0x8] }).hostWord 0x000 = 6 ∧
    (run (.regWrite 1 5) { ready 7 [] with host := [.write 0x008 4 5] }).hostWord 0x008 = 0 := by decide +kernel

/-- `StatusAndBusyWrites`, both clauses about a step. -/
theorem witness_statusWrite : (HostMove.write 0x000 4 0xA).legal = true ∧ (HostMove.write 0x008 4 1).legal = true ∧
    (HostMove.write 0x7FC 4 1).legal = true ∧ (running (ready 0 [])).regs.status.busy = true := by decide

/-- `PlainRegistersReadBack`: a write on the idle machine, with more moves to come. -/
theorem witness_idleWrite :
    let s : State := { ready 0 [] with host := [.write 0x020 4 0xFFFF0014, .pass] }
    (∀ m ∈ s.host, m.legal = true) ∧ s.regs.status.busy = false ∧ (0x020 : BitVec 11) ≠ 0x004 ∧
    (after (step s)).hostWord 0x020 = 0x14 := by decide +kernel

/-- `PlainRegistersReadBack`. -/
theorem witness_plain : plainMask 0x008 = some 0xFFFFFFFF ∧ plainMask 0x00C = some 0xFFFFFFFF ∧
    plainMask 0x010 = some 0xFFFFFFFF ∧ plainMask 0x020 = some 0xFFFF ∧ plainMask 0x030 = some 0xFFFF ∧
    plainMask 0x040 = some 0xFFFF ∧ plainMask 0x044 = some 0xFFFFFFFF ∧ plainMask 0x048 = some 0xFFFF00FF := by decide

/-- `IgnoredWrites`: the first and the last empty offset of each window. -/
theorem witness_empty : ∀ off ∈ [0x038, 0x058, 0x0FC, 0x110, 0x1FC, 0x220, 0x7FC], emptyOffset refCfg off := by
  unfold emptyOffset; decide

/-- The windows that are not empty. -/
theorem witness_notEmpty : ∀ off ∈ [0x000, 0x054, 0x100, 0x10C, 0x200, 0x21C], ¬ emptyOffset refCfg off := by
  unfold emptyOffset; decide

/-- `DbufLittleEndian` and `FramesReadBack`: the boundary words; word 4 is above `DBUF_LEN = 16`. -/
theorem witness_buffers :
    let s := ((ready 0 []).hostStore 0x10C 0x44332211).hostStore 0x21C 0x00006480
    (7 : Nat) < refCfg.maxFrames.toNat ∧ s.hostWord 0x10C = 0x44332211 ∧ s.hostWord 0x21C = 0x00006480 ∧
    (s.hostStore 0x110 5).hostWord 0x110 = 0 ∧ s.hostWord (0x100 + 4 * 63) = 0 := by decide +kernel

/-- `ResetTakesEffect`: an idle reset, one before the first controller step, one in the middle. -/
theorem witness_reset :
    (after (step { ready 0 [] with host := [.reset, .pass] })).resets = 1 ∧
    (run (.regWrite 1 5) { ready 7 [] with host := [.reset, .pass] }).trace = [] ∧
    (run (.regWrite 1 5) { ready 7 [] with host := [.pass, .reset] }).trace = [P] ∧
    value (must (writeRegister 1 5) { ready 7 [] with host := [.reset] }) = none := by decide +kernel

/-- `CompletionStep`, both outcomes. -/
theorem witness_completion : ret () (ready 0 []) = .ok () (ready 0 []) ∧ (ready 0 []).host = [] ∧
    (fail .timing : Ctl Unit) (ready 0 []) = .stop (.fail .timing) (ready 0 []) := ⟨rfl, rfl, rfl⟩

/-- A schedule of host moves without a reset. -/
def meddled (s : State) : State :=
  { s with host := [.write 0x008 4 5, .pass, .write 0x000 4 0xA, .pass, .pass, .read 0x014 4, .write 0x004 4 0x31] }

/-- `EveryCommandEnds`, `CommandsKeepRegisters`, `CommandsKeepMemory` and the others over every command: the hypotheses,
with a quiet and with a busy host. -/
theorem witness_commands : (ready 7 []).NoReset ∧ (meddled (ready 7 [])).NoReset ∧
    (∀ i, ∃ t, exec i (ready 7 []) = .next t) ∧ ∀ i, ∃ t, exec i (meddled (ready 7 [])) = .next t :=
  ⟨by unfold State.NoReset; decide, by unfold State.NoReset; decide, fun i => ⟨_, exec_run i _⟩,
    fun i => ⟨_, exec_run i _⟩⟩

/-- `BusWriteCompletes`: no byte, and as many as DBUF holds. -/
theorem witness_busWrite : (ready 0 []).Answers 0 [] [] [] ∧ (16 : Byte).toNat ≤ refCfg.dbufLen.toNat ∧
    (16 : Byte) ≠ 0 ∧ (ready (3 + 2 * 16) []).Answers (3 + 2 * 16) [] [] [] :=
  ⟨ready_answers _ _, by decide, by decide, ready_answers _ _⟩

/-- `BusReadCompletes`: no byte, and as many as DBUF holds. -/
theorem witness_busRead : (ready 0 []).Answers 0 [] [] [] ∧ (16 : Byte).toNat ≤ refCfg.dbufLen.toNat ∧
    (List.replicate 16 (0x3E : Byte)).length = (16 : Byte).toNat ∧
    (ready (8 + 16) (List.replicate 16 0x3E)).Answers (8 + 16) (List.replicate 16 0x3E) [] [] :=
  ⟨ready_answers _ _, by decide, by decide, ready_answers _ _⟩

/-- `RegWriteCompletes`, `GettersComplete`, `SetWaveformCompletes`: slots 0 and 7. -/
theorem witness_register : (ready 7 []).Answers 7 [] [] [] ∧ (ready 9 [0xE0]).Answers 9 [0xE0] [] [] ∧
    (0 : Byte).toNat ≤ 7 ∧ (7 : Byte).toNat ≤ 7 :=
  ⟨ready_answers _ _, ready_answers _ _, by decide, by decide⟩

/-- `ClearSequenceCompletes`. -/
theorem witness_clearSequence : (ready 49 []).Answers 49 [] [] [] := ready_answers _ _

/-- `ClearSequenceAborts`: the first slot and the last one fail. -/
theorem witness_clearSequenceAborts :
    (failAt 3 0 []).Answers 0 [] (failAt 3 0 []).samples [] ∧
    (bus (List.replicate 42 readySnapshot ++ [nack]) []).Answers 42 [] [nack] [] ∧
    (∃ t, writeRegister 5 0 ((failAt 3 0 []).sent [] (failAt 3 0 []).samples) = .ok false t) ∧
    (∃ t, writeRegister 11 0 ((bus (List.replicate 42 readySnapshot ++ [nack]) []).sent
      (wrAll refCfg [(5, 0), (6, 0), (7, 0), (8, 0), (9, 0), (10, 0)]) [nack]) = .ok false t) :=
  ⟨⟨rfl, rfl, rfl⟩, ⟨rfl, rfl, rfl⟩, ok_of (by decide +kernel), ok_of (by decide +kernel)⟩

/-- `SetSustainCompletes`, its three clauses. -/
theorem witness_setSustain : (ready 14 []).Answers 14 [] [] [] ∧
    (∃ t, writeRegister 0x0E 0x10 (bus [nack] []) = .ok false t) ∧
    (bus (List.replicate 7 readySnapshot ++ [nack]) []).Answers 7 [] [nack] [] ∧
    (∃ t, writeRegister 0x0F 0x20 ((bus (List.replicate 7 readySnapshot ++ [nack]) []).sent
      (wrEvents refCfg 0x0E 0x10) [nack]) = .ok false t) :=
  ⟨ready_answers _ _, ok_of (by decide +kernel), ⟨rfl, rfl, rfl⟩, ok_of (by decide +kernel)⟩

/-- `DefaultInitCompletes`. -/
theorem witness_defaultInit : (ready 119 []).Answers 119 [] [] [] := ready_answers _ _

/-- A request with a time-out of 1 ms. -/
def oneMs (s : State) : State := s.hostStore 0x048 0x00010000

/-- `AutocalCompletes`: GO set once, then clear, with the shortest time-out and with the default one; the result bytes. -/
theorem witness_autocal :
    (1 : Byte) &&& refCfg.goMask ≠ 0 ∧ (0 : Byte) &&& refCfg.goMask = 0 ∧ (oneMs (ready 0 [])).regs.req.timeoutMs = 1 ∧
    (ready 0 []).regs.req.timeoutMs = 0 ∧
    (oneMs (ready (84 + 9 * 2 + 7) [1, 0])).Answers (84 + 9 * 2 + 7) [1, 0] [] [] ∧
    (oneMs (ready (84 + 9 * 2 + 7 + 63) [1, 0, 1, 2, 3, 4, 5, 6, 7])).Answers (84 + 9 * 2 + 7 + 63)
      ([1, 0] ++ (⟨1, 2, 3, 4, 5, 6, 7⟩ : ResultBytes).bytes) [] [] :=
  ⟨by decide, by decide, rfl, rfl, answers_of rfl rfl rfl, answers_of rfl rfl rfl⟩

/-- `AutocalTimesOut`: GO set at both reads, with a time-out of 1 ms. -/
theorem witness_autocalTimesOut : refCfg.readResultsOnTimeout = false ∧ (1 : Byte) &&& refCfg.goMask ≠ 0 ∧
    (oneMs (ready (84 + 9 * 2 + 7) [1, 1])).Answers (84 + 9 * 2 + 7) [1, 1] [] [] ∧
    (run (.autocal true) (oneMs (ready (84 + 9 * 2 + 7) [1, 1]))).regs.status.errClass = some .timing :=
  ⟨rfl, by decide, answers_of rfl rfl rfl, by decide +kernel⟩

/-- `AutocalTimesOut`, the first and the last setup write fail: the entry, the failing write, the DEV-STOP attempt. -/
theorem witness_autocalSetup :
    setupWrites refCfg (ready 0 []).regs.req ≠ [] ∧
    (setupWrites refCfg (ready 0 []).regs.req)[0]? = some (0x01, 0x00) ∧
    (setupWrites refCfg (ready 0 []).regs.req)[11]? = some (0x0C, 0x01) ∧
    (setupWrites refCfg (ready 0 []).regs.req)[12]? = none ∧
    (∃ e, acalEntry true (failAt 3 7 []) = .ok () e) ∧
    (∃ e, acalEntry false (failAt 3 7 []) = .ok () e) ∧
    (∃ t, writeRegister 0x01 0x00 (failAt 3 7 []) = .ok false t) ∧
    (∃ t, writeRegister 0x0C 0x01 (bus [nack, readySnapshot] []) = .ok false t) ∧
    (bus (List.replicate 77 readySnapshot ++ [nack, readySnapshot]) []).Answers 77 [] [nack, readySnapshot] [] :=
  ⟨by decide, by decide, by decide, by decide, ⟨_, rfl⟩, ⟨_, rfl⟩, ok_of (by decide +kernel), ok_of (by decide +kernel),
    ⟨rfl, rfl, rfl⟩⟩

/-- `AutocalTimesOut`, its failing runs: the first setup write; a GO read; the DEV-STOP after GO has cleared, and after a
time-out. Each ends with one DEV-STOP attempt, which is all that follows the failing transaction. -/
theorem witness_autocalFails :
    outcome (run (.autocal false) (failAt 3 7 [])) = (0x12, addrNack ++ WR 0x0C 0x00) ∧
    (let s := run (.autocal true) (failAt (84 + 3) 8 [])
     s.hostWord 0x000 = 0x12 ∧ s.trace.drop 145 = addrNack ++ [.ack true, P] ++ WR 0x0C 0x00) ∧
    (let s := run (.autocal true) (failAt (84 + 9 + 3) 0 [0])
     s.hostWord 0x000 = 0x12 ∧ s.trace.drop 145 = RD 0x0C 0 ++ addrNack) ∧
    (let s := run (.autocal true) (oneMs (failAt (84 + 18 + 3) 0 [1, 1]))
     s.hostWord 0x000 = 0x32 ∧ s.trace.drop 145 = RD 0x0C 1 ++ [.dms 1] ++ RD 0x0C 1 ++ addrNack) := by decide +kernel

/-- `AutocalTimesOut`, the first and the last hard result read fail: which registers they are, and how the command ends. -/
theorem witness_autocalHardRead :
    (hardRegs refCfg)[0]? = some 0x00 ∧ (hardRegs refCfg)[4]? = some 0x17 ∧ (hardRegs refCfg)[5]? = none ∧
    (∃ t, readRegister 0x00 (bus [nack, readySnapshot] []) = .ok none t) ∧
    (let s := run (.autocal true) (failAt (84 + 9 + 7 + 3) 1 [0])
     s.hostWord 0x000 = 0x12 ∧ s.regs.res = AcalResult.hard [] ∧
     s.trace.drop 145 = RD 0x0C 0 ++ WR 0x0C 0 ++ addrNack ++ [.ack true, P]) ∧
    (let s := run (.autocal true) (failAt (84 + 9 + 7 + 36 + 3) 1 [0, 1, 2, 3, 4])
     s.hostWord 0x000 = 0x12 ∧ s.regs.res = AcalResult.hard [1, 2, 3, 4] ∧
     s.trace.drop 145 = RD 0x0C 0 ++ WR 0x0C 0 ++ RD 0x00 1 ++ RD 0x18 2 ++ RD 0x19 3 ++ RD 0x16 4 ++ addrNack ++
      [.ack true, P]) :=
  ⟨by decide, by decide, by decide, ok_of (by decide +kernel), by decide +kernel, by decide +kernel⟩

/-- `FailureClasses`, the clauses on BUS: a write, a read in a wait, a read in its cleanup, CD_CONFIGURE after an absorbed
read, and AUTOCAL with both best-effort reads failing. -/
theorem witness_busClass :
    let cls (s : State) := s.regs.status.errClass
    let strict : State := { bus (List.replicate 8 readySnapshot ++ List.replicate 4 waiting) [7] with
      cfg := { refCfg with cleanupIdleAffectsOutcome := true } }
    cls (run .cdStart (configured (failAt 10 0 []))) = some .bus ∧ cls (run (.regRead 0 true) (failAt 3 1 [])) = some .bus ∧
    cls (run (.regRead 0 true) strict) = some .bus ∧ .clr ∉ (run (.regRead 0 true) strict).trace ∧
    cls (run (.regRead 0 true) { strict with cfg := refCfg }) = none ∧
    (let s := run (.cdConfigure .lra 0 0 0) (bus (List.replicate 16 readySnapshot ++ [nack, readySnapshot, nack]) [])
     cls s = some .bus ∧ s.trace.count .clr = 2) ∧
    (let s := run (.autocal true) (bus (List.replicate (84 + 9 + 7 + 45) readySnapshot ++
      [nack, readySnapshot, nack, readySnapshot]) [0, 1, 2, 3, 4, 5])
     cls s = none ∧ s.trace.count .clr = 2) := by decide +kernel

/-- `CdConfigureCompletes`, the fallback: the failing read, and a bus that is ready after it. -/
theorem witness_cdFallback :
    (failAt 17 8 []).Answers 14 [] ([readySnapshot, readySnapshot, nack] ++ List.replicate 8 readySnapshot) [] ∧
    ∃ t, readRegister 0x1B (bus (nack :: readySnapshot :: List.replicate 7 readySnapshot) []) = .ok none t ∧
      t.Answers 7 [] [] [] :=
  ⟨⟨rfl, rfl, rfl⟩, _, rfl, rfl, rfl, rfl⟩

/-- `CdConfigureCompletes` and `CdStartStopComplete`. -/
theorem witness_cd : (ready 30 [0xA5]).Answers 30 [0xA5] [] [] ∧
    (configured (ready 21 [])).regs.cdState ≠ .unconfigured ∧ (configured (ready 21 [])).Answers 21 [] [] [] ∧
    (ready 14 []).Answers 14 [] [] [] :=
  ⟨ready_answers _ _, by decide, answers_of rfl rfl rfl, ready_answers _ _⟩

/-- `RtPrepareCompletes`, with the latch set and clear. -/
theorem witness_rtPrepare : (prepared (ready 0 [])).regs.rtReady = true ∧ (prepared (ready 0 [])).Answers 0 [] [] [] ∧
    (ready 28 []).regs.rtReady = false ∧ (ready 28 []).Answers 28 [] [] [] :=
  ⟨rfl, answers_of rfl rfl rfl, rfl, ready_answers _ _⟩

/-- `PlayFreqAmpCompletes` and `PlayFreqVoltageCompletes`: 200 Hz for 20 ms at 1500 of 3000 mV. -/
theorem witness_play : (burst (ready 28 [])).regs.arg0 ≠ 0 ∧ (0x90 : Byte) ≠ 0 ∧
    5000 = max 1 (1000000 / (burst (ready 28 [])).regs.arg0.toNat) ∧
    2 = max 1 ((burst (ready 28 [])).regs.burstMs.toNat * 1000 / (2 * 5000)) ∧
    (burst (ready 28 [])).regs.arg1.toNat % 65536 ≠ 0 ∧ (burst (ready 28 [])).regs.maxMv.toNat ≠ 0 ∧
    (burst (prepared (ready 28 []))).regs.rtReady = true ∧ (burst (ready 56 [])).regs.rtReady = false ∧
    (burst (prepared (ready 28 []))).Answers (14 * 2) [] [] [] ∧ (burst (ready 56 [])).Answers (28 + 14 * 2) [] [] [] :=
  ⟨by decide, by decide, by decide, by decide, by decide, by decide, rfl, rfl, answers_of rfl rfl rfl,
    answers_of rfl rfl rfl⟩

/-- `AgStepCompletes`, with the cursor below the count and at it. -/
theorem witness_agStep : (group (ready 7 [])).Answers 7 [] [] [] ∧
    (group (ready 7 [])).regs.agCursor < (group (ready 7 [])).regs.agCount ∧
    ¬ (ready 7 []).regs.agCursor < (ready 7 []).regs.agCount := ⟨answers_of rfl rfl rfl, by decide, by decide⟩

/-- `ArgumentFailures`: each check at its boundary. -/
theorem witness_argument :
    let cls (i : Instr) (s : State) := (run i s).regs.status.errClass
    cls (.busWrite 17) (ready 60 []) = some .arg ∧ cls (.busWrite 16) (ready 60 []) = none ∧
    cls (.busRead 0 17 true) (ready 60 []) = some .arg ∧ cls (.busRead 0 0 false) (ready 60 []) = some .arg ∧
    cls (.busRead 0 0 true) (ready 60 []) = none ∧ cls (.regRead 0 false) (ready 9 []) = some .arg ∧
    cls (.setWaveform 8 0) (ready 7 []) = some .arg ∧ cls (.getWaveform 8 true) (ready 9 [0]) = some .arg ∧
    cls (.getWaveform 7 true) (ready 9 [0]) = none ∧ cls (.getWaveform 7 false) (ready 9 [0]) = some .arg := by
  decide +kernel

theorem witness_argument_drive :
    let cls (i : Instr) (s : State) := (run i s).regs.status.errClass
    cls .cdStart (ready 21 []) = some .arg ∧ cls .cdStart (configured (ready 21 [])) = none ∧
    cls (.playFreqAmp 0) (burst (ready 56 [])) = some .arg ∧ cls (.playFreqAmp 1) (burst (ready 56 [])) = none ∧
    cls (.playFreqAmp 1) (ready 56 []) = some .arg ∧
    cls .playFreqVoltage ((burst (ready 56 [])).hostStore 0x00C 0) = some .arg ∧
    cls .playFreqVoltage ((burst (ready 56 [])).hostStore 0x00C 0x10000) = some .arg ∧
    cls .playFreqVoltage ((burst (ready 56 [])).hostStore 0x028 0) = some .arg := by decide +kernel

/-- `CdStateMachine` and `CdStrengthLatch`: a CD_CONFIGURE of a configured session that fails, and one that does not. -/
theorem witness_cdStates :
    (run (.cdConfigure .lra 0 0xFF 0) (configured (failAt 3 0 []))).regs.cdState = .unconfigured ∧
    (run (.cdConfigure .lra 0 0xFF 0) (configured (failAt 3 0 []))).regs.cdStrength = 0x50 ∧
    (run (.cdConfigure .lra 0 0xFF 0) (configured (ready 30 [0]))).regs.cdStrength = 0x7F := by decide +kernel

/-- `RealtimeLatch`: both answers of the prepare, and the latch already set. -/
theorem witness_latch : (ready 28 []).regs.rtReady = false ∧
    (∃ t, prepareRealtime refCfg (ready 28 []) = .ok true t) ∧ (∃ t, prepareRealtime refCfg (bus [nack] []) = .ok false t) ∧
    (prepared (ready 0 [])).regs.rtReady = true :=
  ⟨rfl, ok_of (by decide +kernel), ok_of (by decide +kernel), rfl⟩

/-- `CursorMachine`: what a READY AG_STEP sends and how long it waits; one that fails leaves the cursor. -/
theorem witness_cursor :
    sentBytes (run .agStep (group (ready 7 []))).trace = [0x02, 0x7F] ∧
    delays (run .agStep (group (ready 7 []))).trace = [.dms 100] ∧
    sentBytes (run .agStep (ready 7 [])).trace = [0x02, 0x00] ∧ delays (run .agStep (ready 7 [])).trace = [] ∧
    (run .agStep (group (bus [nack] []))).regs.status.ready = false ∧
    (run .agStep (group (bus [nack] []))).regs.agCursor = 0 := by decide +kernel

/-- `AutocalResults`: a BUS failure and a READY completion. -/
theorem witness_results : (run (.autocal true) (failAt 3 7 [])).regs.status.errClass = some .bus ∧
    (run (.autocal true) (ready (84 + 9 + 7 + 63) [0, 1, 2, 3, 4, 5, 6, 7])).regs.status.ready = true := by
  decide +kernel

/-- `InvariantKept` and `ParametersFixed`: a state that meets the invariant, and a step from it. -/
theorem witness_invariant :
    let s : State := { State.init refCfg with host := [.write 0x004 4 0x01021602, .pass, .reset] }
    s.Inv ∧ ∃ t, step s = .next t :=
  ⟨⟨rfl, rfl, fun _ => rfl, by decide, by decide, by decide⟩, _, rfl⟩

/-- `HostWritesHarmless`. -/
theorem witness_hostWrites :
    let s : State := { ready 7 [] with host := [.write 0x008 4 5, .pass, .write 0x000 4 0xA] }
    (∀ m ∈ s.host, m = .pass ∨ ∃ off v, m = .write off 4 v) ∧
    (∃ t, exec (.regWrite 1 5) s = .next t) ∧ ∃ u, exec (.regWrite 1 5) { s with host := [] } = .next u := by
  refine ⟨?_, ⟨_, exec_run _ _⟩, _, exec_run _ _⟩
  intro m hm
  simp only [List.mem_cons, List.not_mem_nil, or_false] at hm
  obtain rfl | rfl | rfl := hm
  · exact .inr ⟨_, _, rfl⟩
  · exact .inl rfl
  · exact .inr ⟨_, _, rfl⟩

/-- `WaitRule`: the condition holds, an error flag shows, the budget of 4 is used up. -/
theorem witness_wait :
    condHolds .txe waiting = false ∧ anyError waiting = false ∧ condHolds .txe readySnapshot = true ∧
    anyError nack = true ∧ condHolds .txe nack = false ∧ condBudget refCfg .txe = 4 ∧
    (bus ([waiting, waiting, waiting] ++ waiting :: []) []).host = [] := by decide

/-- `RecoveryOnce` and `EventBounds`: each procedure returning OK and returning FAIL. -/
theorem witness_recovery :
    (∃ t, writeBytes [1, 2] (ready 7 []) = .ok true t) ∧ (∃ t, writeBytes [1, 2] (bus [nack] []) = .ok false t) ∧
    (∃ t, readRegisters noSink 3 1 (ready 9 [7]) = .ok (some [7]) t) ∧
    (∃ t, readRegisters noSink 3 1 (bus [nack, readySnapshot] []) = .ok none t) ∧
    (∃ t, cleanup (some [7]) (ready 1 []) = .ok (some [7]) t) ∧
    (∃ t, readRegister 3 (ready 9 [7]) = .ok (some 7) t) ∧ (∃ t, writeRegister 3 1 (ready 7 []) = .ok true t) :=
  ⟨ok_of (by decide +kernel), ok_of (by decide +kernel), ok_of (by decide +kernel), ok_of (by decide +kernel),
    ok_of (by decide +kernel), ok_of (by decide +kernel), ok_of (by decide +kernel)⟩

/-- The reads of BUS_READ, which store each byte in DBUF: OK and FAIL. -/
theorem witness_storingRead :
    (∃ t, readRegisters storeDbuf 3 2 (ready 10 [7, 8]) = .ok (some [7, 8]) t) ∧
    (∃ t, readRegisters storeDbuf 3 2 (bus (List.replicate 8 readySnapshot ++ [nack, readySnapshot]) [7]) = .ok none t) ∧
    (∃ t, andThen (openRead 3) (fun ok => if ok then receiveBytes storeDbuf 2 2 else ret none) (ready 9 [7, 8]) =
      .ok (some [7, 8]) t) :=
  ⟨ok_of (by decide +kernel), ok_of (by decide +kernel), ok_of (by decide +kernel)⟩

/-- The read before its Cleanup, in `RecoveryOnce`, and the budgets and the failing sample of `EventBounds`. -/
theorem witness_openRead :
    (∃ t, andThen (openRead 3) (fun ok => if ok then receiveBytes noSink 1 1 else ret none) (ready 8 [7]) =
      .ok (some [7]) t) ∧
    (∃ t, andThen (openRead 3) (fun ok => if ok then receiveBytes noSink 1 1 else ret none) (bus [nack] []) =
      .ok none t) ∧
    1 ≤ refCfg.wIdle.toNat ∧ 1 ≤ refCfg.wEvent.toNat ∧ nack.busy = true ∧ anyError nack = true :=
  ⟨ok_of (by decide +kernel), ok_of (by decide +kernel), by decide, by decide, rfl, rfl⟩

/-- `AcknowledgeStaysEnabled` and `LatchedFlagsStay`: a write with AF set that issues no flag clear. -/
theorem witness_flags :
    let s : State := { ready 7 [] with latched := ⟨true, false, false⟩ }
    s.NoReset ∧ s.ackEnable = true ∧ exec (.regWrite 1 5) s = .next (run (.regWrite 1 5) s) ∧
    (run (.regWrite 1 5) s).trace = s.trace ++ WR 1 5 ∧ .clr ∉ WR 1 5 :=
  ⟨by unfold State.NoReset; decide, rfl, exec_run _ _, by decide +kernel, by decide⟩

/-- `CodecRoundTrip`, `ToneArithmetic`, `VoltageToAmplitude`: the ends of their ranges. -/
theorem witness_arithmetic : (5449 : Half).toNat ≤ 5449 ∧ (1430 : Half).toNat ≤ 1430 ∧ halfUs 1 = 1000000 ∧
    halfUs 4294967295 = 1 ∧ toneCycles 65535 1 = 32767500 ∧ voltToAmp 1 1 = 127 ∧ voltToAmp 1 65535 = 1 := by decide

end Sys2Proof.Tests
end

section
/-! The parameters (00_scope.md R10) through the operations on memory, the host's accesses and its moves. -/

namespace Sys2Proof.Machine

@[simp] theorem setMemByte_cfg (s : State) (a : Nat) (v : Byte) : (s.setMemByte a v).cfg = s.cfg := by
  rw [setMemByte_eq]

@[simp] theorem setDbufByte_cfg (s : State) (i : Nat) (v : Byte) : (s.setDbufByte i v).cfg = s.cfg := by
  rw [setDbufByte_eq]

@[simp] theorem setDbufWord_cfg (s : State) (i : Nat) (v : Word) : (s.setDbufWord i v).cfg = s.cfg := by
  simp only [State.setDbufWord, setDbufByte_cfg]

@[simp] theorem setFrameWord_cfg (s : State) (i : Nat) (v : Word) : (s.setFrameWord i v).cfg = s.cfg := by
  unfold State.setFrameWord
  split
  · simp only [setMemByte_cfg]
  · rfl

/-- The registers, by offset, are fields of `regs`; the buffer windows are memory. -/
@[simp] theorem hostStore_cfg (s : State) (off : Nat) (v : Word) : (s.hostStore off v).cfg = s.cfg := by
  unfold State.hostStore
  split
  case h_14 =>
    split
    · exact setDbufWord_cfg s _ v
    · split
      · exact setFrameWord_cfg s _ v
      · rfl
  all_goals rfl

@[simp] theorem hostLoad_cfg (s : State) (off : Nat) : (s.hostLoad off).cfg = s.cfg := rfl

@[simp] theorem busyLoad_cfg (s : State) (off : Nat) : (s.busyLoad off).cfg = s.cfg := by
  obtain ⟨l, d, h⟩ := busyLoad_fields s off
  rw [h]

@[simp] theorem busyStore_cfg (s : State) (off : Nat) (v : Word) : (s.busyStore off v).cfg = s.cfg := by
  obtain ⟨d, o, h⟩ := busyStore_fields s off v
  rw [h]

@[simp] theorem hostMove_cfg (s : State) (m : HostMove) : (s.hostMove m).cfg = s.cfg := by
  cases m with
  | read off n =>
    simp only [State.hostMove]
    split
    · exact busyLoad_cfg s _
    · exact hostLoad_cfg s _
  | write off n v =>
    simp only [State.hostMove]
    split
    · exact busyStore_cfg s _ v
    · exact hostStore_cfg s _ v
  | pass => rfl
  | reset => exact applyReset_cfg s

end Sys2Proof.Machine
end

section
/-! Every command is pseudocode within a frame (`Within`), which continues the frame layer from the bus engine to the
procedures and commands built on it. The frame is taken for any view of the host registers that does not look at what
the command's rule names as written. -/

namespace Sys2Proof.Machine

section
variable {α κ : Type} {keep : HostRegs → κ} {bytes : Nat} {F : FailClass → Prop}

/-- A conditional, each branch under its condition. -/
theorem within_dite {p : Prop} [Decidable p] {m n : Ctl α} (hm : p → Within F keep bytes m)
    (hn : ¬p → Within F keep bytes n) : Within F keep bytes (if p then m else n) := by
  split
  · exact hm ‹_›
  · exact hn ‹_›

/-! ### Host registers written by commands -/

/-- A command's write to host registers that the view does not look at, `H_STATUS` left alone. -/
theorem within_writeRegs (off : Nat) {f : HostRegs → HostRegs} (hv : ∀ r, keep (f r) = keep r)
    (hs : ∀ r, (f r).status = r.status) :
    Within F keep bytes (writeAt off fun s => { s with regs := f s.regs }) :=
  within_writeAt off fun _ => frame_of_regs (hv _) (hs _)

theorem within_setRdata (hv : ∀ (r : HostRegs) v, keep { r with rdata := v } = keep r) (v : Half) :
    Within F keep bytes (setRdata v) :=
  within_writeRegs _ (fun r => hv r v) fun _ => rfl

theorem within_setCdState (hv : ∀ (r : HostRegs) v, keep { r with cdState := v } = keep r) (v : CdState) :
    Within F keep bytes (setCdState v) :=
  within_writeRegs _ (fun r => hv r v) fun _ => rfl

theorem within_setCdStrength (hv : ∀ (r : HostRegs) v, keep { r with cdStrength := v } = keep r) (v : Byte) :
    Within F keep bytes (setCdStrength v) :=
  within_writeRegs _ (fun r => hv r _) fun _ => rfl

theorem within_setRtReady (hv : ∀ (r : HostRegs) v, keep { r with rtReady := v } = keep r) :
    Within F keep bytes setRtReady :=
  within_writeRegs _ (fun r => hv r true) fun _ => rfl

theorem within_setAgCursor (hv : ∀ (r : HostRegs) v, keep { r with agCursor := v } = keep r) (v : BitVec 9) :
    Within F keep bytes (setAgCursor v) :=
  within_writeRegs _ (fun r => hv r v) fun _ => rfl

theorem within_setResult (hv : ∀ (r : HostRegs) v, keep { r with res := v } = keep r) (off : Nat)
    (f : AcalResult → AcalResult) : Within F keep bytes (setResult off f) :=
  within_writeRegs (f := fun r => { r with res := f r.res }) off (fun r => hv r (f r.res)) fun _ => rfl

theorem within_freeRdata (hv : ∀ (r : HostRegs) v, keep { r with rdata := v } = keep r) :
    Within F keep bytes freeRdata :=
  within_andThen (within_draw _) fun _ => within_setRdata hv _

theorem within_freeResults (hv : ∀ (r : HostRegs) v, keep { r with res := v } = keep r) :
    Within F keep bytes freeResults :=
  within_andThen (within_draw _) fun _ => within_andThen (within_draw _) fun _ =>
  within_andThen (within_draw _) fun _ => within_andThen (within_draw _) fun _ =>
  within_andThen (within_draw _) fun _ => within_andThen (within_draw _) fun _ =>
  within_andThen (within_draw _) fun _ => within_andThen (within_draw _) fun _ =>
  within_andThen (within_draw _) fun _ =>
  within_before (within_setResult hv _ _) (within_setResult hv _ _)

/-! ### Procedures -/

section
variable (hk : IgnoresStatus keep)
include hk

theorem within_clearSlots (c : Params) (ks : List Byte) : Within F keep bytes (clearSlots c ks) := by
  induction ks with
  | nil => exact within_ret _
  | cons k ks ih => exact within_ifOk (within_writeRegister hk _ _) ih

theorem within_sustain (c : Params) (p n : Byte) : Within F keep bytes (sustain c p n) :=
  within_ifOk (within_writeRegister hk _ _) (within_writeRegister hk _ _)

theorem within_prepareSteps (hv : ∀ (r : HostRegs) v, keep { r with rtReady := v } = keep r) (c : Params) :
    Within F keep bytes (prepareSteps c) :=
  within_ifOk (within_writeRegister hk _ _) <| within_before (within_delayMs hk _) <|
    within_ifOk (within_writeRegister hk _ _) <| within_ifOk (within_writeRegister hk _ _) <|
    within_ifOk (within_writeRegister hk _ _) <| within_before (within_setRtReady hv) (within_ret _)

/-- `PrepareRealtime()` is nothing or its steps, by the latch. -/
theorem within_prepareRealtime (hv : ∀ (r : HostRegs) v, keep { r with rtReady := v } = keep r) (c : Params) :
    Within F keep bytes (prepareRealtime c) := by
  have latched : prepareRealtime c = fun s => (if s.regs.rtReady then ret true else prepareSteps c) s := by
    funext s
    rw [prepareRealtime_eq]
    split <;> rfl
  rw [latched]
  exact within_of_state fun _ => within_ite (within_ret _) (within_prepareSteps hk hv c)

theorem within_ignoredReads (rs : List Byte) : Within F keep bytes (ignoredReads rs) := by
  induction rs with
  | nil => exact within_ret _
  | cons r rs ih => exact within_andThen (within_readRegister hk r) fun _ => ih

theorem within_bestEffortReads (hv : ∀ (r : HostRegs) v, keep { r with res := v } = keep r) (c : Params) :
    Within F keep bytes (bestEffortReads c) :=
  within_andThen (within_readRegister hk _) fun _ => within_before (within_setResult hv _ _) <|
    within_andThen (within_readRegister hk _) fun _ => within_setResult hv _ _

theorem within_stopAbort {cls : FailClass} (h : F cls) (c : Params) :
    Within F keep bytes (stopAbort c cls : Ctl α) :=
  within_andThen (within_writeRegister hk _ _) fun _ => within_fail h

end

/-! ### Command bodies -/

section
variable (hk : IgnoresStatus keep) (hF : F .bus)
include hk hF

theorem within_mustWrite (reg v : Byte) : Within F keep bytes (must (writeRegister reg v)) :=
  within_must hF (within_writeRegister hk reg v)

theorem within_busWriteBody (ha : F .arg) (dbufLen n : Nat) (p : List Byte) :
    Within F keep bytes (busWriteBody dbufLen n p) :=
  within_before (within_require _ ha) (within_must hF (within_writeBytes hk p))

theorem within_busReadBody (ha : F .arg) (dbufLen : Nat) (reg : Byte) {n : Nat} (hn : n ≤ bytes) (dv : Bool) :
    Within F keep bytes (busReadBody dbufLen reg n dv) :=
  within_before (within_require _ ha) <| within_ite (within_ret _) <| within_before (within_require _ ha) <|
    within_andThen
      (within_mustGet hF <| within_readRegisters hk (fun i b hi => within_storeDbuf i b (by omega)) reg)
      fun _ => within_ret _

theorem within_readToRdata (hv : ∀ (r : HostRegs) v, keep { r with rdata := v } = keep r) (reg : Byte) :
    Within F keep bytes (readToRdata reg) :=
  within_andThen (within_mustGet hF (within_readRegister hk reg)) fun _ => within_setRdata hv _

theorem within_defaultInitBody (c : Params) : Within F keep bytes (defaultInitBody c) :=
  within_before (within_mustWrite hk hF _ _) <| within_before (within_delayMs hk _) <|
    within_before (within_mustWrite hk hF _ _) <| within_before (within_mustWrite hk hF _ _) <|
    within_before (within_mustWrite hk hF _ _) <| within_before (within_must hF (within_clearSlots hk c _)) <|
    within_before (within_mustWrite hk hF _ _) <| within_before (within_must hF (within_sustain hk c _ _)) <|
    within_before (within_mustWrite hk hF _ _) <| within_before (within_mustWrite hk hF _ _) <|
    within_mustWrite hk hF _ _

theorem within_agStepBody (hv : ∀ (r : HostRegs) v, keep { r with agCursor := v } = keep r) (c : Params)
    (cursor count : BitVec 9) (frame : Word) (pause : Half) :
    Within F keep bytes (agStepBody c cursor count frame pause) :=
  have play (v : Byte) (n : Nat) (next : BitVec 9) : Within F keep bytes
      (before (must (setRtp c v)) <| before (delayMsUnlessZero n) <| setAgCursor next) :=
    within_before (within_mustWrite hk hF _ _) <| within_before (within_delayMsUnlessZero hk _) <|
      within_setAgCursor hv _
  within_ite (play _ _ _) (play _ _ _)

theorem within_mustOrStop {p : Ctl Bool} (hp : Within F keep bytes p) (c : Params) :
    Within F keep bytes (mustOrStop c p) :=
  within_andThen hp fun _ => within_ite (within_ret _) (within_stopAbort hk hF c)

theorem within_writesOrStop (c : Params) (ws : List (Byte × Byte)) : Within F keep bytes (writesOrStop c ws) := by
  induction ws with
  | nil => exact within_ret _
  | cons w ws ih => exact within_before (within_mustOrStop hk hF (within_writeRegister hk _ _) c) ih

theorem within_acalSetup (c : Params) (q : AcalRequest) : Within F keep bytes (acalSetup c q) := by
  rw [acalSetup_eq]
  exact within_before (within_mustOrStop hk hF (within_writeRegister hk _ _) c) <|
    within_before (within_delayMs hk _) (within_writesOrStop hk hF c _)

theorem within_pollGo (c : Params) : Within F keep bytes (pollGo c) :=
  within_andThen (within_readRegister hk _) fun g => by
    cases g with
    | none => exact within_stopAbort hk hF c
    | some g => exact within_ret _

theorem within_pollLoop (c : Params) (k : Nat) : Within F keep bytes (pollLoop c k) := by
  induction k with
  | zero => exact within_andThen (within_pollGo hk hF c) fun _ => within_ret _
  | succ k ih =>
    exact within_andThen (within_pollGo hk hF c) fun _ =>
      within_ite (within_ret _) (within_before (within_delayMs hk _) ih)

theorem within_hardRead (hv : ∀ (r : HostRegs) v, keep { r with res := v } = keep r) (reg : Byte) (off : Nat)
    (put : AcalResult → Byte → AcalResult) : Within F keep bytes (hardRead reg off put) :=
  within_andThen (within_mustGet hF (within_readRegister hk reg)) fun _ => within_setResult hv _ _

theorem within_hardReads (hv : ∀ (r : HostRegs) v, keep { r with res := v } = keep r) (c : Params) :
    Within F keep bytes (hardReads c) :=
  within_before (within_hardRead hk hF hv _ _ _) <| within_before (within_hardRead hk hF hv _ _ _) <|
    within_before (within_hardRead hk hF hv _ _ _) <| within_before (within_hardRead hk hF hv _ _ _) <|
    within_hardRead hk hF hv _ _ _

/-- The result registers are written only with `rb = 1` (44_timed_routines.md R173, R176 to R178). -/
theorem within_autocalBody (ht : F .timing) {rb : Bool}
    (hv : rb = true → ∀ (r : HostRegs) v, keep { r with res := v } = keep r) (c : Params) (q : AcalRequest) :
    Within F keep bytes (autocalBody c q rb) := by
  have entry : Within F keep bytes (acalEntry rb) :=
    within_dite
      (fun h => within_before (within_setResult (hv h) _ _) (within_setResult (hv h) _ _))
      (fun _ => within_ret _)
  have timeout (stopped : Bool) : Within F keep bytes (afterTimeout c rb stopped) :=
    within_dite
      (fun h => by
        simp only [Bool.and_eq_true] at h
        obtain ⟨⟨-, hrb⟩, -⟩ := h
        exact within_before (within_ignoredReads hk _) <| within_before (within_freeResults (hv hrb)) <|
          within_fail ht)
      (fun _ => within_fail ht)
  have results : Within F keep bytes (if !rb then ret () else before (hardReads c) (bestEffortReads c)) :=
    within_dite (fun _ => within_ret _) fun h => by
      have hrb : rb = true := by simpa using h
      exact within_before (within_hardReads hk hF (hv hrb) c) (within_bestEffortReads hk (hv hrb) c)
  exact within_before entry <| within_before (within_acalSetup hk hF c q) <|
    within_andThen (within_pollLoop hk hF c _) fun _ =>
    within_andThen (within_writeRegister hk _ _) fun stopped =>
    within_ite (timeout stopped) (within_ite (within_fail hF) results)

theorem within_cdConfigureBody (hs : ∀ (r : HostRegs) v, keep { r with cdState := v } = keep r)
    (ht : ∀ (r : HostRegs) v, keep { r with cdStrength := v } = keep r) (c : Params) (motor : Motor)
    (dt strength lib : Byte) : Within F keep bytes (cdConfigureBody c motor dt strength lib) :=
  within_before (within_setCdState hs _) <| within_before (within_mustWrite hk hF _ _) <|
    within_before (within_mustWrite hk hF _ _) <| within_andThen (within_readRegister hk _) fun _ =>
    within_before (within_mustWrite hk hF _ _) <| within_before (within_setCdStrength ht _) <|
    within_setCdState hs _

theorem within_cdStartBody (ha : F .arg) (hs : ∀ (r : HostRegs) v, keep { r with cdState := v } = keep r)
    (c : Params) (state : CdState) (strength : BitVec 7) : Within F keep bytes (cdStartBody c state strength) :=
  within_before (within_require _ ha) <| within_before (within_mustWrite hk hF _ _) <|
    within_before (within_mustWrite hk hF _ _) <| within_before (within_mustWrite hk hF _ _) <|
    within_setCdState hs _

theorem within_cdStopBody (hs : ∀ (r : HostRegs) v, keep { r with cdState := v } = keep r) (c : Params)
    (state : CdState) : Within F keep bytes (cdStopBody c state) :=
  within_before (within_mustWrite hk hF _ _) <| within_before (within_mustWrite hk hF _ _) <|
    within_ite (within_setCdState hs _) (within_ret _)

theorem within_toneLoop (c : Params) (v : Byte) (h n : Nat) : Within F keep bytes (toneLoop c v h n) := by
  induction n with
  | zero => exact within_ret _
  | succ n ih =>
    exact within_before (within_mustWrite hk hF _ _) <| within_before (within_delayUs hk _) <|
      within_before (within_mustWrite hk hF _ _) <| within_before (within_delayUs hk _) ih

theorem within_playBody (ha : F .arg) (hv : ∀ (r : HostRegs) v, keep { r with rtReady := v } = keep r) (c : Params)
    (f : Nat) (a : Byte) (burst pause : Half) : Within F keep bytes (playBody c f a burst pause) :=
  within_before (within_require _ ha) <| within_before (within_must hF (within_prepareRealtime hk hv c)) <|
    within_before (within_toneLoop hk hF c _ _ _) (within_delayMsUnlessZero hk _)

theorem within_playVoltageBody (ha : F .arg) (hv : ∀ (r : HostRegs) v, keep { r with rtReady := v } = keep r)
    (c : Params) (f : Nat) (mv mx burst pause : Half) :
    Within F keep bytes (playVoltageBody c f mv mx burst pause) :=
  within_before (within_require _ ha) <| within_before (within_require _ ha) <|
    within_playBody hk hF ha hv c f _ burst pause

end

/-! ### Every command -/

/-- The classes a command may raise: ARG only where 60_exceptions.md R223 has a check, TIMING only AUTOCAL (R224), and
nothing the codec commands. -/
def mayRaise : Instr → FailClass → Prop
  | .busWrite _ | .busRead _ _ _ | .regRead _ _ | .setWaveform _ _ | .getWaveform _ _ => fun c => c = .bus ∨ c = .arg
  | .cdStart | .playFreqAmp _ | .playFreqVoltage => fun c => c = .bus ∨ c = .arg
  | .autocal _ => fun c => c = .bus ∨ c = .timing
  | .encRated | .decRated _ | .encClamp | .decClamp _ => noClass
  | .regWrite _ _ | .clearSequence | .setSustain _ _ | .defaultInit => busOnly
  | .cdConfigure _ _ _ _ | .cdStop | .rtPrepare | .agStep => busOnly

/-- The view does not look at the host registers that the rule of command `i` names as written. -/
def IgnoresWrites (keep : HostRegs → κ) (i : Instr) : Prop :=
  ∀ r t : HostRegs, keep (HostRegs.writtenBy r t i) = keep r

/-- A getter leaves `H_RDATA` open after a failure, and otherwise does what its body does. -/
theorem within_getterBody (hv : ∀ (r : HostRegs) v, keep { r with rdata := v } = keep r) {body : Ctl Unit}
    (hb : Within F keep bytes body) : Within F keep bytes (leavingOpen freeRdata body) :=
  within_leavingOpen (within_freeRdata hv) hb

/-- Every command is pseudocode that stays within the frame of its rule: it changes the host registers and the DBUF
bytes that the rule names, nothing else the frame speaks of, and fails with a class it may raise. -/
theorem exec_within (hk : IgnoresStatus keep) (i : Instr) (hw : IgnoresWrites keep i) (s : State) :
    ∃ body, exec i s = command body s ∧ Within (mayRaise i) keep (dbufBytesWritten i) body := by
  cases i with
  | busWrite n => exact ⟨_, rfl, within_busWriteBody hk (.inl rfl) (.inr rfl) _ _ _⟩
  | busRead reg n dv =>
    exact ⟨_, rfl, within_leavingOpen (within_freeDbuf _ (Nat.le_refl _)) <|
      within_busReadBody hk (.inl rfl) (.inr rfl) _ reg (Nat.le_refl _) dv⟩
  | regWrite reg value => exact ⟨_, rfl, within_mustWrite (F := busOnly) hk rfl reg value⟩
  | regRead reg dv =>
    have hv (r : HostRegs) v : keep { r with rdata := v } = keep r := hw r { r with rdata := v }
    exact ⟨_, rfl, within_getterBody hv <| within_before (within_require dv (.inr rfl)) <|
      within_readToRdata hk (.inl rfl) hv reg⟩
  | setWaveform slot effect =>
    exact ⟨_, rfl, within_before (within_require _ (.inr rfl)) (within_mustWrite hk (.inl rfl) _ effect)⟩
  | getWaveform slot dv =>
    have hv (r : HostRegs) v : keep { r with rdata := v } = keep r := hw r { r with rdata := v }
    exact ⟨_, rfl, within_getterBody hv <| within_before (within_require dv (.inr rfl)) <|
      within_before (within_require _ (.inr rfl)) (within_readToRdata hk (.inl rfl) hv _)⟩
  | clearSequence => exact ⟨_, rfl, within_must (F := busOnly) rfl (within_clearSlots hk s.cfg _)⟩
  | setSustain pos neg => exact ⟨_, rfl, within_must (F := busOnly) rfl (within_sustain hk s.cfg pos neg)⟩
  | encRated | decRated code | encClamp | decClamp code =>
    have hv (r : HostRegs) v : keep { r with rdata := v } = keep r := hw r { r with rdata := v }
    exact ⟨_, rfl, within_getterBody hv (within_setRdata hv _)⟩
  | defaultInit => exact ⟨_, rfl, within_defaultInitBody (F := busOnly) hk rfl s.cfg⟩
  | autocal rb =>
    refine ⟨_, rfl, within_autocalBody hk (.inl rfl) (.inr rfl) (fun h r v => ?_) s.cfg s.regs.req⟩
    subst h
    exact hw r { r with res := v }
  | cdConfigure motor dt strength lib =>
    exact ⟨_, rfl, within_cdConfigureBody (F := busOnly) hk rfl (fun r v => hw r { r with cdState := v })
      (fun r v => hw r { r with cdStrength := v }) s.cfg motor dt strength lib⟩
  | cdStart =>
    exact ⟨_, rfl, within_cdStartBody hk (.inl rfl) (.inr rfl) (fun r v => hw r { r with cdState := v }) _ _ _⟩
  | cdStop => exact ⟨_, rfl, within_cdStopBody (F := busOnly) hk rfl (fun r v => hw r { r with cdState := v }) _ _⟩
  | rtPrepare =>
    exact ⟨_, rfl, within_must (F := busOnly) rfl <|
      within_prepareRealtime hk (fun r v => hw r { r with rtReady := v }) s.cfg⟩
  | playFreqAmp amp =>
    exact ⟨_, rfl, within_playBody hk (.inl rfl) (.inr rfl) (fun r v => hw r { r with rtReady := v }) _ _ amp _ _⟩
  | playFreqVoltage =>
    exact ⟨_, rfl, within_playVoltageBody hk (.inl rfl) (.inr rfl) (fun r v => hw r { r with rtReady := v })
      _ _ _ _ _ _⟩
  | agStep =>
    exact ⟨_, rfl, within_agStepBody (F := busOnly) hk rfl (fun r v => hw r { r with agCursor := v }) _ _ _ _ _⟩

end
end Sys2Proof.Machine
end

section
/-! The parameters of 00_scope.md R10 through a step of the machine. -/

namespace Sys2Proof.Machine

/-- The view that looks at no host register: what is left of a frame holds of every command alike. -/
def noView (_ : HostRegs) : Unit := ()

/-- However a command within a frame ends, by its completion step or by a reset, its parameters stay. -/
theorem finish_cfg {F : FailClass → Prop} {bytes : Nat} {body : Ctl Unit} (hb : Within F noView bytes body)
    (s : State) : (finish (body s)).cfg = s.cfg := by
  rcases finish_cases (fun _ _ => rfl) hb s with ⟨u, cls, hu, he, -⟩ | ⟨-, u, hu, he⟩
  · rw [he, complete_cfg, hu.cfg]
  · rw [he, applyReset_cfg, hu.cfg]

theorem command_cfg {F : FailClass → Prop} {bytes : Nat} {body : Ctl Unit} (hb : Within F noView bytes body)
    {s t : State} (h : command body s = .next t) : t.cfg = s.cfg := by
  cases h
  exact finish_cfg hb s

theorem exec_cfg {i : Instr} {s t : State} (h : exec i s = .next t) : t.cfg = s.cfg := by
  obtain ⟨body, he, hb⟩ := exec_within (keep := noView) (fun _ _ => rfl) i (fun _ _ => rfl) s
  exact command_cfg hb (he ▸ h)

theorem illegalCommand_cfg {s t : State} (h : illegalCommand s = .next t) : t.cfg = s.cfg :=
  command_cfg (F := (· = .illegal)) (bytes := 0) (within_fail rfl) h

theorem runWord_cfg {w : Word} {s t : State} (h : runWord w s = .next t) : t.cfg = s.cfg := by
  unfold runWord at h
  split at h
  · exact exec_cfg h
  · exact illegalCommand_cfg h

theorem stepMove_cfg {m : HostMove} {s t : State} (h : stepMove m s = .next t) : t.cfg = s.cfg := by
  unfold stepMove at h
  split at h
  · exact (runWord_cfg h).trans (hostMove_cfg s m)
  · cases h
    exact hostMove_cfg s m

/-- What a step that answers has done: nothing, with no host move to make, or the host's next move, on a schedule of
legal accesses. -/
theorem step_cases {s t : State} (h : step s = .next t) :
    (s.host = [] ∧ t = s) ∨ ∃ m q, s.host = m :: q ∧ (m :: q).all HostMove.legal = true ∧
      stepMove m { s with host := q } = .next t := by
  unfold step at h
  split at h
  · cases h
    exact .inl ⟨‹_›, rfl⟩
  · split at h
    · exact .inr ⟨_, _, ‹_›, ‹_›, h⟩
    · cases h

/-- Settles O49: the idle machine stays as it is, and a host move, the command it starts and a reset keep the
parameters. -/
theorem parametersFixed : Obligations.ParametersFixed := by
  intro s t h
  rcases step_cases h with ⟨-, rfl⟩ | ⟨m, q, -, -, hm⟩
  · rfl
  · exact stepMove_cfg (s := { s with host := q }) hm

end Sys2Proof.Machine
end

section
/-! How a command ends when no reset ends it, what its pseudocode leaves by its outcome (`Leaves`), and which registers
a command's rule does not name as written. -/

namespace Sys2Proof.Machine

section
variable {α β κ : Type} {keep : HostRegs → κ} {bytes : Nat} {F : FailClass → Prop} {s t : State}

/-- A sequence that answered: its first piece answered, and then its second. -/
theorem ok_of_andThen {m : Ctl α} {f : α → Ctl β} {b : β} (h : andThen m f s = .ok b t) :
    ∃ a u, m s = .ok a u ∧ f a u = .ok b t := by
  cases e : m s with
  | ok a u => exact ⟨a, u, rfl, (andThen_of_ok e).symm.trans h⟩
  | stop w u => exact nomatch (andThen_of_stop e).symm.trans h

/-- A sequence that stopped: its first piece did, or its second after the first answered. -/
theorem stop_of_andThen {m : Ctl α} {f : α → Ctl β} {w : Stop} (h : andThen m f s = .stop w t) :
    m s = .stop w t ∨ ∃ a u, m s = .ok a u ∧ f a u = .stop w t := by
  cases e : m s with
  | ok a u => exact .inr ⟨a, u, rfl, (andThen_of_ok e).symm.trans h⟩
  | stop v u =>
    cases (andThen_of_stop e).symm.trans h
    exact .inl rfl

/-! ### The end of a command -/

/-- `u` is `t` after host moves of a running command: they reach the schedule, the record of reads, the draw counter and
`H_STATUS` (10_state.md R23). -/
def HostMoved (t u : State) : Prop :=
  ∃ l d p st, u = { t with reads := l, draws := d, host := p, regs := { t.regs with status := st } }

/-- A host's turn that is not ended by a reset makes host moves only. -/
theorem hostMoved_of_tick (h : tick s = .ok () t) : HostMoved s t := by
  have k := hostTurn_frame s.host s
  rw [show hostTurn s.host s = .ok () t from h] at k
  obtain ⟨l, d, st, p, rfl, -⟩ := k
  exact ⟨l, d, p, st, rfl⟩

/-- The completion step comes after host moves, unless a reset comes first. -/
theorem completionStep_cases (cls : Option FailClass) (s : State) :
    (∃ u, HostMoved s u ∧ completionStep cls s = u.complete cls) ∨
      (HostMove.reset ∈ s.host ∧ ∃ u : State, completionStep cls s = u.applyReset) := by
  unfold completionStep
  cases e : tick s with
  | ok a u => exact .inl ⟨u, hostMoved_of_tick e, rfl⟩
  | stop w u =>
    have k := hostTurn_frame s.host s
    rw [show hostTurn s.host s = .stop w u from e] at k
    cases w with
    | fail c => exact k.elim
    | reset =>
      obtain ⟨hr, l, d, st, p, rfl, -⟩ := k
      exact .inr ⟨hr, _, rfl⟩

/-- A command whose pseudocode is within a frame ends by its completion step after host moves, with no class if the
pseudocode reached its end and with the class it failed with otherwise, or by a reset that the host scheduled. -/
theorem command_ends {body : Ctl Unit} (hb : Within F keep bytes body) (h : command body s = .next t) :
    (∃ u v, HostMoved u v ∧ ((body s = .ok () u ∧ t = v.complete none) ∨
        ∃ c, body s = .stop (.fail c) u ∧ t = v.complete (some c))) ∨
      (HostMove.reset ∈ s.host ∧ ∃ u : State, t = u.applyReset) := by
  have k := hb s
  cases h
  cases e : body s with
  | ok a u =>
    rw [e] at k
    rcases completionStep_cases none u with ⟨v, hv, he⟩ | ⟨hr, v, he⟩
    · exact .inl ⟨u, v, hv, .inl ⟨rfl, he⟩⟩
    · exact .inr ⟨k.host _ hr, v, he⟩
  | stop w u =>
    rw [e] at k
    cases w with
    | fail c =>
      rcases completionStep_cases (some c) u with ⟨v, hv, he⟩ | ⟨hr, v, he⟩
      · exact .inl ⟨u, v, hv, .inr ⟨c, rfl, he⟩⟩
      · exact .inr ⟨k.2.host _ hr, v, he⟩
    | reset =>
      obtain ⟨hr, v, -, rfl⟩ := k
      exact .inr ⟨hr, v, rfl⟩

/-- With no reset scheduled, a command ends by its completion step. -/
theorem command_completes {body : Ctl Unit} (hb : Within F keep bytes body) (hs : s.NoReset)
    (h : command body s = .next t) : ∃ u v, HostMoved u v ∧ ((body s = .ok () u ∧ t = v.complete none) ∨
      ∃ c, body s = .stop (.fail c) u ∧ t = v.complete (some c)) :=
  (command_ends hb h).resolve_right fun k => hs k.1

/-- With no reset scheduled, a command leaves a state within its frame, then completes. -/
theorem exec_frame (hk : IgnoresStatus keep) {i : Instr} (hw : IgnoresWrites keep i) (hs : s.NoReset)
    (h : exec i s = .next t) : ∃ u cls, Frame keep (dbufBytesWritten i) s u ∧ t = u.complete cls := by
  obtain ⟨body, he, hb⟩ := exec_within hk i hw s
  cases he.symm.trans h
  rcases finish_cases hk hb s with ⟨u, cls, hu, hf, -⟩ | ⟨hr, -⟩
  · exact ⟨u, cls, hu, hf⟩
  · exact absurd hr hs

/-- With no reset scheduled, a command keeps every view of the host registers that does not look at `H_STATUS` or at
what the command's rule names as written. -/
theorem exec_keeps (hk : IgnoresStatus keep) {i : Instr} (hw : IgnoresWrites keep i) (hs : s.NoReset)
    (h : exec i s = .next t) : keep t.regs = keep s.regs := by
  obtain ⟨u, cls, hu, rfl⟩ := exec_frame hk hw hs h
  exact (hk _ _).trans hu.regs

/-! ### What pseudocode leaves, by its outcome -/

/-- From a state that meets `pre`, `m` leaves one that meets `post` of its answer when it answers, and one that meets
`exc` when it fails with a class. -/
structure Leaves (pre : State → Prop) (m : Ctl α) (post : α → State → Prop) (exc : State → Prop) : Prop where
  ok : ∀ {s a t}, pre s → m s = .ok a t → post a t
  fail : ∀ {s c t}, pre s → m s = .stop (.fail c) t → exc t

variable {pre mid exc : State → Prop}

theorem leaves_andThen {m : Ctl α} {f : α → Ctl β} {mid : α → State → Prop} {post : β → State → Prop}
    (hm : Leaves pre m mid exc) (hf : ∀ a, Leaves (mid a) (f a) post exc) : Leaves pre (andThen m f) post exc where
  ok hs h := by
    obtain ⟨a, u, h1, h2⟩ := ok_of_andThen h
    exact (hf a).ok (hm.ok hs h1) h2
  fail hs h := by
    rcases stop_of_andThen h with h | ⟨a, u, h1, h2⟩
    · exact hm.fail hs h
    · exact (hf a).fail (hm.ok hs h1) h2

theorem leaves_before {m : Ctl Unit} {n : Ctl α} {post : α → State → Prop}
    (hm : Leaves pre m (fun _ => mid) exc) (hn : Leaves mid n post exc) : Leaves pre (before m n) post exc :=
  leaves_andThen hm fun _ => hn

theorem leaves_ret {a : α} {post : α → State → Prop} (h : ∀ s, pre s → post a s) : Leaves pre (ret a) post exc where
  ok hs e := by
    cases e
    exact h _ hs
  fail _ e := nomatch e

theorem leaves_fail {cls : FailClass} {post : α → State → Prop} (h : ∀ s, pre s → exc s) :
    Leaves pre (fail cls : Ctl α) post exc where
  ok _ e := nomatch e
  fail hs e := by
    cases e
    exact h _ hs

/-- A command's write of host registers. -/
theorem leaves_writeAt {off : Nat} {f : State → State} {post : Unit → State → Prop}
    (h : ∀ s, pre s → post () (State.record off s (f s))) : Leaves pre (writeAt off f) post exc where
  ok hs e := by
    cases e
    exact h _ hs
  fail _ e := nomatch e

/-- Procedure `p`, then `q` if it answered OK; a FAIL of either leaves `no`. -/
theorem leaves_ifOk {p q : Ctl Bool} {yes no : State → Prop}
    (hp : Leaves pre p (fun ok => if ok then mid else no) exc)
    (hq : Leaves mid q (fun ok => if ok then yes else no) exc) :
    Leaves pre (ifOk p q) (fun ok => if ok then yes else no) exc :=
  leaves_andThen hp fun ok => by
    cases ok with
    | true => exact hq
    | false => exact leaves_ret fun _ h => h

/-- `must p` fails where `p` answers FAIL. -/
theorem leaves_must {p : Ctl Bool} (h : Leaves pre p (fun ok => if ok then mid else exc) exc) :
    Leaves pre (must p) (fun _ => mid) exc :=
  leaves_andThen h fun ok => by
    cases ok with
    | true => exact leaves_ret fun _ h => h
    | false => exact leaves_fail fun _ h => h

/-- A piece within a frame leaves the view as it was. -/
theorem leaves_of_within {m : Ctl α} (h : Within F keep bytes m) (x : κ) :
    Leaves (fun u => keep u.regs = x) m (fun _ u => keep u.regs = x) (fun u => keep u.regs = x) where
  ok {s a t} hs e := by
    have k := h s
    rw [e] at k
    exact k.regs.trans hs
  fail {s c t} hs e := by
    have k := h s
    rw [e] at k
    exact k.2.regs.trans hs

/-- The same of a procedure, whatever it answers. -/
theorem leaves_of_procedure {p : Ctl Bool} (h : Within F keep bytes p) (x : κ) :
    Leaves (fun u => keep u.regs = x) p
      (fun ok => if ok then (fun u => keep u.regs = x) else fun u => keep u.regs = x) (fun u => keep u.regs = x) := by
  simpa only [ite_self] using leaves_of_within h x

/-- The view after a command whose pseudocode leaves `x` of it at its end and `y` at a failure: `x` if READY, else `y`,
unless a reset that the host scheduled ended the command. -/
theorem command_view (hk : IgnoresStatus keep) {κ' : Type} {keep' : HostRegs → κ'} {body : Ctl Unit} {x y : κ}
    (hb : Within F keep' bytes body)
    (hl : Leaves pre body (fun _ u => keep u.regs = x) fun u => keep u.regs = y) (hp : pre s)
    (h : command body s = .next t) : keep t.regs = (if t.regs.status.ready then x else y) ∨
      (HostMove.reset ∈ s.host ∧ ∃ u : State, t = u.applyReset) := by
  refine (command_ends hb h).imp_left ?_
  rintro ⟨u, v, ⟨l, d, p, st, rfl⟩, ⟨e, rfl⟩ | ⟨c, e, rfl⟩⟩
  · exact (hk _ _).trans ((hk _ _).trans (hl.ok hp e))
  · exact (hk _ _).trans ((hk _ _).trans (hl.fail hp e))

end

/-! ### What the commands' rules do not name as written -/

variable (r t : HostRegs)

@[simp] theorem writtenBy_agCount (i : Instr) : (HostRegs.writtenBy r t i).agCount = r.agCount := by
  cases i with
  | autocal rb => cases rb <;> rfl
  | _ => rfl

theorem writtenBy_agCursor {i : Instr} (h : i ≠ .agStep) : (HostRegs.writtenBy r t i).agCursor = r.agCursor := by
  cases i with
  | agStep => exact absurd rfl h
  | autocal rb => cases rb <;> rfl
  | _ => rfl

theorem writtenBy_cdState {i : Instr} (hc : ∀ motor dt strength lib, i ≠ .cdConfigure motor dt strength lib)
    (hs : i ≠ .cdStart) (hp : i ≠ .cdStop) : (HostRegs.writtenBy r t i).cdState = r.cdState := by
  cases i with
  | cdConfigure motor dt strength lib => exact absurd rfl (hc motor dt strength lib)
  | cdStart => exact absurd rfl hs
  | cdStop => exact absurd rfl hp
  | autocal rb => cases rb <;> rfl
  | _ => rfl

theorem writtenBy_rtReady {i : Instr} (hr : i ≠ .rtPrepare) (ha : ∀ amp, i ≠ .playFreqAmp amp)
    (hv : i ≠ .playFreqVoltage) : (HostRegs.writtenBy r t i).rtReady = r.rtReady := by
  cases i with
  | rtPrepare => exact absurd rfl hr
  | playFreqAmp amp => exact absurd rfl (ha amp)
  | playFreqVoltage => exact absurd rfl hv
  | autocal rb => cases rb <;> rfl
  | _ => rfl

end Sys2Proof.Machine
end

section
/-! The invariant between two steps (`State.Inv`): at reset, through a host move on the idle machine, and through a
command that the host's move starts. -/

namespace Sys2Proof.Machine

/-- The part of the invariant that holds while a command runs too: `cursor <= count <= MAX_FRAMES` (10_state.md R30,
R45) and the canonical form of memory. -/
structure State.GroupFits (s : State) : Prop where
  cursor : s.regs.agCursor ≤ s.regs.agCount
  count : s.regs.agCount.toNat ≤ s.cfg.maxFrames.toNat
  memory : s.mem.wf

theorem State.Inv.groupFits {s : State} (h : s.Inv) : s.GroupFits :=
  ⟨h.cursorInGroup, h.countInMemory, h.memoryCanonical⟩

/-- The host's moves during a command change nothing of it. -/
theorem State.GroupFits.hostMoved {s u : State} (h : s.GroupFits) (hu : HostMoved s u) : u.GroupFits := by
  obtain ⟨l, d, p, st, rfl⟩ := hu
  exact ⟨h.cursor, h.count, h.memory⟩

theorem init_inv (c : Params) : (State.init c).Inv where
  idle := rfl
  nothingHidden := rfl
  readyHasNoClass _ := rfl
  cursorInGroup := BitVec.le_refl _
  countInMemory := Nat.zero_le _
  memoryCanonical := init_wf c

/-- Settles O47: every field of the reset state meets its part of the invariant. -/
theorem invariantAtReset : Obligations.InvariantAtReset := ⟨init_inv, init_inv _⟩

/-- A reset leaves the registers and the memory of the state after reset. -/
theorem applyReset_inv (s : State) : s.applyReset.Inv :=
  let ⟨idle, hidden, ready, cursor, count, memory⟩ := init_inv s.cfg
  ⟨idle, hidden, ready, cursor, count, memory⟩

/-- The completion step leaves the machine idle, nothing hidden, and no class with READY (60_exceptions.md R229). -/
theorem complete_inv {s : State} (h : s.GroupFits) (cls : Option FailClass) : (s.complete cls).Inv where
  idle := rfl
  nothingHidden := rfl
  readyHasNoClass := by
    cases cls with
    | none => exact fun _ => rfl
    | some c => exact fun hr => nomatch hr
  cursorInGroup := h.cursor
  countInMemory := h.count
  memoryCanonical := h.memory

/-! ### A move on the idle machine -/

/-- A state with the fields the invariant looks at. -/
theorem State.Inv.of_fields {s t : State} (h : s.Inv) (hb : t.regs.status.busy = s.regs.status.busy)
    (hr : t.regs.status.ready = s.regs.status.ready) (he : t.regs.status.errClass = s.regs.status.errClass)
    (hc : t.regs.agCursor = s.regs.agCursor) (hn : t.regs.agCount = s.regs.agCount) (hp : t.cfg = s.cfg)
    (hw : t.written = s.written) (hm : t.mem.wf) : t.Inv where
  idle := hb.trans h.idle
  nothingHidden := hw.trans h.nothingHidden
  readyHasNoClass := by
    rw [hr, he]
    exact h.readyHasNoClass
  cursorInGroup := by
    rw [hc, hn]
    exact h.cursorInGroup
  countInMemory := by
    rw [hn, hp]
    exact h.countInMemory
  memoryCanonical := hm

theorem setDbufWord_eq (s : State) (i : Nat) (v : Word) :
    s.setDbufWord i v = { s with mem := (s.setDbufWord i v).mem } := by
  unfold State.setDbufWord
  rw [setDbufByte_eq, setDbufByte_eq (State.setDbufByte _ (i + 1) _), setDbufByte_eq (State.setDbufByte _ i _),
    setDbufByte_eq s]

theorem setFrameWord_eq (s : State) (i : Nat) (v : Word) :
    s.setFrameWord i v = { s with mem := (s.setFrameWord i v).mem } := by
  unfold State.setFrameWord
  split
  · rw [setMemByte_eq, setMemByte_eq (State.setMemByte _ (framesBase + 4 * i + 1) _),
      setMemByte_eq (State.setMemByte _ (framesBase + 4 * i) _), setMemByte_eq s]
  · rfl

/-- `H_AG_COUNT` takes at most `MAX_FRAMES`, with the cursor at 0 (10_state.md R30). -/
theorem setAgCount_toNat_le (r : HostRegs) (maxFrames : Half) (v : Word) :
    (r.setAgCount maxFrames v).agCount.toNat ≤ maxFrames.toNat := by
  simp only [HostRegs.setAgCount, BitVec.toNat_ofNat]
  exact (Nat.mod_le _ _).trans (Nat.min_le_right _ _)

/-- A store to any offset but `H_CMD` keeps the invariant: only `H_AG_COUNT`, which clamps, and the buffers touch what
it speaks of. -/
theorem hostStore_inv {s : State} (h : s.Inv) {off : Nat} (ho : off ≠ offCmd) (v : Word) : (s.hostStore off v).Inv := by
  unfold State.hostStore
  split
  case h_2 => exact absurd rfl ho
  case h_9 =>
    exact ⟨h.idle, h.nothingHidden, h.readyHasNoClass, Nat.zero_le _, setAgCount_toNat_le _ _ v, h.memoryCanonical⟩
  case h_14 =>
    split
    · rw [setDbufWord_eq]
      exact h.of_fields rfl rfl rfl rfl rfl rfl rfl (setDbufWord_wf _ v h.memoryCanonical)
    · split
      · rw [setFrameWord_eq]
        exact h.of_fields rfl rfl rfl rfl rfl rfl rfl (setFrameWord_wf _ v h.memoryCanonical)
      · exact h
  all_goals exact h.of_fields rfl rfl rfl rfl rfl rfl rfl h.memoryCanonical

/-- A host move that starts no command keeps the invariant. -/
theorem hostMove_inv {s : State} (h : s.Inv) {m : HostMove} (hm : s.acceptedWord m = none) : (s.hostMove m).Inv := by
  cases m with
  | read off n =>
    simp only [State.hostMove, h.idle, Bool.false_eq_true, if_false]
    exact h.of_fields rfl rfl rfl rfl rfl rfl rfl h.memoryCanonical
  | write off n v =>
    simp only [State.hostMove, h.idle, Bool.false_eq_true, if_false]
    refine hostStore_inv h (fun ho => ?_) v
    exact nomatch (if_pos ⟨ho, h.idle⟩ : s.acceptedWord (.write off n v) = some v).symm.trans hm
  | pass => exact h
  | reset => exact applyReset_inv s

/-! ### A command -/

/-- The cursor over the pseudocode of AG_STEP: one on, or back to 0 at the end of the group, and as it was after a
failure (44_timed_routines.md R189). -/
theorem leaves_agStepBody (c : Params) (cursor count : BitVec 9) (frame : Word) (pause : Half) :
    Leaves (fun u => u.regs.agCursor = cursor) (agStepBody c cursor count frame pause)
      (fun _ u => u.regs.agCursor = if cursor < count then cursor + 1 else 0) (fun u => u.regs.agCursor = cursor) := by
  have play (v : Byte) (n : Nat) (next : BitVec 9) : Leaves (fun u => u.regs.agCursor = cursor)
      (before (must (setRtp c v)) <| before (delayMsUnlessZero n) <| setAgCursor next)
      (fun _ u => u.regs.agCursor = next) (fun u => u.regs.agCursor = cursor) :=
    have hk : IgnoresStatus (·.agCursor) := fun _ _ => rfl
    leaves_before (leaves_of_within (within_mustWrite (F := busOnly) (bytes := 0) hk rfl _ v) cursor) <|
      leaves_before (leaves_of_within (F := busOnly) (bytes := 0) (within_delayMsUnlessZero hk n) cursor) <|
      leaves_writeAt fun _ _ => rfl
  unfold agStepBody
  split
  · exact play _ _ _
  · exact play _ _ _

/-- AG_STEP leaves the cursor one on below the count or at 0 if READY, and as it was otherwise, unless a reset ends
it. -/
theorem execAgStep_cursor {s t : State} (h : exec .agStep s = .next t) :
    t.regs.agCursor = (if t.regs.status.ready then
        (if s.regs.agCursor < s.regs.agCount then s.regs.agCursor + 1 else 0) else s.regs.agCursor) ∨
      (HostMove.reset ∈ s.host ∧ ∃ u : State, t = u.applyReset) :=
  have hk : IgnoresStatus (·.agCount) := fun _ _ => rfl
  command_view (keep := (·.agCursor)) (fun _ _ => rfl)
    (within_agStepBody (F := busOnly) (bytes := 0) hk rfl (fun _ _ => rfl) _ _ _ _ _)
    (leaves_agStepBody _ _ _ _ _) rfl h

/-- The cursor over any command, a reset in the middle of it included. -/
theorem exec_cursor {i : Instr} {s t : State} (h : exec i s = .next t) : t.regs.agCursor = s.regs.agCursor ∨
    t.regs.agCursor = 0 ∨ (s.regs.agCursor < s.regs.agCount ∧ t.regs.agCursor = s.regs.agCursor + 1) := by
  by_cases hi : i = .agStep
  · subst hi
    rcases execAgStep_cursor h with hc | ⟨-, u, rfl⟩
    · rw [hc]
      split
      · split
        · exact .inr (.inr ⟨‹_›, rfl⟩)
        · exact .inr (.inl rfl)
      · exact .inl rfl
    · exact .inr (.inl rfl)
  · obtain ⟨body, he, hb⟩ := exec_within (keep := (·.agCursor)) (fun _ _ => rfl) i
      (fun r u => writtenBy_agCursor r u hi) s
    cases he.symm.trans h
    rcases finish_cases (fun _ _ => rfl) hb s with ⟨u, cls, hu, hf, -⟩ | ⟨-, u, -, hf⟩
    · exact .inl (hf ▸ hu.regs)
    · exact .inr (.inl (hf ▸ rfl))

/-- A command keeps `cursor <= count <= MAX_FRAMES` and the canonical form of memory, and ends in the invariant. -/
theorem exec_inv {i : Instr} {s t : State} (hs : s.GroupFits) (h : exec i s = .next t) : t.Inv := by
  obtain ⟨body, he, hb⟩ := exec_within (keep := (·.agCount)) (fun _ _ => rfl) i (fun r u => writtenBy_agCount r u i) s
  have hc := exec_cursor h
  cases he.symm.trans h
  rcases finish_cases (fun _ _ => rfl) hb s with ⟨u, cls, hu, hf, -⟩ | ⟨-, u, -, hf⟩
  · rw [hf] at hc ⊢
    have count : u.regs.agCount = s.regs.agCount := hu.regs
    refine complete_inv ⟨?_, ?_, hu.memWf hs.memory⟩ cls
    · have cursor := hs.cursor
      simp only [complete_regs] at hc
      rw [count]
      rcases hc with hc | hc | ⟨below, hc⟩
      · rwa [hc]
      · rw [hc]
        exact Nat.zero_le _
      · rw [hc]
        bv_omega
    · rw [count, hu.cfg]
      exact hs.count
  · rw [hf]
    exact applyReset_inv u

/-- An ILLEGAL command touches nothing the invariant speaks of but `H_STATUS`. -/
theorem illegalCommand_inv {s t : State} (hs : s.GroupFits) (h : illegalCommand s = .next t) : t.Inv := by
  cases h
  change (completionStep (some .illegal) s).Inv
  rcases completionStep_cases (some .illegal) s with ⟨u, hu, he⟩ | ⟨-, u, he⟩
  · rw [he]
    exact complete_inv (hs.hostMoved hu) _
  · rw [he]
    exact applyReset_inv u

theorem runWord_inv {w : Word} {s t : State} (hs : s.GroupFits) (h : runWord w s = .next t) : t.Inv := by
  unfold runWord at h
  split at h
  · exact exec_inv hs h
  · exact illegalCommand_inv hs h

/-- Only a write to `H_CMD` on the idle machine is accepted, and its move is the acceptance (10_state.md R24). -/
theorem hostMove_of_accepted {s : State} {m : HostMove} {w : Word} (h : s.acceptedWord m = some w) :
    s.hostMove m = s.accept w := by
  cases m with
  | write off n v =>
    simp only [State.acceptedWord, Option.ite_none_right_eq_some, Option.some.injEq] at h
    obtain ⟨⟨ho, hi⟩, rfl⟩ := h
    simp only [State.hostMove, hi, ho]
    rfl
  | read off n => exact nomatch h
  | pass => exact nomatch h
  | reset => exact nomatch h

theorem stepMove_inv {m : HostMove} {s t : State} (hs : s.Inv) (h : stepMove m s = .next t) : t.Inv := by
  unfold stepMove at h
  split at h
  next w hw =>
    rw [hostMove_of_accepted hw] at h
    have ⟨cursor, count, memory⟩ := hs.groupFits
    exact runWord_inv (s := s.accept w) ⟨cursor, count, memory⟩ h
  next hw =>
    cases h
    exact hostMove_inv hs hw

/-- Settles O48: a step is nothing, a host move on the idle machine, or an accepted command run to its end. -/
theorem invariantKept : Obligations.InvariantKept := by
  intro s t hs h
  rcases step_cases h with ⟨-, rfl⟩ | ⟨m, q, -, -, hm⟩
  · exact hs
  · have hq : State.Inv { s with host := q } := hs.of_fields rfl rfl rfl rfl rfl rfl rfl hs.memoryCanonical
    exact stepMove_inv hq hm

end Sys2Proof.Machine
end

section
/-! The memory frame and the session state machines of 10_state.md R43 to R45 over every command. -/

namespace Sys2Proof.Machine

/-! ### Memory -/

/-- A byte of the buffers is its listed value, or the free value of the reset number. -/
theorem memByte_congr {s t : State} {a : Nat} (hm : t.mem.lookup a = s.mem.lookup a) (hr : t.resets = s.resets) :
    t.memByte a = s.memByte a := by
  unfold State.memByte
  rw [hm, hr]

/-- With no reset scheduled, a command stores to no byte but the first ones of DBUF that its rule names. -/
theorem exec_memByte {i : Instr} {s t : State} (hs : s.NoReset) (h : exec i s = .next t) {a : Nat}
    (ha : ¬(dbufBase ≤ a ∧ a < dbufBase + dbufBytesWritten i)) : t.memByte a = s.memByte a := by
  obtain ⟨u, cls, hu, rfl⟩ := exec_frame (keep := noView) (fun _ _ => rfl) (fun _ _ => rfl) hs h
  exact memByte_congr (hu.mem a ha) hu.resets

/-- Only BUS_READ stores to DBUF (40_bus_engine.md R111). -/
theorem dbufBytesWritten_eq_zero {i : Instr} (h : ∀ reg n dv, i ≠ .busRead reg n dv) : dbufBytesWritten i = 0 := by
  cases i with
  | busRead reg n dv => exact absurd rfl (h reg n dv)
  | _ => rfl

/-- Settles O41: the frame of a command leaves open the DBUF bytes that BUS_READ may store to, and no byte otherwise. -/
theorem commandsKeepMemory : Obligations.CommandsKeepMemory := by
  intro i s t hs h
  refine ⟨?_, fun hi a => exec_memByte hs h ?_⟩
  · rintro reg n dv rfl a ha
    exact exec_memByte hs h ha
  · rw [dbufBytesWritten_eq_zero hi]
    omega

/-! ### Sessions -/

/-- `command_view` for a host that schedules no reset. -/
theorem command_view_noReset {κ κ' : Type} {keep : HostRegs → κ} (hk : IgnoresStatus keep) {keep' : HostRegs → κ'}
    {bytes : Nat} {F : FailClass → Prop} {pre : State → Prop} {body : Ctl Unit} {x y : κ} {s t : State}
    (hb : Within F keep' bytes body)
    (hl : Leaves pre body (fun _ u => keep u.regs = x) fun u => keep u.regs = y) (hp : pre s) (hs : s.NoReset)
    (h : command body s = .next t) : keep t.regs = if t.regs.status.ready then x else y :=
  (command_view hk hb hl hp h).resolve_right fun k => hs k.1

section
variable (c : Params)

/-- A register write keeps the session state. -/
theorem leaves_mustWrite_cdState (reg v : Byte) (x : CdState) :
    Leaves (fun u => u.regs.cdState = x) (must (writeRegister reg v)) (fun _ u => u.regs.cdState = x)
      (fun u => u.regs.cdState = x) :=
  leaves_of_within (keep := (·.cdState)) (bytes := 0) (within_mustWrite (F := busOnly) (fun _ _ => rfl) rfl reg v) x

theorem leaves_setCdState {pre exc : State → Prop} (v : CdState) :
    Leaves pre (setCdState v) (fun _ u => u.regs.cdState = v) exc :=
  leaves_writeAt fun _ _ => rfl

/-- CD_CONFIGURE takes the session back to UNCONFIGURED at once, and to CONFIGURED_IDLE with its last action
(44_timed_routines.md R180). -/
theorem leaves_cdConfigureBody (motor : Motor) (dt strength lib : Byte) :
    Leaves (fun _ => True) (cdConfigureBody c motor dt strength lib)
      (fun _ u => u.regs.cdState = .configuredIdle) (fun u => u.regs.cdState = .unconfigured) :=
  have hk : IgnoresStatus (·.cdState) := fun _ _ => rfl
  leaves_before (leaves_setCdState _) <| leaves_before (leaves_mustWrite_cdState _ _ _) <|
    leaves_before (leaves_mustWrite_cdState _ _ _) <|
    leaves_andThen
      (leaves_of_within (F := busOnly) (bytes := 0) (within_readRegister hk (driveTimeAddr c)) .unconfigured) fun _ =>
    leaves_before (leaves_mustWrite_cdState _ _ _) <|
    leaves_before (leaves_of_within (F := busOnly) (bytes := 0)
      (within_setCdStrength (keep := (·.cdState)) (fun _ _ => rfl) _) .unconfigured) <|
    leaves_setCdState _

/-- CD_START goes to RUNNING with its last action (44_timed_routines.md R181). -/
theorem leaves_cdStartBody (x state : CdState) (strength : BitVec 7) :
    Leaves (fun u => u.regs.cdState = x) (cdStartBody c state strength) (fun _ u => u.regs.cdState = .running)
      (fun u => u.regs.cdState = x) :=
  have check (ok : Bool) := leaves_of_within (keep := (·.cdState)) (F := fun _ => True) (bytes := 0)
    (within_require (cls := .arg) ok trivial) x
  leaves_before (check _) <| leaves_before (leaves_mustWrite_cdState _ _ _) <| leaves_before (leaves_mustWrite_cdState _ _ _) <|
    leaves_before (leaves_mustWrite_cdState _ _ _) <| leaves_setCdState _

/-- CD_STOP takes RUNNING to CONFIGURED_IDLE with its last action (44_timed_routines.md R182). -/
theorem leaves_cdStopBody (state : CdState) :
    Leaves (fun u => u.regs.cdState = state) (cdStopBody c state)
      (fun _ u => u.regs.cdState = if state = .running then .configuredIdle else state)
      (fun u => u.regs.cdState = state) := by
  refine leaves_before (leaves_mustWrite_cdState _ _ _) <| leaves_before (leaves_mustWrite_cdState _ _ _) ?_
  split
  · exact leaves_setCdState _
  · exact leaves_ret fun _ h => h

end

/-- A READY command has no class, and one that fails the first check of its pseudocode has that check's class. -/
theorem errClass_of_fail {body : Ctl Unit} {s u t : State} {cls : FailClass} (hs : s.NoReset)
    (hu : body s = .stop (.fail cls) u) (hb : Within (fun _ => True) noView 0 body) (h : command body s = .next t) :
    t.regs.status.errClass = some cls := by
  obtain ⟨u', v, -, ⟨e, rfl⟩ | ⟨c, e, rfl⟩⟩ := command_completes hb hs h
  · exact nomatch hu.symm.trans e
  · cases hu.symm.trans e
    rfl

theorem execCdStart_unconfigured {s t : State} (hs : s.NoReset) (hc : s.regs.cdState = .unconfigured)
    (h : exec .cdStart s = .next t) : t.regs.status.errClass = some .arg := by
  refine errClass_of_fail (u := s) hs ?_ (within_cdStartBody (fun _ _ => rfl) trivial trivial (fun _ _ => rfl) _ _ _) h
  rw [hc]
  rfl

/-- Settles O42: the three session commands write the state last, CD_CONFIGURE also first, and no other command's rule
names it. -/
theorem cdStateMachine : Obligations.CdStateMachine := by
  intro i s t hs h
  have hk : IgnoresStatus (fun r => r.cdState) := fun _ _ => rfl
  have hn : IgnoresStatus noView := fun _ _ => rfl
  refine ⟨?_, ?_, ?_, fun hc h1 h2 => exec_keeps hk (fun r u => writtenBy_cdState r u hc h1 h2) hs h⟩
  · rintro motor dt strength lib rfl
    exact command_view_noReset hk
      (within_cdConfigureBody (F := busOnly) (bytes := 0) hn rfl (fun _ _ => rfl) (fun _ _ => rfl) _ _ _ _ _)
      (leaves_cdConfigureBody _ _ _ _ _) trivial hs h
  · rintro rfl
    exact ⟨command_view_noReset hk
      (within_cdStartBody (F := fun _ => True) (bytes := 0) hn trivial trivial (fun _ _ => rfl) _ _ _)
      (leaves_cdStartBody _ _ _ _) rfl hs h, fun hc => execCdStart_unconfigured hs hc h⟩
  · rintro rfl
    rw [command_view_noReset hk (within_cdStopBody (F := busOnly) (bytes := 0) hn rfl (fun _ _ => rfl) _ _)
      (leaves_cdStopBody _ _) rfl hs h]
    simp only [ite_and]

/-! ### The latch of direct drive -/

/-- The steps of PrepareRealtime set the latch with their last action, and leave it as it was if they answer FAIL
(44_timed_routines.md R183). -/
theorem leaves_prepareSteps (c : Params) (b : Bool) :
    Leaves (fun u => u.regs.rtReady = b) (prepareSteps c)
      (fun ok => if ok then (fun u => u.regs.rtReady = true) else fun u => u.regs.rtReady = b)
      (fun u => u.regs.rtReady = b) :=
  have hk : IgnoresStatus (·.rtReady) := fun _ _ => rfl
  have write (reg v : Byte) := leaves_of_procedure (F := busOnly) (bytes := 0) (within_writeRegister hk reg v) b
  leaves_ifOk (write _ _) <| leaves_before (leaves_of_within (F := busOnly) (bytes := 0) (within_delayMs hk _) b) <|
    leaves_ifOk (write _ _) <| leaves_ifOk (write _ _) <| leaves_ifOk (write _ _) <|
    leaves_before (mid := fun u => u.regs.rtReady = true) (leaves_writeAt fun _ _ => rfl) (leaves_ret fun _ h => h)

theorem leaves_prepareRealtime (c : Params) (b : Bool) :
    Leaves (fun u => u.regs.rtReady = b) (prepareRealtime c)
      (fun ok => if ok then (fun u => u.regs.rtReady = true) else fun u => u.regs.rtReady = b)
      (fun u => u.regs.rtReady = b) where
  ok {s a t} hs e := by
    rw [prepareRealtime_eq] at e
    split at e
    next hr =>
      cases e
      exact hr
    next => exact (leaves_prepareSteps c b).ok hs e
  fail {s cls t} hs e := by
    rw [prepareRealtime_eq] at e
    split at e
    next => exact nomatch e
    next => exact (leaves_prepareSteps c b).fail hs e

/-- A set latch stays set over an argument check. -/
theorem leaves_checkRtReady (ok : Bool) : Leaves (fun u => u.regs.rtReady = true) (require ok .arg)
    (fun _ u => u.regs.rtReady = true) (fun u => u.regs.rtReady = true) :=
  leaves_of_within (keep := (·.rtReady)) (F := fun _ => True) (bytes := 0) (within_require ok trivial) true

/-- A set latch stays set over the pseudocode of a burst. -/
theorem leaves_playBody (c : Params) (f : Nat) (a : Byte) (burst pause : Half) :
    Leaves (fun u => u.regs.rtReady = true) (playBody c f a burst pause) (fun _ u => u.regs.rtReady = true)
      (fun u => u.regs.rtReady = true) :=
  have hk : IgnoresStatus (·.rtReady) := fun _ _ => rfl
  leaves_before (leaves_checkRtReady _) <| leaves_before (leaves_must (leaves_prepareRealtime c true)) <|
    leaves_of_within (F := busOnly) (bytes := 0)
      (within_before (within_toneLoop (F := busOnly) hk rfl c _ _ _) (within_delayMsUnlessZero hk _)) _

theorem leaves_playVoltageBody (c : Params) (f : Nat) (mv mx burst pause : Half) :
    Leaves (fun u => u.regs.rtReady = true) (playVoltageBody c f mv mx burst pause) (fun _ u => u.regs.rtReady = true)
      (fun u => u.regs.rtReady = true) :=
  leaves_before (leaves_checkRtReady _) <| leaves_before (leaves_checkRtReady _) <| leaves_playBody c f _ burst pause

/-- RT_PREPARE leaves the latch set when READY and as it was otherwise. -/
theorem execRtPrepare_rtReady {s t : State} (hs : s.NoReset) (h : exec .rtPrepare s = .next t) :
    t.regs.rtReady = if t.regs.status.ready then true else s.regs.rtReady :=
  command_view_noReset (keep := (·.rtReady)) (fun _ _ => rfl)
    (within_must (F := busOnly) (bytes := 0) (keep := noView) rfl <|
      within_prepareRealtime (fun _ _ => rfl) (fun _ _ => rfl) _)
    (leaves_must (leaves_prepareRealtime _ _)) rfl hs h

/-- A burst keeps a set latch. -/
theorem rtReady_of_leaves {body : Ctl Unit} {s t : State} (hb : Within (fun _ => True) noView 0 body)
    (hl : Leaves (fun u => u.regs.rtReady = true) body (fun _ u => u.regs.rtReady = true)
      fun u => u.regs.rtReady = true) (hr : s.regs.rtReady = true) (hs : s.NoReset) (h : command body s = .next t) :
    t.regs.rtReady = true := by
  have k := command_view_noReset (keep := (·.rtReady)) (fun _ _ => rfl) hb hl hr hs h
  rwa [ite_self] at k

/-- No command clears the latch. -/
theorem exec_keeps_rtReady {i : Instr} {s t : State} (hs : s.NoReset) (h : exec i s = .next t)
    (hr : s.regs.rtReady = true) : t.regs.rtReady = true := by
  have hn : IgnoresStatus noView := fun _ _ => rfl
  have other (h1 : i ≠ .rtPrepare) (h2 : ∀ amp, i ≠ .playFreqAmp amp) (h3 : i ≠ .playFreqVoltage) :
      t.regs.rtReady = true :=
    (exec_keeps (keep := (·.rtReady)) (fun _ _ => rfl) (fun r u => writtenBy_rtReady r u h1 h2 h3) hs h).trans hr
  cases i with
  | rtPrepare =>
    rw [execRtPrepare_rtReady hs h, hr, ite_self]
  | playFreqAmp amp =>
    exact rtReady_of_leaves (within_playBody hn trivial trivial (fun _ _ => rfl) _ _ _ _ _)
      (leaves_playBody _ _ _ _ _) hr hs h
  | playFreqVoltage =>
    exact rtReady_of_leaves (within_playVoltageBody hn trivial trivial (fun _ _ => rfl) _ _ _ _ _ _)
      (leaves_playVoltageBody _ _ _ _ _ _) hr hs h
  | _ => exact other (fun e => nomatch e) (fun _ e => nomatch e) fun e => nomatch e

/-- Settles O44: the latch is set by the last step of PrepareRealtime, which the direct-drive commands alone run, and
nothing clears it. -/
theorem realtimeLatch : Obligations.RealtimeLatch := by
  refine ⟨fun i s t hs h => ⟨exec_keeps_rtReady hs h, ?_, fun h0 h1 => ?_⟩, fun s t ok h0 h => ?_, fun s hr => ?_⟩
  · rintro rfl
    rw [execRtPrepare_rtReady hs h]
    cases t.regs.status.ready <;> simp
  · by_contra hi
    simp only [not_or, not_exists] at hi
    obtain ⟨hp, ha, hv⟩ := hi
    have keeps := exec_keeps (keep := (·.rtReady)) (fun _ _ => rfl) (fun r u => writtenBy_rtReady r u hp ha hv) hs h
    exact Bool.false_ne_true ((h0.symm.trans keeps.symm).trans h1)
  · have k := (leaves_prepareRealtime s.cfg false).ok h0 h
    cases ok with
    | true => exact k
    | false => exact k
  · rw [prepareRealtime_eq, if_pos hr]

end Sys2Proof.Machine
end

section
/-! The data bytes and the delays that pseudocode issues when it answers (`Issues`), and with them the cursor machine of
10_state.md R45. -/

namespace Sys2Proof.Machine

/-- From `s` to `t` the trace has grown by events whose data bytes are `bs` and whose delays are `ds`. -/
def Issued (s t : State) (bs : List Byte) (ds : List Event) : Prop :=
  ∃ fs, t.trace = s.trace ++ fs ∧ sentBytes fs = bs ∧ delays fs = ds

theorem Issued.refl (s : State) : Issued s s [] [] := ⟨[], (List.append_nil _).symm, rfl, rfl⟩

theorem Issued.trans {s t u : State} {bs cs : List Byte} {ds es : List Event} (h : Issued s t bs ds)
    (k : Issued t u cs es) : Issued s u (bs ++ cs) (ds ++ es) := by
  obtain ⟨fs, ht, rfl, rfl⟩ := h
  obtain ⟨gs, hu, rfl, rfl⟩ := k
  exact ⟨fs ++ gs, by rw [hu, ht, List.append_assoc], List.filterMap_append, List.filter_append _ _⟩

/-- The host's moves issue no event. -/
theorem HostMoved.issued {s t u : State} {bs : List Byte} {ds : List Event} (h : HostMoved t u)
    (k : Issued s t bs ds) : Issued s u bs ds := by
  obtain ⟨l, d, p, st, rfl⟩ := h
  exact k

section
variable {α β : Type} {a : α} {b : β} {bs cs : List Byte} {ds es : List Event}

/-- Whenever `m` answers `a` it has issued the data bytes `bs` and the delays `ds`. -/
def Issues (m : Ctl α) (a : α) (bs : List Byte) (ds : List Event) : Prop :=
  ∀ s t, m s = .ok a t → Issued s t bs ds

theorem issues_ret (a a' : α) : Issues (ret a) a' [] [] := fun s t h => by
  cases h
  exact Issued.refl s

theorem issues_andThen {m : Ctl α} {f : α → Ctl β} (hm : ∀ a, Issues m a bs ds) (hf : ∀ a, Issues (f a) b cs es) :
    Issues (andThen m f) b (bs ++ cs) (ds ++ es) := fun s t h => by
  obtain ⟨a, u, h1, h2⟩ := ok_of_andThen h
  exact (hm a s u h1).trans (hf a u t h2)

theorem issues_before {m : Ctl Unit} {n : Ctl α} (hm : Issues m () bs ds) (hn : Issues n a cs es) :
    Issues (before m n) a (bs ++ cs) (ds ++ es) :=
  issues_andThen (fun _ => hm) fun _ => hn

theorem issues_ite {c : Prop} [Decidable c] {m n : Ctl α} (hm : Issues m a bs ds) (hn : Issues n a bs ds) :
    Issues (if c then m else n) a bs ds := by
  split
  · exact hm
  · exact hn

/-- OK comes only from OK of both procedures. -/
theorem issues_ifOk {p q : Ctl Bool} (hp : Issues p true bs ds) (hq : Issues q true cs es) :
    Issues (ifOk p q) true (bs ++ cs) (ds ++ es) := fun s t h => by
  obtain ⟨ok, u, h1, h2⟩ := ok_of_andThen h
  cases ok with
  | true => exact (hp s u h1).trans (hq u t h2)
  | false => exact nomatch h2

theorem issues_must {p : Ctl Bool} (hp : Issues p true bs ds) : Issues (must p) () bs ds := fun s t h => by
  obtain ⟨ok, u, h1, h2⟩ := ok_of_andThen h
  cases ok with
  | true =>
    cases h2
    exact hp s _ h1
  | false => exact nomatch h2

/-! ### Primitives and the bus engine -/

theorem issues_tick : Issues tick () [] [] := fun s _ h => (hostMoved_of_tick h).issued (Issued.refl s)

/-- An action issues its event. -/
theorem issues_perform (e : State → Event) (bs : List Byte) (ds : List Event) (hb : ∀ s, sentBytes [e s] = bs)
    (hd : ∀ s, delays [e s] = ds) : Issues (perform e id) () bs ds :=
  issues_before issues_tick fun s t h => by
    cases h
    exact ⟨[e s], rfl, hb s, hd s⟩

/-- A sample issues its POLL event alone. -/
theorem issues_sample (x : Snapshot) : Issues sample x [] [] :=
  issues_before issues_tick fun s t h => by
    obtain ⟨y, xs, d, hy⟩ := takeSample_fields s
    simp only [hy] at h
    cases h
    exact ⟨[_], rfl, rfl, rfl⟩

theorem issues_delayMsUnlessZero (n : Nat) : Issues (delayMsUnlessZero n) () [] (pauseEvents n) := by
  unfold delayMsUnlessZero pauseEvents
  split
  · exact issues_ret _ _
  · exact issues_perform _ _ _ (fun _ => rfl) fun _ => rfl

theorem issues_waitLoop (c : Cond) (k : Nat) (ok : Bool) : Issues (waitLoop c k) ok [] [] := by
  induction k with
  | zero => exact issues_andThen issues_sample fun _ => issues_ret _ _
  | succ k ih =>
    exact issues_andThen issues_sample fun _ => issues_ite (issues_ret _ _) (issues_ite (issues_ret _ _) ih)

theorem issues_wait (c : Cond) (ok : Bool) : Issues (wait c) ok [] [] := fun s => issues_waitLoop c _ ok s

/-- Recovery clears the flags and sends nothing. -/
theorem issues_recover : Issues recover () [] [] :=
  issues_before (issues_perform _ _ _ (fun _ => rfl) fun _ => rfl) <|
    issues_before issues_tick fun s t h => by
      cases h
      exact ⟨[.clr], rfl, rfl, rfl⟩

theorem issues_waitOrRecover (c : Cond) (ok : Bool) : Issues (waitOrRecover c) ok [] [] :=
  issues_andThen (issues_wait c) fun _ =>
    issues_ite (issues_ret _ _) (issues_before issues_recover (issues_ret _ _))

theorem issues_startBus (d : Dir) : Issues (startBus d) true [] [] :=
  issues_ifOk (issues_waitOrRecover _ _) <| issues_before (issues_perform _ [] [] (fun _ => rfl) fun _ => rfl) <|
    issues_ifOk (issues_waitOrRecover _ _) <| issues_before (issues_perform _ [] [] (fun _ => rfl) fun _ => rfl) <|
    issues_waitOrRecover _ _

theorem issues_sendByte (v : Byte) : Issues (sendByte v) true [v] [] :=
  issues_ifOk (issues_waitOrRecover _ _) <| issues_before (issues_perform _ [v] [] (fun _ => rfl) fun _ => rfl) <|
    issues_waitOrRecover _ _

theorem issues_sendBytes (p : List Byte) : Issues (sendBytes p) true p [] := by
  induction p with
  | nil => exact issues_ret _ _
  | cons v p ih => exact issues_ifOk (issues_sendByte v) ih

/-- A successful bus write sends its payload (40_bus_engine.md R106). -/
theorem issues_writeBytes (p : List Byte) : Issues (writeBytes p) true p [] := by
  cases p with
  | nil => exact issues_ret _ _
  | cons v p =>
    have h : Issues (writeBytes (v :: p)) true _ _ := issues_ifOk (issues_startBus .w) <|
      issues_ifOk (issues_sendBytes (v :: p)) <| issues_before (issues_perform _ [] [] (fun _ => rfl) fun _ => rfl) (issues_ret true true)
    simpa only [List.nil_append, List.append_nil] using h

/-- A write of host registers by the command issues no event. -/
theorem issues_setAgCursor (v : BitVec 9) : Issues (setAgCursor v) () [] [] := fun s t h => by
  cases h
  exact ⟨[], (List.append_nil _).symm, rfl, rfl⟩

end

/-! ### AG_STEP -/

/-- A realtime write, a hold or pause, and the new cursor. -/
theorem issues_agPlay (c : Params) (v : Byte) (n : Nat) (next : BitVec 9) :
    Issues (before (must (setRtp c v)) <| before (delayMsUnlessZero n) <| setAgCursor next) () [c.regRtp, v]
      (pauseEvents n) := by
  have h : Issues (before (must (setRtp c v)) <| before (delayMsUnlessZero n) <| setAgCursor next) () _ _ :=
    issues_before (issues_must (issues_writeBytes [c.regRtp, v])) <|
    issues_before (issues_delayMsUnlessZero n) (issues_setAgCursor next)
  simpa only [List.nil_append, List.append_nil] using h

theorem issues_agFrameBody (c : Params) (cursor : BitVec 9) (w : Word) : Issues (agFrameBody c cursor w) ()
    [c.regRtp, BitVec.ofNat 8 (min (w.toNat % 256) 0x7F)] (pauseEvents (w.toNat / 256 % 65536)) := by
  have amp : (frameAmp w).toNat = w.toNat % 256 := by simp [frameAmp]
  have hold : (frameHold w).toNat = w.toNat / 256 % 65536 := by simp [frameHold, Nat.shiftRight_eq_div_pow]
  rw [← amp, ← hold]
  exact issues_agPlay c _ _ _

/-- The events of a READY AG_STEP (44_timed_routines.md R189). -/
theorem execAgStep_issued {s t : State} (hs : s.NoReset) (h : exec .agStep s = .next t)
    (hr : t.regs.status.ready = true) :
    if s.regs.agCursor < s.regs.agCount then
      Issued s t [s.cfg.regRtp, BitVec.ofNat 8 (min ((s.frameWord s.regs.agCursor.toNat).toNat % 256) 0x7F)]
        (pauseEvents ((s.frameWord s.regs.agCursor.toNat).toNat / 256 % 65536))
    else Issued s t [s.cfg.regRtp, 0] (pauseEvents s.regs.agPause.toNat) := by
  have hb := within_agStepBody (F := busOnly) (bytes := 0) (keep := noView) (fun _ _ => rfl) rfl (fun _ _ => rfl) s.cfg
    s.regs.agCursor s.regs.agCount (s.frameWord s.regs.agCursor.toNat) s.regs.agPause
  obtain ⟨u, v, hv, ⟨e, rfl⟩ | ⟨c, -, rfl⟩⟩ := command_completes hb hs h
  · unfold agStepBody at e
    split at e
    next below =>
      rw [if_pos below]
      exact hv.issued (issues_agFrameBody _ _ _ s u e)
    next above =>
      rw [if_neg above]
      exact hv.issued (issues_agPlay _ _ _ _ s u e)
  · exact nomatch hr

/-- Settles O45: the cursor moves with the last action of AG_STEP, after the one realtime write and its delay; no other
command's rule names the cursor. -/
theorem cursorMachine : Obligations.CursorMachine := by
  intro i s t hs h
  refine ⟨?_, fun hi => exec_keeps (keep := (·.agCursor)) (fun _ _ => rfl) (fun r u => writtenBy_agCursor r u hi) hs h⟩
  rintro rfl
  refine ⟨(execAgStep_cursor h).resolve_right fun k => hs k.1, fun hr => ?_⟩
  have issued := execAgStep_issued hs h hr
  split at issued
  next below =>
    obtain ⟨es, ht, hb, hd⟩ := issued
    exact ⟨es, ht, by rw [if_pos below]; exact ⟨hb, hd⟩⟩
  next above =>
    obtain ⟨es, ht, hb, hd⟩ := issued
    exact ⟨es, ht, by rw [if_neg above]; exact ⟨hb, hd⟩⟩

end Sys2Proof.Machine
end

section
/-! The host's accesses on the idle machine: what each offset reads and stores, and how a step performs a move. -/

namespace Sys2Proof.Machine

/-! ### A step of the machine -/

/-- A step on a schedule of legal accesses makes the host's next move. -/
theorem step_of_host {s : State} {m : HostMove} {q : List HostMove} (h : s.host = m :: q) (hm : m.legal = true)
    (hq : ∀ m ∈ q, m.legal = true) : step s = stepMove m { s with host := q } := by
  have all : (m :: q).all HostMove.legal = true := List.all_eq_true.mpr (List.forall_mem_cons.mpr ⟨hm, hq⟩)
  simp only [step, h, all, if_true]

theorem legal_write {off : BitVec 11} (v : Word) (h : off.toNat % 4 = 0) : (HostMove.write off 4 v).legal = true := by
  simp [HostMove.legal, h]

theorem legal_read {off : BitVec 11} (h : off.toNat % 4 = 0) : (HostMove.read off 4).legal = true := by
  simp [HostMove.legal, h]

/-- A write that is no acceptance is performed: stored on the idle machine, taken by 10_state.md R23 while BUSY = 1. -/
theorem stepMove_write {s : State} {off : BitVec 11} (n : Nat) (v : Word)
    (h : off.toNat ≠ offCmd ∨ s.regs.status.busy = true) : stepMove (.write off n v) s =
      .next (if s.regs.status.busy then s.busyStore off.toNat v else s.hostStore off.toNat v) := by
  have none : s.acceptedWord (.write off n v) = none := by
    rcases h with h | h <;> simp [State.acceptedWord, h]
  simp only [stepMove, none, State.hostMove]

/-- Settles O5: the step performs the acceptance and runs the word. -/
theorem stepRunsAcceptedWord : Obligations.StepRunsAcceptedWord := by
  intro s w q hs hq hb accepted
  have run : step s = runWord w accepted := by
    rw [step_of_host hs rfl hq]
    have hw : State.acceptedWord { s with host := q } (.write 0x004 4 w) = some w := by
      simp [State.acceptedWord, hb, offCmd]
    simp only [stepMove, hw, hostMove_of_accepted hw]
    rfl
  refine ⟨fun i hi => ?_, fun why hw => ?_, rfl⟩
  · rw [run, runWord, hi]
  · rw [run, runWord, hw]

/-- A busy read of a register that the command has not written is a plain one (20_memory.md R68 item 3). -/
theorem busyLoad_of_unwritten {s : State} {off : Nat} (h : s.writtenAt off = []) : s.busyLoad off = s.hostLoad off := by
  simp only [State.busyLoad, h]

/-- Settles O7: a read of a register that no running command has written takes the current word, in a step of the
machine and in a turn of the host. -/
theorem hostReadReturnsValue : Obligations.HostReadReturnsValue := by
  refine ⟨fun s off q hs ho hq hw => ?_, fun s off n q hs hw => ?_, fun s q hs => ?_, fun s hs => tick_quiet hs⟩
  · rw [step_of_host hs (legal_read ho) hq]
    simp only [stepMove, State.acceptedWord, State.hostMove]
    split
    next busy =>
      rw [busyLoad_of_unwritten (s := { s with host := q }) (hw busy)]
      rfl
    next => rfl
  · rw [tick_read hs, busyLoad_of_unwritten hw]
    rfl
  · unfold tick
    rw [hs]
    rfl

/-! ### `H_STATUS` -/

/-- Settles O10: the word is the sum of its fields at their places, for every class and value of the four bits. -/
theorem statusWordLayout : Obligations.StatusWordLayout := by
  rintro ⟨busy, done, ready, overrun, cls⟩
  cases cls with
  | none => revert busy done ready overrun; decide
  | some c => cases c <;> revert busy done ready overrun <;> decide

/-! ### Stores and words, by window -/

/-- A host word of the DBUF window (20_memory.md R60, R62). -/
theorem hostWord_dbuf (s : State) {off : Nat} (h : 0x100 ≤ off ∧ off < 0x200) :
    s.hostWord off = s.dbufWord (off - 0x100) := by
  unfold State.hostWord
  split
  case h_20 => rw [if_pos h]
  all_goals omega

/-- A host word of the FRAMES window (20_memory.md R60). -/
theorem hostWord_frames (s : State) {off : Nat} (h : 0x200 ≤ off ∧ off < 0x800) :
    s.hostWord off = s.frameWord ((off - 0x200) / 4) := by
  unfold State.hostWord
  split
  case h_20 => rw [if_neg (by omega), if_pos h]
  all_goals omega

/-- A store to the DBUF window (20_memory.md R60, R62). -/
theorem hostStore_dbuf (s : State) {off : Nat} (v : Word) (h : 0x100 ≤ off ∧ off < 0x200) :
    s.hostStore off v = s.setDbufWord (off - 0x100) v := by
  unfold State.hostStore
  split
  case h_14 => rw [if_pos h]
  all_goals omega

/-- A store to the FRAMES window (20_memory.md R60). -/
theorem hostStore_frames (s : State) {off : Nat} (v : Word) (h : 0x200 ≤ off ∧ off < 0x800) :
    s.hostStore off v = s.setFrameWord ((off - 0x200) / 4) v := by
  unfold State.hostStore
  split
  case h_14 => rw [if_neg (by omega), if_pos h]
  all_goals omega

/-- Above `DBUF_LEN` nothing is stored and 0 is read (20_memory.md R62). -/
theorem setDbufByte_of_le {s : State} {i : Nat} (v : Byte) (h : s.cfg.dbufLen.toNat ≤ i) : s.setDbufByte i v = s :=
  if_neg (Nat.not_lt.mpr h)

theorem dbufByte_of_le {s : State} {i : Nat} (h : s.cfg.dbufLen.toNat ≤ i) : s.dbufByte i = 0 :=
  if_neg (Nat.not_lt.mpr h)

theorem setDbufWord_of_le {s : State} {i : Nat} (v : Word) (h : s.cfg.dbufLen.toNat ≤ i) : s.setDbufWord i v = s := by
  have past (j : Nat) : s.cfg.dbufLen.toNat ≤ i + j := h.trans (Nat.le_add_right i j)
  rw [State.setDbufWord, setDbufByte_of_le _ h, setDbufByte_of_le _ (past 1), setDbufByte_of_le _ (past 2),
    setDbufByte_of_le _ (past 3)]

theorem dbufWord_of_le {s : State} {i : Nat} (h : s.cfg.dbufLen.toNat ≤ i) : s.dbufWord i = 0 := by
  have past (j : Nat) : s.cfg.dbufLen.toNat ≤ i + j := h.trans (Nat.le_add_right i j)
  rw [State.dbufWord, dbufByte_of_le h, dbufByte_of_le (past 1), dbufByte_of_le (past 2), dbufByte_of_le (past 3)]
  rfl

/-- At `MAX_FRAMES` and above nothing is stored and 0 is read (10_state.md R35). -/
theorem setFrameWord_of_le {s : State} {i : Nat} (v : Word) (h : s.cfg.maxFrames.toNat ≤ i) : s.setFrameWord i v = s :=
  if_neg (Nat.not_lt.mpr h)

theorem frameWord_of_le {s : State} {i : Nat} (h : s.cfg.maxFrames.toNat ≤ i) : s.frameWord i = 0 :=
  if_neg (Nat.not_lt.mpr h)

/-! ### Offsets that ignore writes -/

/-- An offset below the buffers that names no register stores nothing and reads 0. -/
theorem unnamed_offset (s : State) {off : Nat} (v : Word) (hl : off < 0x100)
    (h : off ∉ [0x000, 0x004, 0x008, 0x00C, 0x010, 0x014, 0x018, 0x01C, 0x020, 0x024, 0x028, 0x02C, 0x030,
      0x034, 0x040, 0x044, 0x048, 0x050, 0x054]) : s.hostStore off v = s ∧ s.hostWord off = 0 := by
  constructor
  · unfold State.hostStore
    split
    case h_14 => rw [if_neg (by omega), if_neg (by omega)]
    all_goals exact absurd (by decide) h
  · unfold State.hostWord
    split
    case h_20 => rw [if_neg (by omega), if_neg (by omega)]
    all_goals exact absurd (by decide) h

/-- Settles O13: a read-only register has no case in the store, and an empty offset is unnamed or past the end of its
buffer. -/
theorem ignoredWrites : Obligations.IgnoredWrites := by
  refine fun s off v => ⟨fun h => ?_, ?_⟩
  · simp only [List.mem_cons, List.not_mem_nil, or_false] at h
    rcases h with rfl | rfl | rfl | rfl | rfl | rfl <;> rfl
  · rintro (⟨hl, h⟩ | ⟨hl, hu⟩ | ⟨hl, hu⟩)
    · exact unnamed_offset s v hl h
    · have window : 0x100 ≤ off ∧ off < 0x200 := by omega
      have past : s.cfg.dbufLen.toNat ≤ off - 0x100 := by omega
      exact ⟨(hostStore_dbuf s v window).trans (setDbufWord_of_le v past),
        (hostWord_dbuf s window).trans (dbufWord_of_le past)⟩
    · have window : 0x200 ≤ off ∧ off < 0x800 := by omega
      have past : s.cfg.maxFrames.toNat ≤ (off - 0x200) / 4 := by omega
      exact ⟨(hostStore_frames s v window).trans (setFrameWord_of_le v past),
        (hostWord_frames s window).trans (frameWord_of_le past)⟩

/-! ### Registers that read back -/

/-- The bits that a register of one half-word keeps. -/
theorem lowHalf_setWidth (v : Word) : (lowHalf v).setWidth 32 = v &&& 0x0000FFFF := by
  apply BitVec.eq_of_toNat_eq
  have mask : v.toNat &&& (0x0000FFFF : Word).toNat = v.toNat % 65536 := Nat.and_two_pow_sub_one_eq_mod v.toNat 16
  simp only [lowHalf, BitVec.toNat_setWidth, BitVec.extractLsb'_toNat, BitVec.toNat_and, Nat.shiftRight_zero,
    mask]
  omega

/-- The bits that `H_ACAL_V` keeps. -/
theorem vWord_bytes (v : Word) : packBytes 0 0 (byteOf v 1) (byteOf v 0) = v &&& 0x0000FFFF := by
  apply BitVec.eq_of_getLsbD_eq
  intro i hi
  simp only [packBytes, byteOf, BitVec.getLsbD_append, BitVec.getLsbD_extractLsb', BitVec.getLsbD_and]
  interval_cases i <;> simp

/-- The bits that `H_ACAL_C5T` keeps. -/
theorem c5tWord_fields (v : Word) : v.extractLsb' 16 16 ++ 0#8 ++ byteOf v 0 = v &&& 0xFFFF00FF := by
  apply BitVec.eq_of_getLsbD_eq
  intro i hi
  simp only [byteOf, BitVec.getLsbD_append, BitVec.getLsbD_extractLsb', BitVec.getLsbD_and]
  interval_cases i <;> simp

theorem and_allBits (v : Word) : v &&& 0xFFFFFFFF = v := BitVec.and_allOnes

/-- A plain register reads back the named bits of what was stored (10_state.md R25, R29, R30, R32). -/
theorem hostWord_hostStore_plain (s : State) {off : Nat} {v mask : Word} (h : plainMask off = some mask) :
    (s.hostStore off v).hostWord off = v &&& mask := by
  unfold plainMask at h
  split at h
  case h_1 | h_2 | h_3 => cases h; exact (and_allBits v).symm
  case h_4 => cases h; exact (pack_bytes v).trans (and_allBits v).symm
  case h_5 | h_6 | h_7 | h_8 => cases h; exact lowHalf_setWidth v
  case h_9 => cases h; exact vWord_bytes v
  case h_10 => cases h; exact c5tWord_fields v
  case h_11 => exact nomatch h

/-- A store to a plain register leaves every other word: the word of each offset is made of fields of its own. -/
theorem hostWord_hostStore_plain_ne (s : State) {off off' : Nat} {v mask : Word} (h : plainMask off = some mask)
    (hne : off' ≠ off) : (s.hostStore off v).hostWord off' = s.hostWord off' := by
  unfold plainMask at h
  split at h
  case h_11 => exact nomatch h
  all_goals
    simp only [State.hostStore, State.hostWord]
    split <;> first | exact absurd rfl hne | rfl

/-- Settles O11: off `H_CMD` the step stores, and a plain register reads back and is alone in changing. -/
theorem plainRegistersReadBack : Obligations.PlainRegistersReadBack := by
  refine ⟨fun s off v q hs ho hq hb hc => ?_, fun s off v mask h =>
    ⟨hostWord_hostStore_plain s h, fun _ hne => hostWord_hostStore_plain_ne s h hne⟩⟩
  have notCmd : off.toNat ≠ offCmd := fun e => hc (BitVec.eq_of_toNat_eq e)
  rw [step_of_host hs (legal_write v ho) hq, stepMove_write 4 v (.inl notCmd)]
  simp only [hb, Bool.false_eq_true, if_false]

/-- A store to `H_AG_COUNT` leaves every word but the count's and the cursor's. -/
theorem hostWord_setAgCount_ne (s : State) (v : Word) {off : Nat} (hc : off ≠ 0x02C) (hp : off ≠ 0x034) :
    (s.hostStore 0x02C v).hostWord off = s.hostWord off := by
  simp only [State.hostStore, State.hostWord]
  split
  case h_12 => exact absurd rfl hc
  case h_14 => exact absurd rfl hp
  all_goals rfl

/-- Settles O12: nine bits of the value, clamped, fit the count. -/
theorem frameCountWrite : Obligations.FrameCountWrite := by
  refine fun s v => ⟨?_, rfl, fun off hc hp => hostWord_setAgCount_ne s v hc hp⟩
  have count : (s.hostStore 0x02C v).hostWord 0x02C =
      (BitVec.ofNat 9 (min (v.extractLsb' 0 9).toNat s.cfg.maxFrames.toNat)).setWidth 32 := rfl
  rw [count]
  simp only [BitVec.toNat_setWidth, BitVec.toNat_ofNat, BitVec.extractLsb'_toNat, Nat.shiftRight_zero]
  omega

theorem reset_cdSessionWord (c : Params) : (HostRegs.reset c).cdSessionWord = 0 := by
  change (0#17 ++ 0#7 ++ 0#6 ++ CdState.code .unconfigured : Word) = 0
  decide

theorem zero_vWord : AcalRequest.zero.vWord = 0 := by decide
theorem zero_c14Word : AcalRequest.zero.c14Word = 0 := by decide
theorem zero_c5tWord : AcalRequest.zero.c5tWord = 0 := by decide
theorem zero_word0 : AcalResult.zero.word0 = 0 := by decide
theorem zero_word1 : AcalResult.zero.word1 = 0 := by decide

/-- Settles O16: the word of every register of the reset state is computed from constants or a parameter. -/
theorem resetValues : Obligations.ResetValues := by
  refine fun c => ⟨fun off h => ?_, rfl, rfl, rfl, rfl, rfl, rfl, rfl, rfl, rfl, rfl⟩
  simp only [List.mem_cons, List.not_mem_nil, or_false] at h
  rcases h with rfl | rfl | rfl | rfl | rfl | rfl | rfl | rfl | rfl | rfl | rfl | rfl | rfl | rfl | rfl | rfl
  exacts [rfl, rfl, rfl, rfl, rfl, rfl, reset_cdSessionWord c, rfl, rfl, rfl, rfl, zero_vWord, zero_c14Word,
    zero_c5tWord, zero_word0, zero_word1]

/-! ### Frames -/

/-- The bytes after a frame word is stored (10_state.md R35). -/
theorem memByte_setFrameWord (s : State) {i : Nat} (v : Word) (hi : i < s.cfg.maxFrames.toNat) (hw : i < 384)
    (a : Nat) : (s.setFrameWord i v).memByte a =
      if framesBase + 4 * i + 3 = a then byteOf v 3 else if framesBase + 4 * i + 2 = a then byteOf v 2
      else if framesBase + 4 * i + 1 = a then byteOf v 1 else if framesBase + 4 * i = a then byteOf v 0
      else s.memByte a := by
  have inFrames (j : Nat) (hj : j < 4) : 0x100 ≤ framesBase + 4 * i + j ∧ framesBase + 4 * i + j < 0x800 := by
    simp only [framesBase]
    omega
  rw [State.setFrameWord, if_pos hi, memByte_setMemByte _ _ _ _ (inFrames 3 (by omega)),
    memByte_setMemByte _ _ _ _ (inFrames 2 (by omega)), memByte_setMemByte _ _ _ _ (inFrames 1 (by omega)),
    memByte_setMemByte _ _ _ _ (by simpa only [Nat.add_zero] using inFrames 0 (by omega))]

/-- Its own four bytes, the word reads back. -/
theorem frameWord_setFrameWord_same (s : State) {i : Nat} (v : Word) (hi : i < s.cfg.maxFrames.toNat) (hw : i < 384) :
    (s.setFrameWord i v).frameWord i = v := by
  rw [State.frameWord, setFrameWord_cfg, if_pos hi]
  simp [memByte_setFrameWord s v hi hw, pack_bytes]

/-- Every byte outside the frame is as it was. -/
theorem memByte_setFrameWord_ne (s : State) {i a : Nat} (v : Word) (hi : i < s.cfg.maxFrames.toNat) (hw : i < 384)
    (ha : a < framesBase + 4 * i ∨ framesBase + 4 * i + 4 ≤ a) : (s.setFrameWord i v).memByte a = s.memByte a := by
  rw [memByte_setFrameWord s v hi hw, if_neg (by omega), if_neg (by omega), if_neg (by omega), if_neg (by omega)]

theorem frameWord_setFrameWord_ne (s : State) {i j : Nat} (v : Word) (hi : i < s.cfg.maxFrames.toNat) (hw : i < 384)
    (hne : j ≠ i) : (s.setFrameWord i v).frameWord j = s.frameWord j := by
  have other (k : Nat) (hk : k < 4) := memByte_setFrameWord_ne s (a := framesBase + 4 * j + k) v hi hw (by omega)
  have other0 := other 0 (by omega)
  rw [Nat.add_zero] at other0
  rw [State.frameWord, State.frameWord, setFrameWord_cfg, other 3 (by omega), other 2 (by omega), other 1 (by omega),
    other0]

/-- Settles O15: offset `0x200 + 4 i` is frame `i`, whose four bytes are its own and lie above DBUF. -/
theorem framesReadBack : Obligations.FramesReadBack := by
  intro s i j v hi hw hj
  have frame (k : Nat) : (0x200 + 4 * k - 0x200) / 4 = k := by omega
  rw [hostStore_frames s v (by omega), frame i]
  refine ⟨?_, fun a ha => memByte_setFrameWord_ne s v hi hw (.inl (by simp only [framesBase]; omega))⟩
  rw [hostWord_frames _ (by omega), hostWord_frames _ (by omega), frame j]
  split
  next same =>
    subst same
    exact frameWord_setFrameWord_same s v hi hw
  next hne => exact frameWord_setFrameWord_ne s v hi hw hne

end Sys2Proof.Machine
end

section
/-! The pseudocode of the commands, as what it is built from: the controller's primitives (00_scope.md R13), its writes
of host registers and of DBUF, free values, and the combinators. Every command is such a program (`exec_program`), so a
property of pseudocode is proved of every command by one induction. -/

namespace Sys2Proof.Machine

/-- `s` with the host schedule `h` and `H_STATUS` holding `st`: what a command neither reads nor writes of its own. -/
def State.hosted (s : State) (h : List HostMove) (st : Status) : State :=
  { s with host := h, regs := { s.regs with status := st } }

/-- A piece of controller pseudocode. Its own writes of host registers are to other registers than `H_STATUS`, and what
it looks at are the parameters and the latch of direct drive. -/
inductive Program : {α : Type} → Ctl α → Prop
  | ret {α : Type} (a : α) : Program (ret a : Ctl α)
  | fail {α : Type} (cls : FailClass) : Program (fail cls : Ctl α)
  | andThen {α β : Type} {m : Ctl α} {f : α → Ctl β} (hm : Program m) (hf : ∀ a, Program (f a)) :
      Program (andThen m f)
  | action (e : Params → Event) : Program (perform (fun s => e s.cfg) id)
  | setAck (on : Bool) : Program (setAck on)
  | clearErr : Program clearErr
  | sample : Program sample
  | readData : Program readData
  | draw {α : Type} (f : Nat → α) : Program (draw f)
  | writeRegs {off : Nat} {g : HostRegs → HostRegs} (ho : off ≠ offStatus)
      (hg : ∀ (r : HostRegs) (st : Status), g { r with status := st } = { g r with status := st }) :
      Program (writeAt off fun s => { s with regs := g s.regs })
  | storeDbuf (i : Nat) (v : Byte) : Program (storeDbuf i v)
  | leavingOpen {o body : Ctl Unit} (ho : Program o) (hb : Program body) : Program (leavingOpen o body)
  | ofParams {α : Type} {f : Params → Ctl α} (hf : ∀ c, Program (f c)) : Program fun s => f s.cfg s
  | ofLatch {α : Type} {f : Bool → Ctl α} (hf : ∀ b, Program (f b)) : Program fun s => f s.regs.rtReady s

/-! ### Combinators -/

section
variable {α β : Type}

theorem program_before {m : Ctl Unit} {n : Ctl α} (hm : Program m) (hn : Program n) : Program (before m n) :=
  hm.andThen fun _ => hn

theorem program_ite {c : Prop} [Decidable c] {m n : Ctl α} (hm : Program m) (hn : Program n) :
    Program (if c then m else n) := by
  split
  · exact hm
  · exact hn

theorem program_ifOk {p q : Ctl Bool} (hp : Program p) (hq : Program q) : Program (ifOk p q) :=
  hp.andThen fun _ => program_ite hq (.ret _)

theorem program_require (ok : Bool) (cls : FailClass) : Program (require ok cls) :=
  program_ite (.ret _) (.fail _)

theorem program_must {p : Ctl Bool} (hp : Program p) : Program (must p) :=
  hp.andThen fun _ => program_ite (.ret _) (.fail _)

theorem program_mustGet {p : Ctl (Option α)} (hp : Program p) : Program (mustGet p) :=
  hp.andThen fun v => by
    cases v with
    | none => exact .fail _
    | some v => exact .ret _

end

/-! ### Primitives and register writes -/

theorem program_genStart : Program genStart := .action fun _ => .start
theorem program_genStop : Program genStop := .action fun _ => .stop
theorem program_sendAddr (d : Dir) : Program (sendAddr d) := .action fun c => .addr c.targetAddr d
theorem program_writeData (b : Byte) : Program (writeData b) := .action fun _ => .tx b
theorem program_delayMs (n : Nat) : Program (delayMs n) := .action fun _ => .dms n
theorem program_delayUs (n : Nat) : Program (delayUs n) := .action fun _ => .dus n

theorem program_delayMsUnlessZero (n : Nat) : Program (delayMsUnlessZero n) :=
  program_ite (.ret _) (program_delayMs n)

theorem program_setRdata (v : Half) : Program (setRdata v) :=
  .writeRegs (g := fun r => { r with rdata := v }) (by decide) fun _ _ => rfl

theorem program_setCdState (v : CdState) : Program (setCdState v) :=
  .writeRegs (g := fun r => { r with cdState := v }) (by decide) fun _ _ => rfl

theorem program_setCdStrength (v : Byte) : Program (setCdStrength v) :=
  .writeRegs (g := fun r => { r with cdStrength := v.setWidth 7 }) (by decide) fun _ _ => rfl

theorem program_setRtReady : Program setRtReady :=
  .writeRegs (g := fun r => { r with rtReady := true }) (by decide) fun _ _ => rfl

theorem program_setAgCursor (v : BitVec 9) : Program (setAgCursor v) :=
  .writeRegs (g := fun r => { r with agCursor := v }) (by decide) fun _ _ => rfl

theorem program_setResult {off : Nat} (ho : off ≠ offStatus) (f : AcalResult → AcalResult) :
    Program (setResult off f) :=
  .writeRegs (g := fun r => { r with res := f r.res }) ho fun _ _ => rfl

theorem program_setRes0 (f : AcalResult → AcalResult) : Program (setResult offAcalRes0 f) :=
  program_setResult (by decide) f

theorem program_setRes1 (f : AcalResult → AcalResult) : Program (setResult offAcalRes1 f) :=
  program_setResult (by decide) f

theorem program_freeRdata : Program freeRdata := (Program.draw _).andThen program_setRdata

theorem program_freeDbuf (n : Nat) : Program (freeDbuf n) := by
  induction n with
  | zero => exact .ret _
  | succ n ih => exact program_before ih <| (Program.draw _).andThen fun _ => .storeDbuf n _

/-! ### The bus engine -/

theorem program_waitLoop (c : Cond) (k : Nat) : Program (waitLoop c k) := by
  induction k with
  | zero => exact Program.sample.andThen fun _ => .ret _
  | succ k ih => exact Program.sample.andThen fun _ => program_ite (.ret _) (program_ite (.ret _) ih)

theorem program_wait (c : Cond) : Program (wait c) :=
  .ofParams (f := fun p => waitLoop c (condBudget p c - 1)) fun _ => program_waitLoop c _

theorem program_waitOrRecover (c : Cond) : Program (waitOrRecover c) :=
  (program_wait c).andThen fun _ => program_ite (.ret _) <|
    program_before (program_before program_genStop .clearErr) (.ret _)

theorem program_startBus (d : Dir) : Program (startBus d) :=
  program_ifOk (program_waitOrRecover _) <| program_before program_genStart <|
    program_ifOk (program_waitOrRecover _) <| program_before (program_sendAddr d) (program_waitOrRecover _)

theorem program_restartBus : Program restartBus :=
  program_before program_genStart <| program_ifOk (program_waitOrRecover _) <|
    program_before (program_sendAddr .r) (program_waitOrRecover _)

theorem program_sendByte (b : Byte) : Program (sendByte b) :=
  program_ifOk (program_waitOrRecover _) <| program_before (program_writeData b) (program_waitOrRecover _)

theorem program_sendBytes (p : List Byte) : Program (sendBytes p) := by
  induction p with
  | nil => exact .ret _
  | cons b p ih => exact program_ifOk (program_sendByte b) ih

theorem program_writeBytes (p : List Byte) : Program (writeBytes p) := by
  cases p with
  | nil => exact .ret _
  | cons b p =>
    exact program_ifOk (program_startBus .w) <| program_ifOk (program_sendBytes _) <|
      program_before program_genStop (.ret _)

theorem program_receiveBytes {sink : Nat → Byte → Ctl Unit} (hs : ∀ i b, Program (sink i b)) (n k : Nat) :
    Program (receiveBytes sink n k) := by
  induction k with
  | zero => exact .ret _
  | succ k ih =>
    have ending : Program (endOfRead k) := program_ite (program_before (.setAck _) program_genStop) (.ret _)
    exact program_before ending <| (program_waitOrRecover _).andThen fun _ => program_ite
      (Program.readData.andThen fun b => program_before (hs _ b) <| ih.andThen fun _ => .ret _) (.ret _)

theorem program_cleanup (st : Option (List Byte)) : Program (cleanup st) :=
  program_before (.setAck true) <| (program_wait .idle).andThen fun idle =>
    .ofParams (f := fun c => ret (if !idle && c.cleanupIdleAffectsOutcome then none else st)) fun _ => .ret _

theorem program_openRead (reg : Byte) : Program (openRead reg) :=
  program_ifOk (program_startBus .w) <| program_ifOk (program_sendByte reg) program_restartBus

theorem program_readRegisters {sink : Nat → Byte → Ctl Unit} (hs : ∀ i b, Program (sink i b)) (reg : Byte) (n : Nat) :
    Program (readRegisters sink reg n) :=
  ((program_openRead reg).andThen fun _ => program_ite (program_receiveBytes hs n n) (.ret _)).andThen program_cleanup

/-! ### The register layer and the procedures of the routines -/

theorem program_writeRegister (reg v : Byte) : Program (writeRegister reg v) := program_writeBytes _

theorem program_mustWrite (reg v : Byte) : Program (must (writeRegister reg v)) :=
  program_must (program_writeRegister reg v)

theorem program_readRegister (reg : Byte) : Program (readRegister reg) :=
  (program_readRegisters (fun _ _ => .ret _) reg 1).andThen fun _ => .ret _

theorem program_busWriteBody (dbufLen n : Nat) (p : List Byte) : Program (busWriteBody dbufLen n p) :=
  program_before (program_require _ _) (program_must (program_writeBytes _))

theorem program_busReadBody (dbufLen : Nat) (reg : Byte) (n : Nat) (dv : Bool) :
    Program (busReadBody dbufLen reg n dv) :=
  program_before (program_require _ _) <| program_ite (.ret _) <| program_before (program_require _ _) <|
    (program_mustGet (program_readRegisters .storeDbuf reg _)).andThen fun _ => .ret _

theorem program_readToRdata (reg : Byte) : Program (readToRdata reg) :=
  (program_mustGet (program_readRegister reg)).andThen fun _ => program_setRdata _

theorem program_clearSlots (c : Params) (ks : List Byte) : Program (clearSlots c ks) := by
  induction ks with
  | nil => exact .ret _
  | cons k ks ih => exact program_ifOk (program_writeRegister _ _) ih

theorem program_sustain (c : Params) (p n : Byte) : Program (sustain c p n) :=
  program_ifOk (program_writeRegister _ _) (program_writeRegister _ _)

theorem program_defaultInitBody (c : Params) : Program (defaultInitBody c) :=
  program_before (program_mustWrite _ _) <| program_before (program_delayMs _) <|
    program_before (program_mustWrite _ _) <| program_before (program_mustWrite _ _) <|
    program_before (program_mustWrite _ _) <| program_before (program_must (program_clearSlots c _)) <|
    program_before (program_mustWrite _ _) <| program_before (program_must (program_sustain c _ _)) <|
    program_before (program_mustWrite _ _) <| program_before (program_mustWrite _ _) (program_mustWrite _ _)

theorem program_agStepBody (c : Params) (cursor count : BitVec 9) (frame : Word) (pause : Half) :
    Program (agStepBody c cursor count frame pause) :=
  have play (v : Byte) (n : Nat) (next : BitVec 9) :
      Program (before (must (setRtp c v)) <| before (delayMsUnlessZero n) <| setAgCursor next) :=
    program_before (program_mustWrite _ _) <| program_before (program_delayMsUnlessZero _) (program_setAgCursor _)
  program_ite (play _ _ _) (play _ _ _)

theorem program_cdConfigureBody (c : Params) (motor : Motor) (dt strength lib : Byte) :
    Program (cdConfigureBody c motor dt strength lib) :=
  program_before (program_setCdState _) <| program_before (program_mustWrite _ _) <|
    program_before (program_mustWrite _ _) <| (program_readRegister _).andThen fun _ =>
    program_before (program_mustWrite _ _) <| program_before (program_setCdStrength _) (program_setCdState _)

theorem program_cdStartBody (c : Params) (state : CdState) (strength : BitVec 7) :
    Program (cdStartBody c state strength) :=
  program_before (program_require _ _) <| program_before (program_mustWrite _ _) <|
    program_before (program_mustWrite _ _) <| program_before (program_mustWrite _ _) (program_setCdState _)

theorem program_cdStopBody (c : Params) (state : CdState) : Program (cdStopBody c state) :=
  program_before (program_mustWrite _ _) <| program_before (program_mustWrite _ _) <|
    program_ite (program_setCdState _) (.ret _)

theorem program_prepareSteps (c : Params) : Program (prepareSteps c) :=
  program_ifOk (program_writeRegister _ _) <| program_before (program_delayMs _) <|
    program_ifOk (program_writeRegister _ _) <| program_ifOk (program_writeRegister _ _) <|
    program_ifOk (program_writeRegister _ _) <| program_before program_setRtReady (.ret _)

theorem program_prepareRealtime (c : Params) : Program (prepareRealtime c) := by
  have latched : prepareRealtime c = fun s => (if s.regs.rtReady then ret true else prepareSteps c) s := by
    funext s
    rw [prepareRealtime_eq]
    split <;> rfl
  rw [latched]
  exact .ofLatch (f := fun b => if b then ret true else prepareSteps c) fun _ =>
    program_ite (.ret _) (program_prepareSteps c)

theorem program_toneLoop (c : Params) (v : Byte) (h n : Nat) : Program (toneLoop c v h n) := by
  induction n with
  | zero => exact .ret _
  | succ n ih =>
    exact program_before (program_mustWrite _ _) <| program_before (program_delayUs _) <|
      program_before (program_mustWrite _ _) <| program_before (program_delayUs _) ih

theorem program_playBody (c : Params) (f : Nat) (a : Byte) (burst pause : Half) :
    Program (playBody c f a burst pause) :=
  program_before (program_require _ _) <| program_before (program_must (program_prepareRealtime c)) <|
    program_before (program_toneLoop c _ _ _) (program_delayMsUnlessZero _)

theorem program_playVoltageBody (c : Params) (f : Nat) (mv mx burst pause : Half) :
    Program (playVoltageBody c f mv mx burst pause) :=
  program_before (program_require _ _) <| program_before (program_require _ _) (program_playBody c f _ burst pause)

/-! ### AUTOCAL -/

theorem program_stopAbort {α : Type} (c : Params) (cls : FailClass) : Program (stopAbort c cls : Ctl α) :=
  (program_writeRegister _ _).andThen fun _ => .fail _

theorem program_mustOrStop {p : Ctl Bool} (hp : Program p) (c : Params) : Program (mustOrStop c p) :=
  hp.andThen fun _ => program_ite (.ret _) (program_stopAbort c _)

theorem program_writesOrStop (c : Params) (ws : List (Byte × Byte)) : Program (writesOrStop c ws) := by
  induction ws with
  | nil => exact .ret _
  | cons w ws ih => exact program_before (program_mustOrStop (program_writeRegister _ _) c) ih

theorem program_acalSetup (c : Params) (q : AcalRequest) : Program (acalSetup c q) := by
  rw [acalSetup_eq]
  exact program_before (program_mustOrStop (program_writeRegister _ _) c) <|
    program_before (program_delayMs _) (program_writesOrStop c _)

theorem program_pollGo (c : Params) : Program (pollGo c) :=
  (program_readRegister _).andThen fun g => by
    cases g with
    | none => exact program_stopAbort c _
    | some g => exact .ret _

theorem program_pollLoop (c : Params) (k : Nat) : Program (pollLoop c k) := by
  induction k with
  | zero => exact (program_pollGo c).andThen fun _ => .ret _
  | succ k ih =>
    exact (program_pollGo c).andThen fun _ => program_ite (.ret _) (program_before (program_delayMs _) ih)

theorem program_ignoredReads (rs : List Byte) : Program (ignoredReads rs) := by
  induction rs with
  | nil => exact .ret _
  | cons r rs ih => exact (program_readRegister r).andThen fun _ => ih

theorem program_freeResults : Program freeResults :=
  (Program.draw _).andThen fun _ => (Program.draw _).andThen fun _ => (Program.draw _).andThen fun _ =>
  (Program.draw _).andThen fun _ => (Program.draw _).andThen fun _ => (Program.draw _).andThen fun _ =>
  (Program.draw _).andThen fun _ => (Program.draw _).andThen fun _ => (Program.draw _).andThen fun _ =>
  program_before (program_setRes0 _) (program_setRes1 _)

theorem program_hardRead {off : Nat} (ho : off ≠ offStatus) (reg : Byte) (put : AcalResult → Byte → AcalResult) :
    Program (hardRead reg off put) :=
  (program_mustGet (program_readRegister reg)).andThen fun _ => program_setResult ho _

theorem program_hardReads (c : Params) : Program (hardReads c) :=
  have res0 : offAcalRes0 ≠ offStatus := by decide
  program_before (program_hardRead res0 _ _) <| program_before (program_hardRead res0 _ _) <|
    program_before (program_hardRead res0 _ _) <| program_before (program_hardRead res0 _ _) <|
    program_hardRead (by decide) _ _

theorem program_bestEffortReads (c : Params) : Program (bestEffortReads c) :=
  (program_readRegister _).andThen fun _ => program_before (program_setRes1 _) <|
    (program_readRegister _).andThen fun _ => program_setRes1 _

theorem program_autocalBody (c : Params) (q : AcalRequest) (rb : Bool) : Program (autocalBody c q rb) := by
  have entry : Program (acalEntry rb) := program_ite (program_before (program_setRes0 _) (program_setRes1 _)) (.ret _)
  have timeout (stopped : Bool) : Program (afterTimeout c rb stopped) :=
    program_ite (program_before (program_ignoredReads _) <| program_before program_freeResults (.fail _)) (.fail _)
  have results : Program (if !rb then ret () else before (hardReads c) (bestEffortReads c)) :=
    program_ite (.ret _) (program_before (program_hardReads c) (program_bestEffortReads c))
  exact program_before entry <| program_before (program_acalSetup c q) <| (program_pollLoop c _).andThen fun _ =>
    (program_writeRegister _ _).andThen fun stopped => program_ite (timeout stopped) (program_ite (.fail _) results)

/-! ### Every command -/

theorem program_getter {body : Ctl Unit} (hb : Program body) : Program (leavingOpen freeRdata body) :=
  .leavingOpen program_freeRdata hb

/-- Every command runs a program, chosen by its operands: by nothing of the host's schedule or of `H_STATUS`. -/
theorem exec_program (i : Instr) (s : State) :
    ∃ body, Program body ∧ ∀ h st, exec i (s.hosted h st) = command body (s.hosted h st) := by
  cases i with
  | busWrite n =>
    exact ⟨_, program_busWriteBody s.cfg.dbufLen.toNat n.toNat (dbufPayload s n.toNat), fun _ _ => rfl⟩
  | busRead reg n dv =>
    exact ⟨_, .leavingOpen (program_freeDbuf n.toNat) (program_busReadBody s.cfg.dbufLen.toNat reg n.toNat dv),
      fun _ _ => rfl⟩
  | regWrite reg value => exact ⟨_, program_mustWrite reg value, fun _ _ => rfl⟩
  | regRead reg dv =>
    exact ⟨_, program_getter (program_before (program_require dv .arg) (program_readToRdata reg)), fun _ _ => rfl⟩
  | setWaveform slot effect =>
    exact ⟨_, program_before (program_require (slotInRange slot) .arg) (program_mustWrite (slotReg s.cfg slot) effect),
      fun _ _ => rfl⟩
  | getWaveform slot dv =>
    exact ⟨_, program_getter <| program_before (program_require dv .arg) <|
      program_before (program_require (slotInRange slot) .arg) (program_readToRdata (slotReg s.cfg slot)),
      fun _ _ => rfl⟩
  | clearSequence => exact ⟨_, program_must (program_clearSlots s.cfg [1, 2, 3, 4, 5, 6, 7]), fun _ _ => rfl⟩
  | setSustain pos neg => exact ⟨_, program_must (program_sustain s.cfg pos neg), fun _ _ => rfl⟩
  | encRated =>
    exact ⟨_, program_getter (program_setRdata ((encRatedCode (arg0Mv s.regs)).setWidth 16)), fun _ _ => rfl⟩
  | decRated code => exact ⟨_, program_getter (program_setRdata (decRatedMv code)), fun _ _ => rfl⟩
  | encClamp =>
    exact ⟨_, program_getter (program_setRdata ((encClampCode (arg0Mv s.regs)).setWidth 16)), fun _ _ => rfl⟩
  | decClamp code => exact ⟨_, program_getter (program_setRdata (decClampMv code)), fun _ _ => rfl⟩
  | defaultInit => exact ⟨_, program_defaultInitBody s.cfg, fun _ _ => rfl⟩
  | autocal rb => exact ⟨_, program_autocalBody s.cfg s.regs.req rb, fun _ _ => rfl⟩
  | cdConfigure motor dt strength lib =>
    exact ⟨_, program_cdConfigureBody s.cfg motor dt strength lib, fun _ _ => rfl⟩
  | cdStart => exact ⟨_, program_cdStartBody s.cfg s.regs.cdState s.regs.cdStrength, fun _ _ => rfl⟩
  | cdStop => exact ⟨_, program_cdStopBody s.cfg s.regs.cdState, fun _ _ => rfl⟩
  | rtPrepare => exact ⟨_, program_must (program_prepareRealtime s.cfg), fun _ _ => rfl⟩
  | playFreqAmp amp =>
    exact ⟨_, program_playBody s.cfg s.regs.arg0.toNat amp s.regs.burstMs s.regs.pauseMs, fun _ _ => rfl⟩
  | playFreqVoltage =>
    exact ⟨_, program_playVoltageBody s.cfg s.regs.arg0.toNat (arg1Mv s.regs) s.regs.maxMv s.regs.burstMs
      s.regs.pauseMs, fun _ _ => rfl⟩
  | agStep =>
    exact ⟨_, program_agStepBody s.cfg s.regs.agCursor s.regs.agCount (s.frameWord s.regs.agCursor.toNat)
      s.regs.agPause, fun _ _ => rfl⟩

/-- The same of the state itself. -/
theorem exec_program_self (i : Instr) (s : State) : ∃ body, Program body ∧ exec i s = command body s := by
  obtain ⟨body, hb, h⟩ := exec_program i s
  exact ⟨body, hb, h s.host s.regs.status⟩

end Sys2Proof.Machine
end

section
/-! Two runs of a command from states that differ only in the host's schedule and in `H_STATUS` (`Twin`): they go on
differing in nothing else, as long as the host's turns keep it so. -/

namespace Sys2Proof.Machine

section
variable (s : State) (h : List HostMove) (st : Status)

theorem hosted_self : s.hosted s.host s.regs.status = s := rfl

/-- Every word but `H_STATUS` is read from the rest of the state. -/
theorem hosted_hostWord {off : Nat} (ho : off ≠ offStatus) : (s.hosted h st).hostWord off = s.hostWord off := by
  unfold State.hostWord
  split
  case h_1 => exact absurd rfl ho
  all_goals rfl

/-- A remembered write of a register other than `H_STATUS`. -/
theorem record_hosted {off : Nat} (ho : off ≠ offStatus) (t : State) :
    State.record off (s.hosted h st) (t.hosted h st) = (State.record off s t).hosted h st := by
  simp only [State.record, hosted_hostWord _ _ _ ho]
  rfl

theorem setMemByte_hosted (a : Nat) (v : Byte) : (s.hosted h st).setMemByte a v = (s.setMemByte a v).hosted h st := by
  unfold State.setMemByte
  split <;> rfl

theorem setDbufByte_hosted (i : Nat) (v : Byte) :
    (s.hosted h st).setDbufByte i v = (s.setDbufByte i v).hosted h st := by
  unfold State.setDbufByte
  rw [setMemByte_hosted]
  exact (apply_ite (fun t : State => t.hosted h st) _ _ _).symm

end

/-- `u` is `s` but for the host's schedule and `H_STATUS`, which `P` relates. -/
def Twin (P : List HostMove × Status → List HostMove × Status → Prop) (s u : State) : Prop :=
  u = s.hosted u.host u.regs.status ∧ P (s.host, s.regs.status) (u.host, u.regs.status)

variable {α β : Type} {P : List HostMove × Status → List HostMove × Status → Prop}

theorem twin_hosted {s : State} {h : List HostMove} {st : Status} (hp : P (s.host, s.regs.status) (h, st)) :
    Twin P s (s.hosted h st) := ⟨rfl, hp⟩

/-- Two runs that come to the same: the same answer or class with twin states, or one reset. -/
def TwinRuns (P : List HostMove × Status → List HostMove × Status → Prop) : Run α → Run α → Prop
  | .ok a s, .ok b u => a = b ∧ Twin P s u
  | .stop (.fail c) s, .stop (.fail d) u => c = d ∧ Twin P s u
  | .stop .reset s, .stop .reset u => s = u
  | _, _ => False

/-- From twin states, `m` comes to the same. -/
def TwinSafe (P : List HostMove × Status → List HostMove × Status → Prop) (m : Ctl α) : Prop :=
  ∀ s u, Twin P s u → TwinRuns P (m s) (m u)

theorem twinSafe_andThen {m : Ctl α} {f : α → Ctl β} (hm : TwinSafe P m) (hf : ∀ a, TwinSafe P (f a)) :
    TwinSafe P (andThen m f) := by
  intro s u hs
  have k := hm s u hs
  unfold andThen
  revert k
  cases m s with
  | ok a s' =>
    cases m u with
    | ok b u' =>
      rintro ⟨rfl, hs'⟩
      exact hf a s' u' hs'
    | stop w u' => exact False.elim
  | stop w s' =>
    cases m u with
    | ok b u' => cases w <;> exact False.elim
    | stop v u' => cases w <;> cases v <;> exact id

theorem twinSafe_fail (cls : FailClass) : TwinSafe P (fail cls : Ctl α) := fun _ _ hs => ⟨rfl, hs⟩

/-- A change of the state that neither reads nor writes the schedule and `H_STATUS`. -/
theorem twinSafe_step {f : State → State} {g : State → α} (hf : ∀ s h st, f (s.hosted h st) = (f s).hosted h st)
    (hg : ∀ s h st, g (s.hosted h st) = g s) : TwinSafe P (fun s => .ok (g s) (f s) : Ctl α) := by
  rintro s u ⟨hu, hp⟩
  have same := hf s s.host s.regs.status
  rw [hosted_self] at same
  rw [hu]
  refine ⟨(hg _ _ _).symm, ?_⟩
  rw [hf, same]
  exact ⟨rfl, hp⟩

theorem twinSafe_writeAt {off : Nat} (ho : off ≠ offStatus) {f : State → State}
    (hf : ∀ s h st, f (s.hosted h st) = (f s).hosted h st) : TwinSafe P (writeAt off f) :=
  twinSafe_step (g := fun _ => ()) (fun s h st => by rw [hf, record_hosted _ _ _ ho]) fun _ _ _ => rfl

theorem takeSample_hosted (s : State) (h : List HostMove) (st : Status) :
    (s.hosted h st).takeSample = (s.takeSample.1, s.takeSample.2.hosted h st) := by
  unfold State.takeSample
  rw [show (s.hosted h st).samples = s.samples from rfl]
  cases s.samples <;> rfl

theorem takeByte_hosted (s : State) (h : List HostMove) (st : Status) :
    (s.hosted h st).takeByte = (s.takeByte.1, s.takeByte.2.hosted h st) := by
  unfold State.takeByte
  rw [show (s.hosted h st).rxBytes = s.rxBytes from rfl]
  cases s.rxBytes <;> rfl

theorem twinSafe_leavingOpen {o body : Ctl Unit} (ho : TwinSafe P o) (hb : TwinSafe P body) :
    TwinSafe P (leavingOpen o body) := by
  intro s u hs
  have k := hb s u hs
  unfold leavingOpen
  revert k
  cases body s with
  | ok a s' =>
    cases body u with
    | ok b u' => exact id
    | stop w u' => exact False.elim
  | stop w s' =>
    cases body u with
    | ok b u' => cases w <;> exact False.elim
    | stop v u' =>
      cases w with
      | reset =>
        cases v with
        | reset => exact id
        | fail d => exact False.elim
      | fail c =>
        cases v with
        | reset => exact False.elim
        | fail d =>
          rintro ⟨rfl, hs'⟩
          exact twinSafe_andThen ho (fun _ => twinSafe_fail c) s' u' hs'

/-- A program comes to the same from twin states, if the host's turns do. -/
theorem Program.twinSafe (ht : TwinSafe P tick) {m : Ctl α} (hm : Program m) : TwinSafe P m := by
  induction hm with
  | ret a => exact twinSafe_step (f := id) (fun _ _ _ => rfl) fun _ _ _ => rfl
  | fail cls => exact twinSafe_fail cls
  | andThen _ _ ihm ihf => exact twinSafe_andThen ihm ihf
  | action e =>
    exact twinSafe_andThen ht fun _ => twinSafe_step (g := fun _ => ()) (fun _ _ _ => rfl) fun _ _ _ => rfl
  | setAck on =>
    exact twinSafe_andThen ht fun _ => twinSafe_step (g := fun _ => ()) (fun _ _ _ => rfl) fun _ _ _ => rfl
  | clearErr =>
    exact twinSafe_andThen ht fun _ => twinSafe_step (g := fun _ => ()) (fun _ _ _ => rfl) fun _ _ _ => rfl
  | sample =>
    exact twinSafe_andThen ht fun _ => twinSafe_step (fun s h st => by rw [takeSample_hosted]; rfl) fun s h st => by
      rw [takeSample_hosted]
  | readData =>
    exact twinSafe_andThen ht fun _ => twinSafe_step (fun s h st => by rw [takeByte_hosted]; rfl) fun s h st => by
      rw [takeByte_hosted]
  | draw f => exact twinSafe_step (fun _ _ _ => rfl) fun _ _ _ => rfl
  | writeRegs ho hg =>
    exact twinSafe_writeAt ho fun s h st => congrArg (fun r => { s with host := h, regs := r }) (hg _ st)
  | storeDbuf i v =>
    have above : dbufBase + i / 4 * 4 ≠ offStatus := by
      simp only [dbufBase, offStatus]
      omega
    exact twinSafe_writeAt above fun s h st => setDbufByte_hosted s h st i v
  | leavingOpen _ _ iho ihb => exact twinSafe_leavingOpen iho ihb
  | ofParams _ ih =>
    rintro s u ⟨hu, hp⟩
    have same : u.cfg = s.cfg := by rw [hu]; rfl
    simp only [same]
    exact ih s.cfg s u ⟨hu, hp⟩
  | ofLatch _ ih =>
    rintro s u ⟨hu, hp⟩
    have same : u.regs.rtReady = s.regs.rtReady := by rw [hu]; rfl
    simp only [same]
    exact ih s.regs.rtReady s u ⟨hu, hp⟩

/-- Both runs of a command end by the completion step, with the same class, of twin states, or by one reset. -/
theorem finish_twin {body : Ctl Unit} (hb : TwinSafe P body) {s u : State} (hs : Twin P s u) :
    (∃ cls s' u', Twin P s' u' ∧ finish (body s) = completionStep cls s' ∧ finish (body u) = completionStep cls u') ∨
      finish (body s) = finish (body u) := by
  have k := hb s u hs
  revert k
  cases body s with
  | ok a s' =>
    cases body u with
    | ok b u' => exact fun k => .inl ⟨none, s', u', k.2, rfl, rfl⟩
    | stop w u' => exact False.elim
  | stop w s' =>
    cases body u with
    | ok b u' => cases w <;> exact False.elim
    | stop v u' =>
      cases w with
      | reset =>
        cases v with
        | reset => exact fun k => .inr k
        | fail d => exact False.elim
      | fail c =>
        cases v with
        | reset => exact False.elim
        | fail d =>
          rintro ⟨rfl, hs'⟩
          exact .inl ⟨some c, s', u', hs', rfl, rfl⟩

/-- The two runs of any command from twin states. -/
theorem exec_twin (ht : TwinSafe P tick) (i : Instr) {s u : State} (hs : Twin P s u) :
    (∃ cls s' u', Twin P s' u' ∧ exec i s = .next (completionStep cls s') ∧
      exec i u = .next (completionStep cls u')) ∨ exec i s = exec i u := by
  obtain ⟨body, hb, he⟩ := exec_program i s
  have hes : exec i s = command body s := he s.host s.regs.status
  have heu : exec i u = command body u := by
    rw [hs.1]
    exact he _ _
  rw [hes, heu]
  rcases finish_twin (hb.twinSafe ht) hs with ⟨cls, s', u', hs', e, e'⟩ | e
  · exact .inl ⟨cls, s', u', hs', congrArg Host.Outcome.next e, congrArg Host.Outcome.next e'⟩
  · exact .inr (congrArg Host.Outcome.next e)

end Sys2Proof.Machine
end

section
/-! Host writes during a command (10_state.md R23), by two runs that differ in them alone: a write that is due comes to
its effect on `H_STATUS` and nothing else, and any number of writes leave what the command does as it is without them. -/

namespace Sys2Proof.Machine

/-- `H_STATUS` after a host write of `v` at `off` while BUSY = 1 (10_state.md R22, R23). -/
def Status.busyWrite (st : Status) (off : Nat) (v : Word) : Status :=
  if off = offStatus then st.write1Clear v else st.setOverrun

theorem busyStore_eq (s : State) (off : Nat) (v : Word) :
    s.busyStore off v = s.hosted s.host (s.regs.status.busyWrite off v) := by
  unfold State.busyStore Status.busyWrite
  split <;> rfl

/-! ### One write that is due -/

/-- The same schedule and status, or the second are the first with a due write performed. -/
def WritePerformed (a b : List HostMove × Status) : Prop :=
  b = a ∨ ∃ off n v, a.1 = .write off n v :: b.1 ∧ b.2 = a.2.busyWrite off.toNat v

/-- A due write and its effect come to the same at the host's next turn. -/
theorem tick_eq_of_writePerformed {s u : State} (h : Twin WritePerformed s u) : tick s = tick u := by
  obtain ⟨hu, same | ⟨off, n, v, hs, hst⟩⟩ := h
  · obtain ⟨hh, hst⟩ := Prod.mk.inj same
    rw [hu, hh, hst, hosted_self]
  · rw [tick_write hs, hu, busyStore_eq]
    exact congrArg (fun st => tick (s.hosted u.host st)) hst.symm

theorem twinRuns_refl {α : Type} {P : List HostMove × Status → List HostMove × Status → Prop} (hP : ∀ a, P a a)
    (r : Run α) : TwinRuns P r r := by
  cases r with
  | ok a s => exact ⟨rfl, rfl, hP _⟩
  | stop w s =>
    cases w with
    | fail c => exact ⟨rfl, rfl, hP _⟩
    | reset => exact rfl

theorem tick_writePerformed : TwinSafe WritePerformed tick := fun s u h => by
  rw [tick_eq_of_writePerformed h]
  exact twinRuns_refl (fun _ => .inl rfl) _

/-- A command from a state with a due write is the command from the state with the write performed: the two runs agree
at the command's first turn of the host, which is at its completion step at the latest. -/
theorem exec_eq_of_writePerformed (i : Instr) {s u : State} (h : Twin WritePerformed s u) : exec i s = exec i u := by
  rcases exec_twin tick_writePerformed i h with ⟨cls, s', u', h', e, e'⟩ | e
  · rw [e, e', completionStep, completionStep, tick_eq_of_writePerformed h']
  · exact e

theorem busyWrite_other (st : Status) {off : Nat} (v : Word) (h : off ≠ 0) :
    st.busyWrite off v = { st with overrun := true } := if_neg h

/-- Settles O9: in a step the move is performed at once, in a command at its first turn of the host. -/
theorem statusAndBusyWrites : Obligations.StatusAndBusyWrites := by
  refine ⟨fun s off v q hs ho hq => ⟨?_, fun hne hb => ?_⟩, fun s off n v q t hs ht => ?_⟩
  · rintro rfl
    rw [step_of_host hs (legal_write v ho) hq, stepMove_write 4 v (.inl (by decide))]
    split
    · rw [busyStore_eq]
      rfl
    · rfl
  · have hoff : off.toNat ≠ 0 := fun e => hne (BitVec.eq_of_toNat_eq e)
    rw [step_of_host hs (legal_write v ho) hq, stepMove_write (s := { s with host := q }) 4 v (.inr hb), if_pos hb,
      busyStore_eq, busyWrite_other _ v hoff]
    rfl
  · have performed : t = s.hosted q (s.regs.status.busyWrite off.toNat v) := by
      rw [ht]
      by_cases h0 : off = 0
      · subst h0
        rfl
      · rw [busyWrite_other _ v fun e => h0 (BitVec.eq_of_toNat_eq e), if_neg h0]
        rfl
    have twin : Twin WritePerformed s t := by
      rw [performed]
      exact twin_hosted (.inr ⟨off, n, v, hs, rfl⟩)
    exact ⟨tick_eq_of_writePerformed twin, fun i => exec_eq_of_writePerformed i twin⟩

/-! ### Any writes -/

/-- The first host makes only writes, if any move at all, and the second none; the statuses differ in DONE and OVERRUN
alone. -/
def WritesAgainstQuiet (a b : List HostMove × Status) : Prop :=
  (∀ m ∈ a.1, m = .pass ∨ ∃ off n v, m = .write off n v) ∧ b.1 = [] ∧ a.2.busy = b.2.busy ∧ a.2.ready = b.2.ready ∧
    a.2.errClass = b.2.errClass

/-- A turn of a host that makes only writes changes its schedule and DONE and OVERRUN. -/
theorem hostTurn_writes (q : List HostMove) (hq : ∀ m ∈ q, m = .pass ∨ ∃ off n v, m = .write off n v) (s : State) :
    ∃ p d o, hostTurn q s = .ok () (s.hosted p { s.regs.status with done := d, overrun := o }) ∧ ∀ m ∈ p, m ∈ q := by
  induction q generalizing s with
  | nil => exact ⟨[], s.regs.status.done, s.regs.status.overrun, rfl, fun _ h => h⟩
  | cons m q ih =>
    obtain ⟨hm, hq'⟩ := List.forall_mem_cons.mp hq
    rcases hm with rfl | ⟨off, n, v, rfl⟩
    · exact ⟨q, s.regs.status.done, s.regs.status.overrun, rfl, fun _ h => List.mem_cons_of_mem _ h⟩
    · obtain ⟨d, o, hs⟩ := busyStore_fields s off.toNat v
      obtain ⟨p, d', o', hp, sub⟩ := ih hq' (s.busyStore off.toNat v)
      refine ⟨p, d', o', hp.trans ?_, fun m h => List.mem_cons_of_mem _ (sub m h)⟩
      rw [hs]
      rfl

theorem tick_writesAgainstQuiet : TwinSafe WritesAgainstQuiet tick := by
  rintro s u ⟨hu, writes, quiet, same⟩
  obtain ⟨p, d, o, hp, sub⟩ := hostTurn_writes s.host writes s
  rw [show tick s = _ from hp, tick_quiet quiet]
  exact ⟨rfl, hu, fun m h => writes m (sub m h), quiet, same⟩

theorem completionStep_of_tick {s t : State} (cls : Option FailClass) (h : tick s = .ok () t) :
    completionStep cls s = t.complete cls := by
  simp only [completionStep, h]

/-- Settles O50: the two runs stay twins up to the completion step, and there they have the same class. -/
theorem hostWritesHarmless : Obligations.HostWritesHarmless := by
  intro i s t u hw ht hu
  have writes : ∀ m ∈ s.host, m = .pass ∨ ∃ off n v, m = .write off n v := fun m hm =>
    (hw m hm).imp_right fun ⟨off, v, e⟩ => ⟨off, 4, v, e⟩
  have start : Twin WritesAgainstQuiet s { s with host := [] } :=
    twin_hosted (st := s.regs.status) ⟨writes, rfl, rfl, rfl, rfl⟩
  rcases exec_twin tick_writesAgainstQuiet i start with ⟨cls, s', u', ⟨hu', writes', quiet, -⟩, e, e'⟩ | e
  · obtain ⟨p, d, o, hp, -⟩ := hostTurn_writes s'.host writes' s'
    rw [completionStep_of_tick cls hp] at e
    rw [completionStep_of_tick cls (tick_quiet quiet), hu'] at e'
    cases ht.symm.trans e
    cases hu.symm.trans e'
    exact ⟨rfl, rfl, rfl, rfl, rfl, rfl, rfl⟩
  · cases ht.symm.trans (e.trans hu)
    exact ⟨rfl, rfl, rfl, rfl, rfl, rfl, rfl⟩

end Sys2Proof.Machine
end

section
/-! The latched error flags of 10_state.md R37 through the pseudocode of a command. -/

namespace Sys2Proof.Machine

/-- Every flag set in `f` is set in `g`. -/
def ErrorFlags.StaysIn (f g : ErrorFlags) : Prop :=
  (f.af = true → g.af = true) ∧ (f.berr = true → g.berr = true) ∧ (f.arlo = true → g.arlo = true)

theorem ErrorFlags.StaysIn.refl (f : ErrorFlags) : f.StaysIn f := ⟨id, id, id⟩

theorem ErrorFlags.StaysIn.trans {f g h : ErrorFlags} (a : f.StaysIn g) (b : g.StaysIn h) : f.StaysIn h :=
  ⟨b.1 ∘ a.1, b.2.1 ∘ a.2.1, b.2.2 ∘ a.2.2⟩

/-- A sample adds the flags it shows. -/
theorem ErrorFlags.staysIn_observe (f : ErrorFlags) (x : Snapshot) : f.StaysIn (f.observe x) :=
  ⟨fun h => by simp [ErrorFlags.observe, h], fun h => by simp [ErrorFlags.observe, h],
    fun h => by simp [ErrorFlags.observe, h]⟩

/-- From `s` to `t` the trace has grown, and each flag set has stayed set unless a flag clear was issued. -/
def FlagsStay (s t : State) : Prop :=
  ∃ es, t.trace = s.trace ++ es ∧ (.clr ∉ es → s.latched.StaysIn t.latched)

theorem FlagsStay.trans {s t u : State} (h : FlagsStay s t) (k : FlagsStay t u) : FlagsStay s u := by
  obtain ⟨es, ht, he⟩ := h
  obtain ⟨fs, hu, hf⟩ := k
  refine ⟨es ++ fs, by rw [hu, ht, List.append_assoc], fun hc => ?_⟩
  rw [List.mem_append, not_or] at hc
  exact (he hc.1).trans (hf hc.2)

/-- A step that issues nothing and leaves the flags alone. -/
theorem FlagsStay.of_eq {s t : State} (ht : t.trace = s.trace) (hl : t.latched = s.latched) : FlagsStay s t :=
  ⟨[], by rw [ht, List.append_nil], fun _ => hl ▸ .refl _⟩

/-- An event that is a flag clear, or comes with the flags as they are or with more. -/
theorem FlagsStay.of_event {s t : State} (e : Event) (ht : t.trace = s.trace ++ [e])
    (hl : e = .clr ∨ s.latched.StaysIn t.latched) : FlagsStay s t :=
  ⟨[e], ht, fun hc => hl.resolve_left fun h => hc (h ▸ List.mem_singleton_self _)⟩

/-- The flags stay over `m`, however it ends. -/
def KeepsFlags {α : Type} (m : Ctl α) : Prop := ∀ s, FlagsStay s (m s).state

section
variable {α β : Type}

theorem keepsFlags_andThen {m : Ctl α} {f : α → Ctl β} (hm : KeepsFlags m) (hf : ∀ a, KeepsFlags (f a)) :
    KeepsFlags (andThen m f) := by
  intro s
  have k := hm s
  unfold andThen
  cases e : m s with
  | ok a t =>
    rw [e] at k
    exact k.trans (hf a t)
  | stop w t =>
    rw [e] at k
    exact k

/-- The host's moves and a reset reach neither the trace nor the peripheral. -/
theorem keepsFlags_tick : KeepsFlags tick := by
  intro s
  have k := hostTurn_frame s.host s
  unfold tick
  revert k
  cases hostTurn s.host s with
  | ok a t =>
    rintro ⟨l, d, st, p, rfl, -⟩
    exact .of_eq rfl rfl
  | stop w t =>
    cases w with
    | fail c => exact False.elim
    | reset =>
      rintro ⟨-, l, d, st, p, rfl, -⟩
      exact .of_eq rfl rfl

theorem keepsFlags_leavingOpen {o body : Ctl Unit} (ho : KeepsFlags o) (hb : KeepsFlags body) :
    KeepsFlags (leavingOpen o body) := by
  intro s
  have k := hb s
  unfold leavingOpen
  cases e : body s with
  | ok a t =>
    rw [e] at k
    exact k
  | stop w t =>
    rw [e] at k
    cases w with
    | reset => exact k
    | fail c => exact k.trans (keepsFlags_andThen ho (fun _ _ => .of_eq rfl rfl) t)

/-- A program clears the flags by the action of its own only (10_state.md R37). -/
theorem Program.keepsFlags {m : Ctl α} (hm : Program m) : KeepsFlags m := by
  induction hm with
  | ret a => exact fun _ => .of_eq rfl rfl
  | fail cls => exact fun _ => .of_eq rfl rfl
  | andThen _ _ ihm ihf => exact keepsFlags_andThen ihm ihf
  | action e => exact keepsFlags_andThen keepsFlags_tick fun _ _ => .of_event _ rfl (.inr (.refl _))
  | setAck on => exact keepsFlags_andThen keepsFlags_tick fun _ _ => .of_event _ rfl (.inr (.refl _))
  | clearErr => exact keepsFlags_andThen keepsFlags_tick fun _ _ => .of_event .clr rfl (.inl rfl)
  | sample =>
    refine keepsFlags_andThen keepsFlags_tick fun _ s => ?_
    obtain ⟨x, xs, d, hx⟩ := takeSample_fields s
    simp only [hx]
    exact .of_event (.poll x) rfl (.inr (s.latched.staysIn_observe x))
  | readData =>
    refine keepsFlags_andThen keepsFlags_tick fun _ s => ?_
    obtain ⟨b, ys, d, hb⟩ := takeByte_fields s
    simp only [hb]
    exact .of_event (.rx b) rfl (.inr (.refl _))
  | draw f => exact fun _ => .of_eq rfl rfl
  | writeRegs ho hg => exact fun _ => .of_eq rfl rfl
  | storeDbuf i v =>
    intro s
    have trace : (s.setDbufByte i v).trace = s.trace := by rw [setDbufByte_eq]
    have latched : (s.setDbufByte i v).latched = s.latched := by rw [setDbufByte_eq]
    exact .of_eq trace latched
  | leavingOpen _ _ iho ihb => exact keepsFlags_leavingOpen iho ihb
  | ofParams _ ih => exact fun s => ih s.cfg s
  | ofLatch _ ih => exact fun s => ih s.regs.rtReady s

end

theorem completionStep_flagsStay (cls : Option FailClass) (s : State) : FlagsStay s (completionStep cls s) := by
  have k := keepsFlags_tick s
  unfold completionStep
  cases e : tick s with
  | ok a t =>
    rw [e] at k
    exact k.trans (.of_eq rfl rfl)
  | stop w t =>
    rw [e] at k
    exact k

/-- The flags over a whole command. -/
theorem exec_flagsStay {i : Instr} {s t : State} (h : exec i s = .next t) : FlagsStay s t := by
  obtain ⟨body, hb, he⟩ := exec_program_self i s
  have k := hb.keepsFlags s
  cases he.symm.trans h
  revert k
  cases body s with
  | ok a u => exact fun k => k.trans (completionStep_flagsStay _ _)
  | stop w u =>
    cases w with
    | fail c => exact fun k => k.trans (completionStep_flagsStay _ _)
    | reset => exact id

/-- Settles O54: every piece of a command keeps the flags, but for the action that issues CLR. -/
theorem latchedFlagsStay : Obligations.LatchedFlagsStay := by
  intro i s t es _ h ht hc
  obtain ⟨fs, hf, stay⟩ := exec_flagsStay h
  have same : es = fs := List.append_cancel_left (ht.symm.trans hf)
  exact stay (same ▸ hc)

end Sys2Proof.Machine
end

section
/-! The memory map as the host meets it (20_memory.md): the shape of an access and when a step refuses, DBUF byte by
byte, and what a busy read may return. -/

namespace Sys2Proof.Machine

/-! ### The shape of an access, and when a step refuses -/

/-- What `HostMove.legal` rejects: an access of another width or a misaligned one (20_memory.md R61). -/
theorem legal_eq_false_iff (m : HostMove) : m.legal = false ↔
    ∃ off n, (m = .read off n ∨ ∃ v, m = .write off n v) ∧ (n ≠ 4 ∨ off.toNat % 4 ≠ 0) := by
  cases m with
  | read off n | write off n v => simp [HostMove.legal, imp_iff_not_or]
  | pass | reset => simp [HostMove.legal]

theorem exec_next (i : Instr) (s : State) : ∃ t, exec i s = .next t := by
  obtain ⟨body, -, run⟩ := exec_program_self i s
  exact ⟨_, run.trans (command_next body s)⟩

theorem runWord_next (w : Word) (s : State) : ∃ t, runWord w s = .next t := by
  unfold runWord
  split
  · exact exec_next _ s
  · exact ⟨_, command_next _ s⟩

theorem stepMove_next (m : HostMove) (s : State) : ∃ t, stepMove m s = .next t := by
  unfold stepMove
  split
  · exact runWord_next _ _
  · exact ⟨_, rfl⟩

theorem step_of_illegal {s : State} {m : HostMove} (hm : m ∈ s.host) (bad : m.legal = false) :
    step s = .refused .hostAccessShape := by
  unfold step
  split
  next quiet => exact absurd (quiet ▸ hm) List.not_mem_nil
  next move q sched =>
    have notAll : ¬ (move :: q).all HostMove.legal = true := fun all =>
      Bool.false_ne_true (bad.symm.trans (List.all_eq_true.mp all m (sched ▸ hm)))
    rw [if_neg notAll]

theorem step_of_legal {s : State} (legal : ∀ m ∈ s.host, m.legal = true) : ∃ t, step s = .next t := by
  cases sched : s.host with
  | nil => exact ⟨s, by simp only [step, sched]⟩
  | cons m q =>
    obtain ⟨hm, hq⟩ := List.forall_mem_cons.mp (sched ▸ legal)
    rw [step_of_host sched hm hq]
    exact stepMove_next m _

/-- A step refuses a schedule with an access of a bad shape, and answers on every other. -/
theorem step_refused_or_next (s : State) :
    ((∃ m ∈ s.host, m.legal = false) ∧ step s = .refused .hostAccessShape) ∨
      ((¬ ∃ m ∈ s.host, m.legal = false) ∧ ∃ t, step s = .next t) := by
  by_cases bad : ∃ m ∈ s.host, m.legal = false
  · obtain ⟨m, hm, hbad⟩ := bad
    exact .inl ⟨⟨m, hm, hbad⟩, step_of_illegal hm hbad⟩
  · have legal : ∀ m ∈ s.host, m.legal = true := by simpa using bad
    exact .inr ⟨bad, step_of_legal legal⟩

/-- Settles O6: a schedule has a move of a bad shape and the step refuses it, or it has none and the step answers. -/
theorem accessShapeRefused : Obligations.AccessShapeRefused := by
  refine ⟨fun s => ?_, fun s => ?_⟩
  · simp only [← legal_eq_false_iff]
    rcases step_refused_or_next s with ⟨bad, refused⟩ | ⟨good, t, next⟩
    · exact iff_of_true refused bad
    · exact iff_of_false (by simp [next]) good
  · rcases step_refused_or_next s with ⟨-, refused⟩ | ⟨-, next⟩
    · exact .inl refused
    · exact .inr next

/-! ### DBUF, byte by byte -/

/-- DBUF byte `i + j` is byte `j` of the word that starts at DBUF byte `i` (20_memory.md R62). -/
theorem byteOf_dbufWord (s : State) (i : Nat) {j : Nat} (h : j < 4) : byteOf (s.dbufWord i) j = s.dbufByte (i + j) := by
  rw [State.dbufWord, byteOf_pack]
  interval_cases j <;> rfl

/-- Storing `DBUF[i]`, by byte: at `DBUF_LEN` and above it stores nothing. -/
theorem memByte_setDbufByte (s : State) {i : Nat} (v : Byte) (a : Nat) (hi : i < 256) :
    (s.setDbufByte i v).memByte a = if a = 0x100 + i ∧ i < s.cfg.dbufLen.toNat then v else s.memByte a := by
  by_cases len : i < s.cfg.dbufLen.toNat
  · rw [State.setDbufByte, if_pos len, memByte_setMemByte _ _ _ _ (by simp only [dbufBase]; omega)]
    simp only [dbufBase, len, and_true, eq_comm]
  · rw [setDbufByte_of_le v (Nat.le_of_not_lt len), if_neg (fun h => len h.2)]

/-- Storing the word that starts at `DBUF[i]`, by byte: each byte of memory takes the byte of the word that falls on it,
if it is below `DBUF_LEN`. -/
theorem memByte_setDbufWord (s : State) {i : Nat} (v : Word) (a : Nat) (hi : i + 4 ≤ 256) :
    (s.setDbufWord i v).memByte a =
      if 0x100 + i ≤ a ∧ a < 0x100 + i + 4 ∧ a < 0x100 + s.cfg.dbufLen.toNat then byteOf v (a - (0x100 + i))
      else s.memByte a := by
  rw [State.setDbufWord, memByte_setDbufByte _ _ _ (by omega), memByte_setDbufByte _ _ _ (by omega),
    memByte_setDbufByte _ _ _ (by omega), memByte_setDbufByte _ _ _ (by omega)]
  simp only [setDbufByte_cfg]
  by_cases inWord : 0x100 + i ≤ a ∧ a < 0x100 + i + 4
  · obtain ⟨j, rfl⟩ := Nat.exists_eq_add_of_le inWord.1
    have hj : j < 4 := by omega
    have index : 0x100 + i + j - (0x100 + i) = j := by omega
    rw [index]
    interval_cases j <;> simp [Nat.add_assoc]
  · rw [if_neg (by omega), if_neg (by omega), if_neg (by omega), if_neg (by omega), if_neg (by omega)]

/-- Settles O14: offset `0x100 + 4 k` is the word of the DBUF bytes from `4 k` on. -/
theorem dbufLittleEndian : Obligations.DbufLittleEndian := by
  intro s k hk
  have window : 0x100 ≤ 0x100 + 4 * k ∧ 0x100 + 4 * k < 0x200 := by omega
  have index : 0x100 + 4 * k - 0x100 = 4 * k := by omega
  refine ⟨fun i hi => ?_, fun v a => ?_⟩
  · rw [hostWord_dbuf s window, index, byteOf_dbufWord s _ hi, State.dbufByte, dbufBase, Nat.add_assoc]
  · rw [hostStore_dbuf s v window, index, memByte_setDbufWord s v a (by omega)]

/-! ### Busy reads -/

/-- A busy read of a register that the command has written returns a member of the register's list, and the choice draws
a free value (20_memory.md R68 item 3). -/
theorem busyLoad_of_written {s : State} {off : Nat} (h : s.writtenAt off ≠ []) : ∃ v ∈ s.writtenAt off,
    s.busyLoad off = { s with reads := s.reads ++ [(off, v)], draws := s.draws + 1 } := by
  unfold State.busyLoad
  split
  next none => exact absurd none h
  next v vs list =>
    have bound : Config.freeIndex s.draws % (vs.length + 1) < (v :: vs).length := Nat.mod_lt _ (Nat.succ_pos _)
    refine ⟨_, ?_, rfl⟩
    rw [list, List.getD_eq_getElem _ _ bound]
    exact List.getElem_mem bound

/-- `State.record` looks for the register's prior word where `State.writtenAt` does. -/
theorem written_any_iff (s : State) (off : Nat) :
    s.written.any (fun e => e.1 == off) = true ↔ s.writtenAt off ≠ [] := by
  simp [State.writtenAt]

theorem writtenAt_append (s t : State) (l : List (Nat × Word)) (off : Nat) :
    State.writtenAt { t with written := s.written ++ l } off =
      s.writtenAt off ++ (l.filter fun e => e.1 == off).map Prod.snd := by
  simp only [State.writtenAt, List.filter_append, List.map_append]

/-- A write by the command puts the register's prior word first if its list is empty, and appends the word the register
then holds. -/
theorem writtenAt_record_same (off : Nat) (s t : State) : (State.record off s t).writtenAt off =
    (if s.writtenAt off = [] then [s.hostWord off] else s.writtenAt off) ++ [t.hostWord off] := by
  simp only [State.record, List.append_assoc, writtenAt_append]
  by_cases first : s.writtenAt off = []
  · simp [mt (written_any_iff s off).mp (not_not_intro first), first]
  · simp [(written_any_iff s off).mpr first, first]

theorem writtenAt_record_ne {off off' : Nat} (h : off' ≠ off) (s t : State) :
    (State.record off s t).writtenAt off' = s.writtenAt off' := by
  simp only [State.record, List.append_assoc, writtenAt_append]
  split <;> simp [h.symm]

/-- Settles O8: the read that is due is a `busyLoad`, a write by the command is a `State.record`, and each register
write of the model is a `writeAt` at its offset. -/
theorem busyReadAmongWritten : Obligations.BusyReadAmongWritten := by
  refine ⟨fun s off n q hs hw => ?_, fun s off f => ?_, fun _ => rfl, fun _ => rfl, fun _ => rfl, rfl, fun _ => rfl,
    fun _ _ => rfl, fun _ _ => rfl⟩
  · obtain ⟨v, hv, load⟩ := busyLoad_of_written hw
    exact ⟨v, hv, by rw [tick_read hs, load]⟩
  · exact ⟨_, writeAt_run off f s, writtenAt_record_same off s (f s), fun _ h => writtenAt_record_ne h s (f s)⟩

end Sys2Proof.Machine
end

section
/-! The decoder against the encoder and the opcode map (30_encoding.md R84 to R86). A word that a row of the map selects
decodes to that row's command under the row's "must be 0" check, and the word is then the command's encoding
(`decode_of_selects`); no second row selects it (`row_unique`); and a word that no row selects has an unassigned opcode
(`no_row_selects_iff`). -/

namespace Sys2Proof

/-! ### Bytes under the masks of the opcode map -/

@[simp] theorem and_fullMask (x : Byte) : x &&& 255#8 = x := BitVec.and_allOnes

/-- The two opcodes of CD_CONFIGURE: all but the motor bit `M` are fixed (30_encoding.md R83). -/
theorem and_motorMask_eq_iff : ∀ op : Byte, op &&& 254#8 = 64#8 ↔ op = 64#8 ∨ op = 65#8 := by decide

/-- A byte in which only bit 0 may be set is the field of its flag (30_encoding.md R83). -/
theorem flagField_flagOf : ∀ c : Byte, c &&& 254#8 = 0#8 → flagField (flagOf c) = c := by decide

/-! ### The word of a command -/

/-- Settles O1: every operand is a whole field of the word or bit 0 of one, and the rest of the word is zero. -/
theorem decodeOfEncode : Obligations.DecodeOfEncode := by
  intro i
  cases i with
  | cdConfigure motor _ _ _ => cases motor <;> simp [encode, decode]
  | busWrite _ | busRead _ _ _ | regWrite _ _ | regRead _ _ | setWaveform _ _ | getWaveform _ _ | setSustain _ _
  | decRated _ | decClamp _ | autocal _ | playFreqAmp _ =>
    simp [encode, decode, Decoded.unless]
  | clearSequence | encRated | encClamp | defaultInit | cdStart | cdStop | rtPrepare | playFreqVoltage | agStep => rfl

/-! ### The rows of the opcode map -/

/-- If what two rows fix of `OP` agrees under their common mask, they are one row. -/
theorem opcodeTable_disjoint : ∀ r ∈ opcodeTable, ∀ r' ∈ opcodeTable,
    r.op &&& r'.opMask = r'.op &&& r.opMask → r = r' := by decide

/-- No two rows select one word (30_encoding.md R86). -/
theorem row_unique {w : Word} {r r' : OpcodeRow} (hr : r ∈ opcodeTable) (hr' : r' ∈ opcodeTable)
    (h : r.selects w = true) (h' : r'.selects w = true) : r = r' := by
  have op : opField w &&& r.opMask = r.op := eq_of_beq h
  have op' : opField w &&& r'.opMask = r'.op := eq_of_beq h'
  apply opcodeTable_disjoint r hr r' hr'
  rw [← op, ← op', BitVec.and_assoc, BitVec.and_assoc, BitVec.and_comm r.opMask]

/-- The unassigned opcodes (30_encoding.md R85). -/
theorem no_row_selects_iff (w : Word) : (∀ r ∈ opcodeTable, r.selects w = false) ↔
    ((opField w).toNat = 0x00 ∨ (0x05 ≤ (opField w).toNat ∧ (opField w).toNat ≤ 0x0F) ∨
      (0x14 ≤ (opField w).toNat ∧ (opField w).toNat ≤ 0x1F) ∨
      (0x24 ≤ (opField w).toNat ∧ (opField w).toNat ≤ 0x2F) ∨
      (0x32 ≤ (opField w).toNat ∧ (opField w).toNat ≤ 0x3F) ∨
      (0x44 ≤ (opField w).toNat ∧ (opField w).toNat ≤ 0x4F) ∨
      (0x53 ≤ (opField w).toNat ∧ (opField w).toNat ≤ 0x5F) ∨ 0x61 ≤ (opField w).toNat) := by
  simp only [opcodeTable, OpcodeRow.selects, BitVec.ofNat_eq_ofNat, List.forall_mem_cons, List.not_mem_nil,
    IsEmpty.forall_iff, implies_true, and_true, beq_eq_false_iff_ne, ne_eq, and_fullMask, and_motorMask_eq_iff]
  simp only [← BitVec.toNat_inj, BitVec.toNat_ofNat]
  omega

/-! ### What a word decodes to -/

/-- For `decode_of_selects`, row by row: the decoder's own "must be 0" check is the row's, and where it passes, the
command's operands are the fields of the word. -/
theorem decodes_by_row {w : Word} {r : OpcodeRow} {i : Instr} {clear : Bool} (dec : decode w = .unless clear i)
    (zero : r.zerosClear w = clear)
    (enc : clear = true → encode i = packBytes (cField w) (bField w) (aField w) (opField w)) :
    ∃ i, decode w = .unless (r.zerosClear w) i ∧ (r.zerosClear w = true → encode i = w) :=
  ⟨i, zero ▸ dec, fun h => (enc (zero ▸ h)).trans (pack_fields w)⟩

/-- What the decoder makes of a word that a row selects: that row's command, unless its "must be 0" check fails; and no
bit of the word is dropped. -/
theorem decode_of_selects {w : Word} {r : OpcodeRow} (hr : r ∈ opcodeTable) (h : r.selects w = true) :
    ∃ i, decode w = .unless (r.zerosClear w) i ∧ (r.zerosClear w = true → encode i = w) := by
  unfold opcodeTable at hr
  fin_cases hr <;>
    simp only [OpcodeRow.selects, BitVec.ofNat_eq_ofNat, and_fullMask, and_motorMask_eq_iff, beq_iff_eq] at h
  on_goal 15 => -- CD_CONFIGURE: two opcodes, and no "must be 0" bit
    rcases h with op | op
    all_goals
      apply decodes_by_row (clear := true)
      case dec => unfold decode; rw [op]; rfl
      case zero => simp [OpcodeRow.zerosClear]
      case enc => simp [encode, op]
  all_goals
    apply decodes_by_row
    case dec => unfold decode; rw [h]; rfl
    case zero => simp [OpcodeRow.zerosClear, Bool.and_assoc]
    case enc => simp +contextual [encode, h, flagField_flagOf]

theorem decode_of_zerosClear {w : Word} {r : OpcodeRow} (hr : r ∈ opcodeTable) (sel : r.selects w = true)
    (clear : r.zerosClear w = true) : ∃ i, decode w = .command i ∧ encode i = w := by
  obtain ⟨i, dec, enc⟩ := decode_of_selects hr sel
  exact ⟨i, by rw [dec, clear]; rfl, enc clear⟩

theorem decode_of_not_zerosClear {w : Word} {r : OpcodeRow} (hr : r ∈ opcodeTable) (sel : r.selects w = true)
    (unclear : r.zerosClear w = false) : decode w = .illegal .mustBeZero := by
  obtain ⟨i, dec, -⟩ := decode_of_selects hr sel
  rw [dec, unclear]
  rfl

theorem decode_of_no_row {w : Word} (h : ∀ r ∈ opcodeTable, r.selects w = false) :
    decode w = .illegal .unassignedOpcode := by
  have op := (no_row_selects_iff w).mp h
  unfold decode
  split
  case h_23 => rfl
  all_goals omega

/-- The two ways to be ILLEGAL (30_encoding.md R85). -/
def MeetsNoRow (w : Word) : Prop :=
  (∀ r ∈ opcodeTable, r.selects w = false) ∨ ∃ r ∈ opcodeTable, r.selects w = true ∧ r.zerosClear w = false

theorem decode_of_meetsNoRow {w : Word} : MeetsNoRow w → ∃ why, decode w = .illegal why
  | .inl unselected => ⟨_, decode_of_no_row unselected⟩
  | .inr ⟨_, hr, sel, unclear⟩ => ⟨_, decode_of_not_zerosClear hr sel unclear⟩

/-- A word is the encoding of the command it decodes to, or it meets no row. -/
theorem command_or_meetsNoRow (w : Word) : (∃ i, decode w = .command i ∧ encode i = w) ∨ MeetsNoRow w := by
  by_cases selected : ∃ r ∈ opcodeTable, r.selects w = true
  · obtain ⟨r, hr, sel⟩ := selected
    cases zeros : r.zerosClear w with
    | true => exact .inl (decode_of_zerosClear hr sel zeros)
    | false => exact .inr (.inr ⟨r, hr, sel, zeros⟩)
  · exact .inr (.inl (by simpa using selected))

theorem illegal_iff_meetsNoRow (w : Word) : (∃ why, decode w = .illegal why) ↔ MeetsNoRow w := by
  refine ⟨fun ⟨why, ill⟩ => ?_, decode_of_meetsNoRow⟩
  rcases command_or_meetsNoRow w with ⟨i, dec, -⟩ | unmet
  · exact nomatch dec.symm.trans ill
  · exact unmet

/-- Settles O2: a word meets a row, whose command encodes to it, or is ILLEGAL; and the rows are disjoint. -/
theorem decodingTotalAndUnambiguous : Obligations.DecodingTotalAndUnambiguous := by
  refine ⟨fun w => ?_, fun w r r' hr hr' => row_unique hr hr'⟩
  rcases command_or_meetsNoRow w with ⟨i, dec, enc⟩ | unmet
  · exact .inl ⟨i, dec, enc, fun j hj => Decoded.command.inj (hj.symm.trans dec)⟩
  · exact .inr (decode_of_meetsNoRow unmet)

/-- Settles O3: the encodings of R88 and of the test vectors, and three ILLEGAL words, evaluated. -/
theorem specWordsDecode : Obligations.SpecWordsDecode := by
  unfold Obligations.SpecWordsDecode
  decide

end Sys2Proof
end

section
/-! What an ILLEGAL command does (30_encoding.md R85), and the pseudo-commands (30_encoding.md R89). -/

namespace Sys2Proof.Machine

/-- An ILLEGAL command is its completion step, with class ILLEGAL. -/
theorem runWord_of_illegal {w : Word} {s : State} {why : IllegalReason} (quiet : s.host = [])
    (ill : decode w = .illegal why) : runWord w s = .next (s.completedWith .illegal) := by
  unfold runWord
  rw [ill]
  exact command_of_fail (fail_run .illegal s) quiet

/-- Settles O4: ILLEGAL words are those that meet no row, and the command they start fails at once. -/
theorem illegalWords : Obligations.IllegalWords := by
  refine ⟨illegal_iff_meetsNoRow, no_row_selects_iff, fun w s why quiet ill => ?_⟩
  obtain ⟨-, -, ready, -, -, errClass⟩ := statusWordLayout (failedStatus s.regs.status .illegal)
  exact ⟨runWord_of_illegal quiet ill, errClass, ready⟩

/-- Settles O60: the expansion of each pseudo-command, and of the control registers' for each of the five. -/
theorem pseudoCommands : Obligations.PseudoCommands := by
  intro c v dv n
  cases n <;> and_intros <;> rfl

end Sys2Proof.Machine
end

section
/-! The register frame of every command: what its rule does not name as written (`HostRegs.writtenBy`) stays. -/

namespace Sys2Proof.Machine

section
variable (r t u : HostRegs) (i : Instr)

/-- What a rule names as written is taken from the later registers. -/
theorem writtenBy_self : HostRegs.writtenBy r r i = r := by
  cases i with
  | autocal rb => cases rb <;> rfl
  | _ => rfl

@[simp] theorem writtenBy_status : (HostRegs.writtenBy r t i).status = r.status := by
  cases i with
  | autocal rb => cases rb <;> rfl
  | _ => rfl

/-- What a rule names as written may be written over. -/
theorem writtenBy_writtenBy : HostRegs.writtenBy (HostRegs.writtenBy r t i) u i = HostRegs.writtenBy r u i := by
  cases i with
  | autocal rb => cases rb <;> rfl
  | _ => rfl

theorem writtenBy_withStatus (st : Status) :
    HostRegs.writtenBy { r with status := st } t i = { HostRegs.writtenBy r t i with status := st } := by
  cases i with
  | autocal rb => cases rb <;> rfl
  | _ => rfl

/-- The host registers outside `H_STATUS` that the rule of command `i` does not name as written: the others are taken
from `t`, and `H_STATUS` is `st`. -/
def HostRegs.unnamed (t : HostRegs) (st : Status) (i : Instr) (r : HostRegs) : HostRegs :=
  { HostRegs.writtenBy r t i with status := st }

theorem unnamed_ignoresStatus (st : Status) : IgnoresStatus (HostRegs.unnamed t st i) := fun r st' => by
  simp only [HostRegs.unnamed, writtenBy_withStatus]

theorem unnamed_ignoresWrites (st : Status) : IgnoresWrites (HostRegs.unnamed t st i) i := fun r u => by
  simp only [HostRegs.unnamed, writtenBy_writtenBy]

end

/-- Settles O40: the frame of a command, for the view of all registers that its rule does not name. -/
theorem commandsKeepRegisters : Obligations.CommandsKeepRegisters := by
  intro i s t hs h
  have regs := exec_keeps (unnamed_ignoresStatus t.regs i s.regs.status)
    (unnamed_ignoresWrites t.regs i s.regs.status) hs h
  simp only [HostRegs.unnamed, writtenBy_self] at regs
  obtain ⟨u, cls, frame, rfl⟩ := exec_frame (keep := noView) (fun _ _ => rfl) (fun _ _ => rfl) hs h
  refine ⟨regs.trans ?_, frame.cfg, frame.resets, frame.trace, fun quiet => (frame.quiet quiet).2⟩
  rw [← writtenBy_status s.regs (u.complete cls).regs i]

end Sys2Proof.Machine
end

section
/-! The wait primitive (40_bus_engine.md R100), sample by sample. -/

namespace Sys2Proof.Machine

/-- `s` after the samples `xs`, the environment's snapshots consumed down to `rest`. -/
def State.sampled (s : State) (xs rest : List Snapshot) : State :=
  { s with samples := rest, latched := xs.foldl ErrorFlags.observe s.latched, trace := s.trace ++ xs.map .poll }

theorem sampled_sampled (s : State) (xs ys us vs : List Snapshot) :
    (s.sampled xs us).sampled ys vs = s.sampled (xs ++ ys) vs := by
  simp only [State.sampled, List.foldl_append, List.map_append, List.append_assoc]

/-- With the host quiet, a sample takes the next snapshot. -/
theorem sample_of_next {s : State} {x : Snapshot} {rest : List Snapshot} (quiet : s.host = [])
    (next : s.samples = x :: rest) : sample s = .ok x (s.sampled [x] rest) := by
  unfold sample
  rw [before_of_ok (tick_quiet quiet)]
  simp only [State.takeSample, next]
  rfl

/-- The loop passes over the samples `ys`, which show neither the condition nor an error flag, and ends with `x`, which
shows one of them or is the last of the budget. -/
theorem waitLoop_ends (c : Cond) (ys : List Snapshot) (x : Snapshot) (rest : List Snapshot) (k : Nat) (s : State)
    (quiet : s.host = []) (next : s.samples = ys ++ x :: rest)
    (idle : ∀ y ∈ ys, condHolds c y = false ∧ anyError y = false) (room : ys.length ≤ k)
    (ends : condHolds c x = true ∨ anyError x = true ∨ ys.length = k) :
    waitLoop c k s = .ok (condHolds c x) (s.sampled (ys ++ [x]) rest) := by
  induction ys generalizing k s with
  | nil =>
    have first := sample_of_next quiet next
    cases k with
    | zero => exact andThen_of_ok first
    | succ k =>
      refine (andThen_of_ok first).trans ?_
      cases holds : condHolds c x with
      | true => simp only [if_true, ret_run, List.nil_append]
      | false =>
        have error : anyError x = true := by simpa [holds] using ends
        simp only [error, if_true, ret_run, List.nil_append, Bool.false_eq_true, if_false]
  | cons y ys ih =>
    obtain ⟨⟨holds, error⟩, idle⟩ := List.forall_mem_cons.mp idle
    cases k with
    | zero => exact absurd room (Nat.not_succ_le_zero _)
    | succ k =>
      refine (andThen_of_ok (sample_of_next quiet next)).trans ?_
      simp only [holds, error, Bool.false_eq_true, if_false]
      refine (ih k (s.sampled [y] (ys ++ x :: rest)) quiet rfl idle (Nat.le_of_succ_le_succ room)
        (by simpa using ends)).trans ?_
      rw [sampled_sampled]
      rfl

/-- Settles O51: the wait is its loop with one sample less than the budget to come after the first. -/
theorem waitRule : Obligations.WaitRule := by
  intro c s ys x rest quiet next idle room ends
  have loop := waitLoop_ends c ys x rest (condBudget s.cfg c - 1) s quiet next idle (by omega)
    (ends.imp_right (Or.imp_right fun h => by omega))
  exact ⟨_, loop, rfl, rfl, rfl, rfl⟩

end Sys2Proof.Machine
end

section
/-! BUS_WRITE and BUS_READ on a bus that satisfies every wait at once (40_bus_engine.md R110, R111). -/

namespace Sys2Proof.Machine

variable {c : Params}

/-! ### BUS_WRITE -/

theorem runs_busWriteBody {len n : Nat} {p : List Byte} (fits : n ≤ len) (some : p ≠ []) :
    Runs c (busWriteBody len n p) (3 + 2 * p.length) [] (writeEvents c p) false id () :=
  runs_checked (decide_eq_true fits) (runs_must (runs_writeBytes p some))

theorem runs_busWriteBody_nil {len n : Nat} (fits : n ≤ len) :
    Runs c (busWriteBody len n []) 0 [] [] false id () :=
  runs_checked (decide_eq_true fits) (runs_must (runs_ret true))

theorem dbufPayload_length (s : State) (n : Nat) : (dbufPayload s n).length = n := by simp [dbufPayload]

/-- Settles O20: after its check the command is one bus write of its payload, which is empty for `n = 0`. -/
theorem busWriteCompletes : Obligations.BusWriteCompletes := by
  intro s xs ys n fits
  refine ⟨?_, fun nonzero answers => ?_⟩
  · rintro rfl answers
    exact command_of_runs (runs_busWriteBody_nil fits) rfl answers
  · have some : dbufPayload s n.toNat ≠ [] := fun none => nonzero <| BitVec.eq_of_toNat_eq <| by
      rw [← dbufPayload_length s n.toNat, none]
      rfl
    exact command_of_runs (runs_busWriteBody fits some) rfl (by rwa [dbufPayload_length])

/-! ### BUS_READ -/

/-- Memory with `DBUF[i] <- b`. -/
def Memory.setDbuf (c : Params) (i : Nat) (b : Byte) (m : Memory) : Memory :=
  if i < c.dbufLen.toNat ∧ i < 0x700 then m.insert (dbufBase + i) b else m

/-- Storing `DBUF[i]` is that change of memory. -/
theorem setDbufByte_mem (s : State) (i : Nat) (b : Byte) : (s.setDbufByte i b).mem = s.mem.setDbuf s.cfg i b := by
  have window : 0x100 ≤ dbufBase + i ∧ dbufBase + i < 0x800 ↔ i < 0x700 := by
    simp only [dbufBase]
    omega
  simp only [State.setDbufByte, State.setMemByte, Memory.setDbuf, window, ite_and]
  split_ifs <;> rfl

theorem storeDbuf_sinks : SinksBy c storeDbuf (Memory.setDbuf c) := by
  rintro i b s rfl
  refine ⟨(State.record (dbufBase + i / 4 * 4) s (s.setDbufByte i b)).written, ?_⟩
  rw [← setDbufByte_mem]
  unfold storeDbuf
  rw [writeAt_run, State.record, setDbufByte_eq]

/-- The bytes `q` stored in DBUF from index `i` on, and every other byte as before. -/
theorem lookup_sinkAll_setDbuf (q : List Byte) (i : Nat) (m : Memory) (a : Nat)
    (fits : i + q.length ≤ c.dbufLen.toNat) (window : i + q.length ≤ 0x700) :
    (sinkAll (Memory.setDbuf c) i q m).lookup a =
      if dbufBase + i ≤ a ∧ a < dbufBase + i + q.length then q[a - (dbufBase + i)]? else m.lookup a := by
  induction q generalizing i m with
  | nil => rw [if_neg (by simp only [List.length_nil]; omega)]; rfl
  | cons b q ih =>
    rw [List.length_cons] at fits window
    have first : (Memory.setDbuf c i b m).lookup a = if dbufBase + i = a then some b else m.lookup a := by
      rw [Memory.setDbuf, if_pos (by omega), lookup_insert]
    rw [sinkAll, ih (i + 1) _ (by omega) (by omega), first, List.length_cons]
    rcases Nat.lt_trichotomy a (dbufBase + i) with below | here | above
    · rw [if_neg (by omega), if_neg (by omega), if_neg (by omega)]
    · rw [if_neg (by omega), if_pos here.symm, if_pos (by omega), here, Nat.sub_self]
      rfl
    · have index : a - (dbufBase + i) = a - (dbufBase + (i + 1)) + 1 := by omega
      rw [index, List.getElem?_cons_succ, if_neg (by omega : ¬dbufBase + i = a)]
      exact if_congr (by omega) rfl rfl

/-- A BUS_READ of the bytes `q`, to the end of its pseudocode. -/
theorem busReadBody_ready {len : Nat} (reg b : Byte) (q : List Byte) (s : State) (xs : List Snapshot) (ys : List Byte)
    (fits : q.length + 1 ≤ len) (answers : s.Answers (8 + (q.length + 1)) (b :: q) xs ys) :
    ∃ w, busReadBody len reg (q.length + 1) true s = .ok ()
      { s.advance (readEvents s.cfg reg (b :: q)) xs ys true s.regs w with
        mem := sinkAll (Memory.setDbuf s.cfg) 0 (b :: q) s.mem } := by
  obtain ⟨w, read⟩ := readRegisters_ready storeDbuf_sinks reg b q s xs ys rfl answers
  refine ⟨w, ?_⟩
  simp only [busReadBody, require_true, before_ret, Nat.succ_ne_zero, if_false, fits, decide_true]
  exact andThen_of_ok (andThen_of_ok read)

theorem runs_busReadBody_zero {len : Nat} {reg : Byte} : Runs c (busReadBody len reg 0 true) 0 [] [] false id () :=
  runs_checked rfl (runs_ret ())

/-- Nothing is loosened when the body runs to its end. -/
theorem runs_leavingOpen {o m : Ctl Unit} {n : Nat} {bs : List Byte} {es : List Event} {r : Bool}
    {g : HostRegs → HostRegs} (H : Runs c m n bs es r g ()) : Runs c (leavingOpen o m) n bs es r g () :=
  fun s xs ys hc answers => (H s xs ys hc answers).imp fun _ => leavingOpen_of_ok

/-- Settles O21: the bytes go to DBUF as they arrive; nothing is loosened, because the read answers OK. -/
theorem busReadCompletes : Obligations.BusReadCompletes := by
  intro s xs ys reg n
  constructor
  · rintro rfl answers
    exact command_of_runs (runs_leavingOpen runs_busReadBody_zero) rfl answers
  · intro q nonzero fits length answers
    cases q with
    | nil => exact absurd (BitVec.eq_of_toNat_eq length.symm) nonzero
    | cons b q =>
      have small := n.isLt
      rw [← length] at answers fits small
      obtain ⟨w, body⟩ := busReadBody_ready reg b q s xs ys fits answers
      refine ⟨sinkAll (Memory.setDbuf s.cfg) 0 (b :: q) s.mem, ?_, fun a => ?_⟩
      · show execBusRead reg n true s = _
        unfold execBusRead
        rw [← length]
        exact command_of_ok (leavingOpen_of_ok body) answers.quiet
      · rw [lookup_sinkAll_setDbuf _ _ _ _ (by omega) (by omega), length]
        rfl

end Sys2Proof.Machine
end

section
/-! The flag clears of a bus transaction (40_bus_engine.md R109): each of its pieces issues none when it answers OK, and
when it answers FAIL its events end with the recovery of R102. -/

namespace Sys2Proof.Machine

/-- The events of a piece with no flag clear if it answered OK, and with the recovery alone at their end if not. -/
def Recovered (ok : Bool) (es : List Event) : Prop :=
  if ok then .clr ∉ es else ∃ fs, .clr ∉ fs ∧ es = fs ++ [.stop, .clr]

theorem Recovered.count {ok : Bool} {es : List Event} (h : Recovered ok es) :
    es.count .clr = if ok then 0 else 1 := by
  cases ok with
  | true => exact List.count_eq_zero.mpr h
  | false =>
    obtain ⟨fs, none, rfl⟩ := h
    rw [List.count_append, List.count_eq_zero.mpr none]
    rfl

/-- Events with no flag clear before those of a piece. -/
theorem Recovered.prepend {ok : Bool} {es fs : List Event} (hs : .clr ∉ es) (h : Recovered ok fs) :
    Recovered ok (es ++ fs) := by
  cases ok with
  | true => exact fun hc => (List.mem_append.mp hc).elim hs h
  | false =>
    obtain ⟨gs, none, rfl⟩ := h
    exact ⟨es ++ gs, fun hc => (List.mem_append.mp hc).elim hs none, (List.append_assoc _ _ _).symm⟩

theorem HostMoved.trace {s t : State} (h : HostMoved s t) : t.trace = s.trace := by
  obtain ⟨l, d, p, st, rfl⟩ := h
  rfl

/-- An action that was not cut short by a reset comes after the host's moves. -/
theorem perform_cases {e : State → Event} {f : State → State} {s t : State} (h : perform e f s = .ok () t) :
    ∃ u, HostMoved s u ∧ t = f (u.emit (e u)) := by
  obtain ⟨a, u, first, rest⟩ := ok_of_andThen h
  cases rest
  exact ⟨u, hostMoved_of_tick first, rfl⟩

section
variable {α β : Type} {ok : α → Bool} {ok' : β → Bool}

/-- Whenever `m` answers `a`, it has issued events that are `Recovered`, `ok a` saying whether `a` is an OK. -/
def Transacts (ok : α → Bool) (m : Ctl α) : Prop :=
  ∀ s a t, m s = .ok a t → ∃ es, t.trace = s.trace ++ es ∧ Recovered (ok a) es

/-- Whenever `m` answers, it has issued no flag clear. -/
def NoClear (m : Ctl α) : Prop := Transacts (fun _ => true) m

theorem noClear_of_trace {m : Ctl α} (h : ∀ s a t, m s = .ok a t → t.trace = s.trace) : NoClear m :=
  fun s a t e => ⟨[], by rw [h s a t e, List.append_nil], List.not_mem_nil⟩

theorem transacts_ret {a : α} (h : ok a = true) : Transacts ok (ret a) := fun s b t e => by
  cases e
  rw [h]
  exact noClear_of_trace (m := ret a) (fun _ _ _ e => by cases e; rfl) s a s rfl

/-- After an OK the second piece goes on, and a FAIL is passed on at once. -/
theorem transacts_andThen {m : Ctl α} {f : α → Ctl β} (hm : Transacts ok m)
    (hf : ∀ a, ok a = true → Transacts ok' (f a))
    (failed : ∀ a, ok a = false → ∃ b, f a = ret b ∧ ok' b = false) : Transacts ok' (andThen m f) := by
  intro s b t h
  obtain ⟨a, u, first, rest⟩ := ok_of_andThen h
  obtain ⟨es, hu, he⟩ := hm s a u first
  cases answer : ok a with
  | true =>
    obtain ⟨fs, ht, hfs⟩ := hf a answer u b t rest
    rw [answer] at he
    exact ⟨es ++ fs, by rw [ht, hu, List.append_assoc], hfs.prepend he⟩
  | false =>
    obtain ⟨b', same, no⟩ := failed a answer
    rw [same] at rest
    cases rest
    exact ⟨es, hu, by rwa [no, ← answer]⟩

/-- A piece after one that issues no flag clear. -/
theorem NoClear.andThen {m : Ctl α} {f : α → Ctl β} (hm : NoClear m) (hf : ∀ a, Transacts ok' (f a)) :
    Transacts ok' (andThen m f) :=
  transacts_andThen hm (fun a _ => hf a) fun _ h => nomatch h

theorem NoClear.before {m : Ctl Unit} {n : Ctl α} (hm : NoClear m) (hn : Transacts ok n) : Transacts ok (before m n) :=
  hm.andThen fun _ => hn

theorem transacts_ite {p : Prop} [Decidable p] {m n : Ctl α} (hm : Transacts ok m) (hn : Transacts ok n) :
    Transacts ok (if p then m else n) := by
  split
  · exact hm
  · exact hn

theorem transacts_ifOk {p q : Ctl Bool} (hp : Transacts id p) (hq : Transacts id q) : Transacts id (ifOk p q) :=
  transacts_andThen hp (fun a h => by cases h; exact hq) fun a h => by cases h; exact ⟨false, rfl, rfl⟩

end

/-! ### Primitives -/

theorem noClear_tick : NoClear tick := noClear_of_trace fun _ _ _ h => (hostMoved_of_tick h).trace

theorem noClear_perform {e : State → Event} {f : State → State} (he : ∀ s, e s ≠ .clr)
    (hf : ∀ s, (f s).trace = s.trace) : NoClear (perform e f) := fun s a t h => by
  obtain ⟨u, moved, rfl⟩ := perform_cases h
  refine ⟨[e u], by rw [hf, emit_trace, moved.trace], fun hc => he u ?_⟩
  exact (List.mem_singleton.mp hc).symm

theorem noClear_genStart : NoClear genStart := noClear_perform (fun _ => nofun) fun _ => rfl
theorem noClear_genStop : NoClear genStop := noClear_perform (fun _ => nofun) fun _ => rfl
theorem noClear_sendAddr (d : Dir) : NoClear (sendAddr d) := noClear_perform (fun _ => nofun) fun _ => rfl
theorem noClear_writeData (b : Byte) : NoClear (writeData b) := noClear_perform (fun _ => nofun) fun _ => rfl
theorem noClear_setAck (on : Bool) : NoClear (setAck on) := noClear_perform (fun _ => nofun) fun _ => rfl

theorem noClear_sample : NoClear sample :=
  noClear_tick.andThen fun _ s x t h => by
    obtain ⟨y, xs, d, hy⟩ := takeSample_fields s
    simp only [hy] at h
    cases h
    exact ⟨[.poll x], rfl, by simp [Recovered]⟩

theorem noClear_readData : NoClear readData :=
  noClear_tick.andThen fun _ s b t h => by
    obtain ⟨v, ys, d, hv⟩ := takeByte_fields s
    simp only [hv] at h
    cases h
    exact ⟨[.rx b], rfl, by simp [Recovered]⟩

theorem noClear_storeDbuf (i : Nat) (v : Byte) : NoClear (storeDbuf i v) :=
  noClear_of_trace fun s _ t h => by
    cases h
    show (s.setDbufByte i v).trace = s.trace
    rw [setDbufByte_eq]

/-- What a read does with its bytes issues nothing. -/
theorem noClear_sink {sink : Nat → Byte → Ctl Unit} (h : sink = noSink ∨ sink = storeDbuf) (i : Nat) (b : Byte) :
    NoClear (sink i b) := by
  rcases h with rfl | rfl
  · exact transacts_ret rfl
  · exact noClear_storeDbuf i b

/-! ### The bus engine -/

theorem noClear_waitLoop (c : Cond) (k : Nat) : NoClear (waitLoop c k) := by
  induction k with
  | zero => exact noClear_sample.andThen fun _ => transacts_ret rfl
  | succ k ih =>
    exact noClear_sample.andThen fun _ => transacts_ite (transacts_ret rfl) (transacts_ite (transacts_ret rfl) ih)

theorem noClear_wait (c : Cond) : NoClear (wait c) := fun s => noClear_waitLoop c _ s

/-- The recovery issues STOP and CLR (40_bus_engine.md R102). -/
theorem transacts_recover : Transacts id (before recover (ret false)) := by
  intro s a t h
  obtain ⟨_, u, hu, rest⟩ := ok_of_andThen h
  obtain ⟨_, v, stop, clear⟩ := ok_of_andThen hu
  cases rest
  obtain ⟨s', moved, rfl⟩ := perform_cases stop
  obtain ⟨v', moved', rfl⟩ := perform_cases clear
  refine ⟨[.stop, .clr], ?_, [], List.not_mem_nil, rfl⟩
  simp only [emit_trace, moved'.trace, id, moved.trace, List.append_assoc, List.cons_append, List.nil_append]

theorem transacts_waitOrRecover (c : Cond) : Transacts id (waitOrRecover c) :=
  (noClear_wait c).andThen fun _ => transacts_ite (transacts_ret rfl) transacts_recover

theorem transacts_startBus (d : Dir) : Transacts id (startBus d) :=
  transacts_ifOk (transacts_waitOrRecover _) <| noClear_genStart.before <|
    transacts_ifOk (transacts_waitOrRecover _) <| (noClear_sendAddr d).before (transacts_waitOrRecover _)

theorem transacts_restartBus : Transacts id restartBus :=
  noClear_genStart.before <| transacts_ifOk (transacts_waitOrRecover _) <|
    (noClear_sendAddr .r).before (transacts_waitOrRecover _)

theorem transacts_sendByte (b : Byte) : Transacts id (sendByte b) :=
  transacts_ifOk (transacts_waitOrRecover _) <| (noClear_writeData b).before (transacts_waitOrRecover _)

theorem transacts_sendBytes (p : List Byte) : Transacts id (sendBytes p) := by
  induction p with
  | nil => exact transacts_ret rfl
  | cons b p ih => exact transacts_ifOk (transacts_sendByte b) ih

theorem transacts_writeBytes (p : List Byte) : Transacts id (writeBytes p) := by
  cases p with
  | nil => exact transacts_ret rfl
  | cons b p =>
    exact transacts_ifOk (transacts_startBus .w) <| transacts_ifOk (transacts_sendBytes _) <|
      noClear_genStop.before (transacts_ret rfl)

theorem transacts_openRead (reg : Byte) : Transacts id (openRead reg) :=
  transacts_ifOk (transacts_startBus .w) <| transacts_ifOk (transacts_sendByte reg) transacts_restartBus

/-- A procedure that answers OK or FAIL, then one with a value: FAIL of the first is FAIL of both. -/
theorem transacts_value {α : Type} {p : Ctl Bool} {m : Ctl (Option α)} (hp : Transacts id p)
    (hm : Transacts Option.isSome m) : Transacts Option.isSome (andThen p fun ok => if ok then m else ret none) :=
  transacts_andThen hp (fun a h => by cases h; exact hm) fun a h => by cases h; exact ⟨none, rfl, rfl⟩

theorem transacts_receiveBytes {sink : Nat → Byte → Ctl Unit} (hs : ∀ i b, NoClear (sink i b)) (n k : Nat) :
    Transacts Option.isSome (receiveBytes sink n k) := by
  induction k with
  | zero => exact transacts_ret rfl
  | succ k ih =>
    have ending : NoClear (endOfRead k) :=
      transacts_ite ((noClear_setAck false).before noClear_genStop) (transacts_ret rfl)
    refine ending.before <| transacts_value (transacts_waitOrRecover _) <| noClear_readData.andThen fun b =>
      (hs _ b).before <| transacts_andThen ih (fun q received => transacts_ret ?_) fun q failed => ⟨none, ?_, rfl⟩
    · rw [Option.isSome_map, received]
    · rw [Option.isSome_eq_false_iff, Option.isNone_iff_eq_none] at failed
      rw [failed, Option.map_none]

/-- A read before its Cleanup (40_bus_engine.md R107). -/
theorem transacts_readBytes {sink : Nat → Byte → Ctl Unit} (hs : sink = noSink ∨ sink = storeDbuf) (reg : Byte)
    (n : Nat) :
    Transacts Option.isSome (andThen (openRead reg) fun ok => if ok then receiveBytes sink n n else ret none) :=
  transacts_value (transacts_openRead reg) (transacts_receiveBytes (noClear_sink hs) n n)

theorem noClear_cleanup (st : Option (List Byte)) : NoClear (cleanup st) :=
  (noClear_setAck true).before <| (noClear_wait .idle).andThen fun _ =>
    noClear_of_trace fun _ _ _ h => by cases h; rfl

/-! ### The outcome of a read after its Cleanup -/

theorem Within.cfg_eq {α κ : Type} {F : FailClass → Prop} {keep : HostRegs → κ} {bytes : Nat} {m : Ctl α}
    {s t : State} {a : α} (hm : Within F keep bytes m) (h : m s = .ok a t) : t.cfg = s.cfg := by
  have k := hm s
  rw [h] at k
  exact k.cfg

/-- Cleanup turns OK into FAIL only when CLEANUP_IDLE_AFFECTS_OUTCOME is true (40_bus_engine.md R108). -/
theorem cleanup_outcome {q r : Option (List Byte)} {s t : State} (h : cleanup q s = .ok r t) :
    r = q ∨ (r = none ∧ s.cfg.cleanupIdleAffectsOutcome = true) := by
  have view : IgnoresStatus noView := fun _ _ => rfl
  obtain ⟨_, u, ack, h⟩ := ok_of_andThen h
  obtain ⟨idle, v, waited, h⟩ := ok_of_andThen h
  have cfg : v.cfg = s.cfg := ((within_wait (F := noClass) (bytes := 0) view .idle).cfg_eq waited).trans
    ((within_setAck (F := noClass) (bytes := 0) view true).cfg_eq ack)
  cases h
  rw [← cfg]
  split
  next fails => exact .inr ⟨rfl, ((Bool.and_eq_true _ _).mp fails).2⟩
  next => exact .inl rfl

theorem within_sink {F : FailClass → Prop} {sink : Nat → Byte → Ctl Unit} (hs : sink = noSink ∨ sink = storeDbuf)
    {i n : Nat} (b : Byte) (h : i < n) : Within F noView n (sink i b) := by
  rcases hs with rfl | rfl
  · exact within_ret _
  · exact within_storeDbuf i b h

/-- A read before its Cleanup stays within the frame of the bytes it stores, and never fails with a class. -/
theorem within_readBytes {sink : Nat → Byte → Ctl Unit} (hs : sink = noSink ∨ sink = storeDbuf) (reg : Byte) (n : Nat) :
    Within noClass noView n (andThen (openRead reg) fun ok => if ok then receiveBytes sink n n else ret none) :=
  have view : IgnoresStatus noView := fun _ _ => rfl
  within_andThen (within_openRead view reg) fun _ =>
    within_ite (within_receiveBytes view (fun _ b h => within_sink hs b h) n (Nat.le_refl n)) (within_ret _)

/-- The flag clears of a whole read: those before its Cleanup, which has none and may only turn OK into FAIL. -/
theorem readRegisters_clears {sink : Nat → Byte → Ctl Unit} (hs : sink = noSink ∨ sink = storeDbuf) {reg : Byte}
    {n : Nat} {s t : State} {q : Option (List Byte)} (h : readRegisters sink reg n s = .ok q t) :
    ∃ es, t.trace = s.trace ++ es ∧ es.count .clr ≤ 1 ∧ (q.isSome = true → es.count .clr = 0) ∧
      (q = none → s.cfg.cleanupIdleAffectsOutcome = false → es.count .clr = 1) := by
  obtain ⟨st, u, read, clean⟩ := ok_of_andThen h
  obtain ⟨es, hu, he⟩ := transacts_readBytes hs reg n s st u read
  obtain ⟨fs, ht, hf⟩ := noClear_cleanup st u q t clean
  have count : (es ++ fs).count .clr = if st.isSome then 0 else 1 := by
    rw [List.count_append, he.count, hf.count]
    rfl
  refine ⟨es ++ fs, by rw [ht, hu, List.append_assoc], ?_⟩
  rw [count]
  rcases cleanup_outcome clean with rfl | ⟨rfl, affects⟩
  · cases q <;> simp
  · rw [(within_readBytes hs reg n).cfg_eq read] at affects
    refine ⟨by split <;> decide, nofun, fun _ no => ?_⟩
    exact absurd affects (by simp [no])

/-- Settles O52: the recovery is the only flag clear, and a FAIL is passed on at once. -/
theorem recoveryOnce : Obligations.RecoveryOnce := by
  refine ⟨fun p s t ok h => ?_, fun sink hs reg n s t q h => ?_, fun sink hs reg n s t q h => readRegisters_clears hs h,
    fun s t q r h => ⟨?_, cleanup_outcome h⟩⟩
  · obtain ⟨es, ht, he⟩ := transacts_writeBytes p s ok t h
    refine ⟨es, ht, he.count, ?_⟩
    rintro rfl
    obtain ⟨fs, -, hf⟩ := he
    exact ⟨fs, hf⟩
  · obtain ⟨es, ht, he⟩ := transacts_readBytes hs reg n s q t h
    exact ⟨es, ht, he.count⟩
  · obtain ⟨es, ht, he⟩ := noClear_cleanup q s r t h
    exact ⟨es, ht, he.count⟩

end Sys2Proof.Machine
end

section
/-! The pseudocode above the bus engine, which uses the bus by whole transactions only (`Routine`). Every command is such
a routine (`exec_routine`), so what each transaction keeps, every command keeps. -/

namespace Sys2Proof.Machine

/-- A piece of pseudocode made of whole transactions (40_bus_engine.md R106, R107), delays, writes of host registers
other than `H_STATUS`, and free values. -/
inductive Routine : {α : Type} → Ctl α → Prop
  | ret {α : Type} (a : α) : Routine (ret a : Ctl α)
  | fail {α : Type} (cls : FailClass) : Routine (fail cls : Ctl α)
  | andThen {α β : Type} {m : Ctl α} {f : α → Ctl β} (hm : Routine m) (hf : ∀ a, Routine (f a)) :
      Routine (andThen m f)
  | write (p : List Byte) : Routine (writeBytes p)
  | read (reg : Byte) : Routine (readRegister reg)
  | readDbuf (reg n : Byte) : Routine (readRegisters storeDbuf reg n.toNat)
  | delayMs (n : Nat) : Routine (delayMs n)
  | delayUs (n : Nat) : Routine (delayUs n)
  | draw {α : Type} (f : Nat → α) : Routine (draw f)
  | writeRegs (off : Nat) {g : HostRegs → HostRegs} (hg : ∀ r, (g r).status = r.status) :
      Routine (writeAt off fun s => { s with regs := g s.regs })
  | leavingRdata {body : Ctl Unit} (hb : Routine body) : Routine (leavingOpen freeRdata body)
  | leavingDbuf (n : Byte) {body : Ctl Unit} (hb : Routine body) : Routine (leavingOpen (freeDbuf n.toNat) body)
  | ofLatch {α : Type} {f : Bool → Ctl α} (hf : ∀ b, Routine (f b)) : Routine fun s => f s.regs.rtReady s

section
variable {α : Type}

theorem routine_before {m : Ctl Unit} {n : Ctl α} (hm : Routine m) (hn : Routine n) : Routine (before m n) :=
  hm.andThen fun _ => hn

theorem routine_ite {p : Prop} [Decidable p] {m n : Ctl α} (hm : Routine m) (hn : Routine n) :
    Routine (if p then m else n) := by
  split
  · exact hm
  · exact hn

theorem routine_ifOk {p q : Ctl Bool} (hp : Routine p) (hq : Routine q) : Routine (ifOk p q) :=
  hp.andThen fun _ => routine_ite hq (.ret _)

theorem routine_require (ok : Bool) (cls : FailClass) : Routine (require ok cls) := routine_ite (.ret _) (.fail _)

theorem routine_must {p : Ctl Bool} (hp : Routine p) : Routine (must p) :=
  hp.andThen fun _ => routine_ite (.ret _) (.fail _)

theorem routine_mustGet {p : Ctl (Option α)} (hp : Routine p) : Routine (mustGet p) :=
  hp.andThen fun v => by
    cases v with
    | none => exact .fail _
    | some v => exact .ret _

theorem routine_writeRegister (reg v : Byte) : Routine (writeRegister reg v) := .write [reg, v]

theorem routine_mustWrite (reg v : Byte) : Routine (must (writeRegister reg v)) :=
  routine_must (routine_writeRegister reg v)

theorem routine_delayMsUnlessZero (n : Nat) : Routine (delayMsUnlessZero n) := routine_ite (.ret _) (.delayMs n)

theorem routine_setRdata (v : Half) : Routine (setRdata v) :=
  .writeRegs (g := fun r => { r with rdata := v }) _ fun _ => rfl

theorem routine_setCdState (v : CdState) : Routine (setCdState v) :=
  .writeRegs (g := fun r => { r with cdState := v }) _ fun _ => rfl

theorem routine_setCdStrength (v : Byte) : Routine (setCdStrength v) :=
  .writeRegs (g := fun r => { r with cdStrength := v.setWidth 7 }) _ fun _ => rfl

theorem routine_setRtReady : Routine setRtReady :=
  .writeRegs (g := fun r => { r with rtReady := true }) _ fun _ => rfl

theorem routine_setAgCursor (v : BitVec 9) : Routine (setAgCursor v) :=
  .writeRegs (g := fun r => { r with agCursor := v }) _ fun _ => rfl

theorem routine_setResult (off : Nat) (f : AcalResult → AcalResult) : Routine (setResult off f) :=
  .writeRegs (g := fun r => { r with res := f r.res }) off fun _ => rfl

/-! ### The commands -/

theorem routine_readToRdata (reg : Byte) : Routine (readToRdata reg) :=
  (routine_mustGet (.read reg)).andThen fun _ => routine_setRdata _

theorem routine_busReadBody (dbufLen : Nat) (reg n : Byte) (dv : Bool) :
    Routine (busReadBody dbufLen reg n.toNat dv) :=
  routine_before (routine_require _ _) <| routine_ite (.ret _) <| routine_before (routine_require _ _) <|
    (routine_mustGet (.readDbuf reg n)).andThen fun _ => .ret _

theorem routine_clearSlots (c : Params) (ks : List Byte) : Routine (clearSlots c ks) := by
  induction ks with
  | nil => exact .ret _
  | cons k ks ih => exact routine_ifOk (routine_writeRegister _ _) ih

theorem routine_sustain (c : Params) (p n : Byte) : Routine (sustain c p n) :=
  routine_ifOk (routine_writeRegister _ _) (routine_writeRegister _ _)

theorem routine_defaultInitBody (c : Params) : Routine (defaultInitBody c) :=
  have write (reg v : Byte) {m : Ctl Unit} (hm : Routine m) := routine_before (routine_mustWrite reg v) hm
  write _ _ <| routine_before (.delayMs _) <| write _ _ <| write _ _ <| write _ _ <|
    routine_before (routine_must (routine_clearSlots c _)) <| write _ _ <|
    routine_before (routine_must (routine_sustain c _ _)) <| write _ _ <| write _ _ (routine_mustWrite _ _)

theorem routine_agStepBody (c : Params) (cursor count : BitVec 9) (frame : Word) (pause : Half) :
    Routine (agStepBody c cursor count frame pause) :=
  have play (v : Byte) (n : Nat) (next : BitVec 9) :
      Routine (before (must (setRtp c v)) <| before (delayMsUnlessZero n) <| setAgCursor next) :=
    routine_before (routine_mustWrite _ _) <| routine_before (routine_delayMsUnlessZero n) <|
      routine_setAgCursor next
  routine_ite (play _ _ _) (play _ _ _)

theorem routine_cdConfigureBody (c : Params) (motor : Motor) (dt strength lib : Byte) :
    Routine (cdConfigureBody c motor dt strength lib) :=
  routine_before (routine_setCdState _) <| routine_before (routine_mustWrite _ _) <|
    routine_before (routine_mustWrite _ _) <| (Routine.read _).andThen fun _ =>
    routine_before (routine_mustWrite _ _) <| routine_before (routine_setCdStrength _) (routine_setCdState _)

theorem routine_cdStartBody (c : Params) (state : CdState) (strength : BitVec 7) :
    Routine (cdStartBody c state strength) :=
  routine_before (routine_require _ _) <| routine_before (routine_mustWrite _ _) <|
    routine_before (routine_mustWrite _ _) <| routine_before (routine_mustWrite _ _) (routine_setCdState _)

theorem routine_cdStopBody (c : Params) (state : CdState) : Routine (cdStopBody c state) :=
  routine_before (routine_mustWrite _ _) <| routine_before (routine_mustWrite _ _) <|
    routine_ite (routine_setCdState _) (.ret _)

/-- `PrepareRealtime()` is nothing or its steps, by the latch. -/
theorem routine_prepareRealtime (c : Params) : Routine (prepareRealtime c) := by
  have steps : Routine (prepareSteps c) :=
    routine_ifOk (routine_writeRegister _ _) <| routine_before (.delayMs _) <|
      routine_ifOk (routine_writeRegister _ _) <| routine_ifOk (routine_writeRegister _ _) <|
      routine_ifOk (routine_writeRegister _ _) <| routine_before routine_setRtReady (.ret _)
  have latched : prepareRealtime c = fun s => (if s.regs.rtReady then ret true else prepareSteps c) s := by
    funext s
    rw [prepareRealtime_eq]
    split <;> rfl
  rw [latched]
  exact .ofLatch (f := fun b => if b then ret true else prepareSteps c) fun _ => routine_ite (.ret _) steps

theorem routine_toneLoop (c : Params) (v : Byte) (h n : Nat) : Routine (toneLoop c v h n) := by
  induction n with
  | zero => exact .ret _
  | succ n ih =>
    exact routine_before (routine_mustWrite _ _) <| routine_before (.delayUs _) <|
      routine_before (routine_mustWrite _ _) <| routine_before (.delayUs _) ih

theorem routine_playBody (c : Params) (f : Nat) (a : Byte) (burst pause : Half) :
    Routine (playBody c f a burst pause) :=
  routine_before (routine_require _ _) <| routine_before (routine_must (routine_prepareRealtime c)) <|
    routine_before (routine_toneLoop c _ _ _) (routine_delayMsUnlessZero _)

theorem routine_stopAbort (c : Params) (cls : FailClass) : Routine (stopAbort c cls : Ctl α) :=
  (routine_writeRegister _ _).andThen fun _ => .fail _

theorem routine_acalSetup (c : Params) (q : AcalRequest) : Routine (acalSetup c q) := by
  have write (reg v : Byte) : Routine (mustOrStop c (writeRegister reg v)) :=
    (routine_writeRegister _ _).andThen fun _ => routine_ite (.ret _) (routine_stopAbort c _)
  have writes (ws : List (Byte × Byte)) : Routine (writesOrStop c ws) := by
    induction ws with
    | nil => exact .ret _
    | cons w ws ih => exact routine_before (write _ _) ih
  rw [acalSetup_eq]
  exact routine_before (write _ _) <| routine_before (.delayMs _) (writes _)

theorem routine_pollLoop (c : Params) (k : Nat) : Routine (pollLoop c k) := by
  have poll : Routine (pollGo c) := (Routine.read _).andThen fun g => by
    cases g with
    | none => exact routine_stopAbort c _
    | some g => exact .ret _
  induction k with
  | zero => exact poll.andThen fun _ => .ret _
  | succ k ih => exact poll.andThen fun _ => routine_ite (.ret _) (routine_before (.delayMs _) ih)

theorem routine_ignoredReads (rs : List Byte) : Routine (ignoredReads rs) := by
  induction rs with
  | nil => exact .ret _
  | cons r rs ih => exact (Routine.read r).andThen fun _ => ih

theorem routine_freeResults : Routine freeResults :=
  (Routine.draw _).andThen fun _ => (Routine.draw _).andThen fun _ => (Routine.draw _).andThen fun _ =>
  (Routine.draw _).andThen fun _ => (Routine.draw _).andThen fun _ => (Routine.draw _).andThen fun _ =>
  (Routine.draw _).andThen fun _ => (Routine.draw _).andThen fun _ => (Routine.draw _).andThen fun _ =>
  routine_before (routine_setResult _ _) (routine_setResult _ _)

theorem routine_resultReads (c : Params) : Routine (before (hardReads c) (bestEffortReads c)) := by
  have hard (reg : Byte) (off : Nat) (put : AcalResult → Byte → AcalResult) : Routine (hardRead reg off put) :=
    (routine_mustGet (.read reg)).andThen fun _ => routine_setResult _ _
  refine routine_before (routine_before (hard _ _ _) <| routine_before (hard _ _ _) <| routine_before (hard _ _ _) <|
    routine_before (hard _ _ _) (hard _ _ _)) ?_
  exact (Routine.read _).andThen fun _ => routine_before (routine_setResult _ _) <|
    (Routine.read _).andThen fun _ => routine_setResult _ _

theorem routine_autocalBody (c : Params) (q : AcalRequest) (rb : Bool) : Routine (autocalBody c q rb) := by
  have entry : Routine (acalEntry rb) :=
    routine_ite (routine_before (routine_setResult _ _) (routine_setResult _ _)) (.ret _)
  have timeout (stopped : Bool) : Routine (afterTimeout c rb stopped) :=
    routine_ite (routine_before (routine_ignoredReads _) <| routine_before routine_freeResults (.fail _)) (.fail _)
  exact routine_before entry <| routine_before (routine_acalSetup c q) <| (routine_pollLoop c _).andThen fun _ =>
    (routine_writeRegister _ _).andThen fun stopped => routine_ite (timeout stopped) <|
    routine_ite (.fail _) (routine_ite (.ret _) (routine_resultReads c))

/-- Every command runs a routine. -/
theorem exec_routine (i : Instr) (s : State) : ∃ body, Routine body ∧ exec i s = command body s := by
  have checked {ok : Bool} {m : Ctl Unit} (hm : Routine m) : Routine (before (require ok .arg) m) :=
    routine_before (routine_require ok .arg) hm
  have rdata (v : Half) : Routine (leavingOpen freeRdata (setRdata v)) := .leavingRdata (routine_setRdata v)
  cases i with
  | busWrite n => exact ⟨_, checked (routine_must (.write _)), rfl⟩
  | busRead reg n dv => exact ⟨_, .leavingDbuf n (routine_busReadBody _ reg n dv), rfl⟩
  | regWrite reg value => exact ⟨_, routine_mustWrite reg value, rfl⟩
  | regRead reg dv => exact ⟨_, .leavingRdata (checked (routine_readToRdata reg)), rfl⟩
  | setWaveform slot effect => exact ⟨_, checked (routine_mustWrite _ effect), rfl⟩
  | getWaveform slot dv => exact ⟨_, .leavingRdata (checked (checked (routine_readToRdata _))), rfl⟩
  | clearSequence => exact ⟨_, routine_must (routine_clearSlots s.cfg _), rfl⟩
  | setSustain pos neg => exact ⟨_, routine_must (routine_sustain s.cfg pos neg), rfl⟩
  | encRated | decRated code | encClamp | decClamp code => exact ⟨_, rdata _, rfl⟩
  | defaultInit => exact ⟨_, routine_defaultInitBody s.cfg, rfl⟩
  | autocal rb => exact ⟨_, routine_autocalBody s.cfg s.regs.req rb, rfl⟩
  | cdConfigure motor dt strength lib => exact ⟨_, routine_cdConfigureBody s.cfg motor dt strength lib, rfl⟩
  | cdStart => exact ⟨_, routine_cdStartBody s.cfg _ _, rfl⟩
  | cdStop => exact ⟨_, routine_cdStopBody s.cfg _, rfl⟩
  | rtPrepare => exact ⟨_, routine_must (routine_prepareRealtime s.cfg), rfl⟩
  | playFreqAmp amp => exact ⟨_, routine_playBody s.cfg _ amp _ _, rfl⟩
  | playFreqVoltage => exact ⟨_, checked (checked (routine_playBody s.cfg _ _ _ _)), rfl⟩
  | agStep => exact ⟨_, routine_agStepBody s.cfg _ _ _ _, rfl⟩

end

/-- A routine stays within the frame that leaves all host registers but `H_STATUS` and 256 bytes of DBUF open. -/
theorem Routine.within {α : Type} {m : Ctl α} (hm : Routine m) : Within (fun _ => True) noView 256 m := by
  have view : IgnoresStatus noView := fun _ _ => rfl
  have small (n : Byte) : n.toNat ≤ 256 := n.isLt.le
  induction hm with
  | ret a => exact within_ret a
  | fail cls => exact within_fail trivial
  | andThen _ _ ihm ihf => exact within_andThen ihm ihf
  | write p => exact within_writeBytes view p
  | read reg => exact within_readRegister view reg
  | readDbuf reg n =>
    exact within_readRegisters view (fun i b h => within_storeDbuf i b (Nat.lt_of_lt_of_le h (small n))) reg
  | delayMs n => exact within_delayMs view n
  | delayUs n => exact within_delayUs view n
  | draw f => exact within_draw f
  | writeRegs off hg => exact within_writeRegs off (fun _ => rfl) hg
  | leavingRdata _ ih => exact within_leavingOpen (within_freeRdata fun _ _ => rfl) ih
  | leavingDbuf n _ ih => exact within_leavingOpen (within_freeDbuf n.toNat (small n)) ih
  | ofLatch _ ih => exact fun s => ih s.regs.rtReady s

end Sys2Proof.Machine
end

section
/-! The acknowledge (10_state.md R38): a read turns it off for its last byte, its Cleanup turns it on again, and nothing
else touches it. -/

namespace Sys2Proof.Machine

/-! ### Pieces that leave the acknowledge alone -/

section
variable {α β : Type}

/-- However `m` ends, the acknowledge is as before. -/
def SameAck (m : Ctl α) : Prop := ∀ s, (m s).state.ackEnable = s.ackEnable

theorem sameAck_ret (a : α) : SameAck (ret a) := fun _ => rfl

theorem sameAck_andThen {m : Ctl α} {f : α → Ctl β} (hm : SameAck m) (hf : ∀ a, SameAck (f a)) :
    SameAck (andThen m f) := by
  intro s
  have k := hm s
  unfold andThen
  cases e : m s with
  | ok a t =>
    rw [e] at k
    exact (hf a t).trans k
  | stop w t =>
    rw [e] at k
    exact k

theorem sameAck_before {m : Ctl Unit} {n : Ctl α} (hm : SameAck m) (hn : SameAck n) : SameAck (before m n) :=
  sameAck_andThen hm fun _ => hn

theorem sameAck_ite {p : Prop} [Decidable p] {m n : Ctl α} (hm : SameAck m) (hn : SameAck n) :
    SameAck (if p then m else n) := by
  split
  · exact hm
  · exact hn

theorem sameAck_ifOk {p q : Ctl Bool} (hp : SameAck p) (hq : SameAck q) : SameAck (ifOk p q) :=
  sameAck_andThen hp fun _ => sameAck_ite hq (sameAck_ret _)

/-- Neither the host's moves nor a reset reach the peripheral (70_reset_and_hazards.md R250). -/
theorem sameAck_tick : SameAck tick := by
  intro s
  have k := hostTurn_frame s.host s
  unfold tick
  revert k
  cases hostTurn s.host s with
  | ok a t =>
    rintro ⟨l, d, st, p, rfl, -⟩
    rfl
  | stop w t =>
    cases w with
    | fail c => exact False.elim
    | reset =>
      rintro ⟨-, l, d, st, p, rfl, -⟩
      rfl

theorem sameAck_perform (e : State → Event) {f : State → State} (hf : ∀ s, (f s).ackEnable = s.ackEnable) :
    SameAck (perform e f) :=
  sameAck_before sameAck_tick fun _ => hf _

theorem sameAck_sample : SameAck sample :=
  sameAck_before sameAck_tick fun s => by
    obtain ⟨x, xs, d, hx⟩ := takeSample_fields s
    simp only [hx]
    rfl

theorem sameAck_waitLoop (c : Cond) (k : Nat) : SameAck (waitLoop c k) := by
  induction k with
  | zero => exact sameAck_andThen sameAck_sample fun _ => sameAck_ret _
  | succ k ih =>
    exact sameAck_andThen sameAck_sample fun _ => sameAck_ite (sameAck_ret _) (sameAck_ite (sameAck_ret _) ih)

theorem sameAck_wait (c : Cond) : SameAck (wait c) := fun s => sameAck_waitLoop c _ s

theorem sameAck_waitOrRecover (c : Cond) : SameAck (waitOrRecover c) :=
  sameAck_andThen (sameAck_wait c) fun _ => sameAck_ite (sameAck_ret _) <| sameAck_before
    (sameAck_before (sameAck_perform _ fun _ => rfl) (sameAck_perform _ fun _ => rfl)) (sameAck_ret _)

theorem sameAck_startBus (d : Dir) : SameAck (startBus d) :=
  sameAck_ifOk (sameAck_waitOrRecover _) <| sameAck_before (sameAck_perform _ fun _ => rfl) <|
    sameAck_ifOk (sameAck_waitOrRecover _) <| sameAck_before (sameAck_perform _ fun _ => rfl) <|
    sameAck_waitOrRecover _

theorem sameAck_sendBytes (p : List Byte) : SameAck (sendBytes p) := by
  induction p with
  | nil => exact sameAck_ret _
  | cons b p ih =>
    have send : SameAck (sendByte b) := sameAck_ifOk (sameAck_waitOrRecover _) <|
      sameAck_before (sameAck_perform _ fun _ => rfl) (sameAck_waitOrRecover _)
    exact sameAck_ifOk send ih

/-- A bus write never touches the acknowledge (40_bus_engine.md R106). -/
theorem sameAck_writeBytes (p : List Byte) : SameAck (writeBytes p) := by
  cases p with
  | nil => exact sameAck_ret _
  | cons b p =>
    exact sameAck_ifOk (sameAck_startBus _) <| sameAck_ifOk (sameAck_sendBytes _) <|
      sameAck_before (sameAck_perform _ fun _ => rfl) (sameAck_ret _)

theorem sameAck_freeRdata : SameAck freeRdata := fun _ => rfl

theorem sameAck_storeDbuf (i : Nat) (v : Byte) : SameAck (storeDbuf i v) := fun s => by
  show (s.setDbufByte i v).ackEnable = s.ackEnable
  rw [setDbufByte_eq]

theorem sameAck_freeDbuf (n : Nat) : SameAck (freeDbuf n) := by
  induction n with
  | zero => exact sameAck_ret _
  | succ n ih => exact sameAck_before ih <| sameAck_andThen (fun _ => rfl) fun _ => sameAck_storeDbuf n _

/-! ### The acknowledge through a routine -/

/-- The acknowledge is enabled. -/
def AckOn (s : State) : Prop := s.ackEnable = true

/-- From a state with the acknowledge enabled, `m` leaves it enabled, unless a reset ends it. -/
def KeepsAckOn (m : Ctl α) : Prop := Leaves AckOn m (fun _ => AckOn) AckOn

theorem SameAck.keepsAckOn {m : Ctl α} (h : SameAck m) : KeepsAckOn m where
  ok {s a t} hs e := by
    have k := h s
    rw [e] at k
    exact k.trans hs
  fail {s c t} hs e := by
    have k := h s
    rw [e] at k
    exact k.trans hs

/-- Cleanup enables the acknowledge, and its idle wait leaves it so (40_bus_engine.md R108). -/
theorem cleanup_ackOn {q r : Option (List Byte)} {s t : State} (h : cleanup q s = .ok r t) : AckOn t := by
  obtain ⟨_, u, ack, h⟩ := ok_of_andThen h
  obtain ⟨idle, v, waited, h⟩ := ok_of_andThen h
  cases h
  refine (sameAck_wait .idle).keepsAckOn.ok ?_ waited
  obtain ⟨w, -, rfl⟩ := perform_cases ack
  rfl

/-- However the acknowledge was before a read, it is enabled when the read returns. -/
theorem readRegisters_ackOn {sink : Nat → Byte → Ctl Unit} {reg : Byte} {n : Nat} {s t : State}
    {q : Option (List Byte)} (h : readRegisters sink reg n s = .ok q t) : AckOn t := by
  obtain ⟨st, u, -, clean⟩ := ok_of_andThen h
  exact cleanup_ackOn clean

/-- A read answers OK or FAIL but does not fail with a class, so it keeps the acknowledge enabled. -/
theorem keepsAckOn_readRegisters {sink : Nat → Byte → Ctl Unit} (hs : sink = noSink ∨ sink = storeDbuf) (reg : Byte)
    (n : Nat) : KeepsAckOn (readRegisters sink reg n) where
  ok _ e := readRegisters_ackOn e
  fail {s c t} _ e := by
    have k := within_readRegisters (F := noClass) (keep := noView) (fun _ _ => rfl)
      (fun _ b h => within_sink hs b h) reg (n := n) s
    rw [e] at k
    exact k.1.elim

theorem leavingOpen_of_reset {o body : Ctl Unit} {s t : State} (h : body s = .stop .reset t) :
    leavingOpen o body s = .stop .reset t := by
  simp only [leavingOpen, h]

/-- What is left open after a failure does not concern the acknowledge. -/
theorem keepsAckOn_leavingOpen {o body : Ctl Unit} (ho : SameAck o) (hb : KeepsAckOn body) :
    KeepsAckOn (leavingOpen o body) where
  ok {s a t} hs e := by
    cases h : body s with
    | ok b u =>
      cases (leavingOpen_of_ok h).symm.trans e
      exact hb.ok hs h
    | stop w u =>
      cases w with
      | fail c =>
        obtain ⟨_, _, _, failed⟩ := ok_of_andThen ((leavingOpen_of_fail h).symm.trans e)
        exact nomatch failed
      | reset => exact nomatch (leavingOpen_of_reset h).symm.trans e
  fail {s c t} hs e := by
    cases h : body s with
    | ok b u => exact nomatch (leavingOpen_of_ok h).symm.trans e
    | stop w u =>
      cases w with
      | fail d =>
        have loosen : KeepsAckOn (before o (fail d : Ctl Unit)) :=
          leaves_before ho.keepsAckOn (leaves_fail fun _ h => h)
        exact loosen.fail (hb.fail hs h) ((leavingOpen_of_fail h).symm.trans e)
      | reset => exact nomatch (leavingOpen_of_reset h).symm.trans e

/-- A routine keeps the acknowledge enabled: only its reads turn it off, and each enables it again. -/
theorem Routine.keepsAckOn {m : Ctl α} (hm : Routine m) : KeepsAckOn m := by
  induction hm with
  | ret a => exact leaves_ret fun _ h => h
  | fail cls => exact leaves_fail fun _ h => h
  | andThen _ _ ihm ihf => exact leaves_andThen ihm ihf
  | write p => exact (sameAck_writeBytes p).keepsAckOn
  | read reg => exact leaves_andThen (keepsAckOn_readRegisters (.inl rfl) reg 1) fun _ => leaves_ret fun _ h => h
  | readDbuf reg n => exact keepsAckOn_readRegisters (.inr rfl) reg n.toNat
  | delayMs n => exact (sameAck_perform _ fun _ => rfl).keepsAckOn
  | delayUs n => exact (sameAck_perform _ fun _ => rfl).keepsAckOn
  | draw f => exact SameAck.keepsAckOn fun _ => rfl
  | writeRegs off hg => exact leaves_writeAt fun _ h => h
  | leavingRdata _ ih => exact keepsAckOn_leavingOpen sameAck_freeRdata ih
  | leavingDbuf n _ ih => exact keepsAckOn_leavingOpen (sameAck_freeDbuf n.toNat) ih
  | ofLatch _ ih => exact ⟨fun {s} => (ih s.regs.rtReady).ok, fun {s} => (ih s.regs.rtReady).fail⟩

end

theorem HostMoved.ackOn {s t : State} (h : HostMoved s t) (k : AckOn s) : AckOn t := by
  obtain ⟨l, d, p, st, rfl⟩ := h
  exact k

/-- Settles O53: Cleanup ends a read, and a command is a routine, which no reset ends here. -/
theorem acknowledgeStaysEnabled : Obligations.AcknowledgeStaysEnabled := by
  refine ⟨fun sink _ reg n s t q h => readRegisters_ackOn h, fun i s t hs on h => ?_⟩
  obtain ⟨body, hb, he⟩ := exec_routine i s
  obtain ⟨u, v, moved, ⟨e, rfl⟩ | ⟨c, e, rfl⟩⟩ := command_completes hb.within hs (he.symm.trans h)
  · exact moved.ackOn (hb.keepsAckOn.ok on e)
  · exact moved.ackOn (hb.keepsAckOn.fail on e)

end Sys2Proof.Machine
end

section
/-! REG_WRITE, REG_READ and GET_WAVEFORM on a bus that satisfies every wait at once (41_register_layer.md R132, R133,
42_device_control.md R142). -/

namespace Sys2Proof.Machine

variable {c : Params}

/-- Settles O22: the command is one register write that must succeed. -/
theorem regWriteCompletes : Obligations.RegWriteCompletes := by
  intro s xs ys reg v answers
  exact command_of_runs (runs_must (runs_writeRegister reg v)) rfl answers

/-- The common part of the getters: one register read, then one write of `H_RDATA`, which makes no event. -/
theorem runs_readToRdata (reg v : Byte) :
    Runs c (readToRdata reg) 9 [v] (rdEvents c reg v) true (fun x => { x with rdata := v.setWidth 16 }) () :=
  (runs_andThen (f := fun v => setRdata (v.setWidth 16)) (runs_mustGet (runs_readRegister reg v))
    (runs_setRdata _)).cast rfl rfl (List.append_nil _) rfl rfl

theorem slotInRange_of_le {slot : Byte} (le : slot.toNat ≤ 7) : slotInRange slot = true :=
  decide_eq_true (Nat.lt_succ_of_le le)

/-- Settles O23: after its checks a getter reads its register into `H_RDATA`; GET_WAVEFORM's register is the slot's. -/
theorem gettersComplete : Obligations.GettersComplete := by
  intro s xs ys a v answers
  constructor
  · exact getterCommand_of_runs (runs_checked rfl (runs_readToRdata a v)) rfl answers
  · intro slot
    have checked := runs_checked (c := s.cfg) (cls := .arg) (slotInRange_of_le slot) (runs_readToRdata (slotReg s.cfg a) v)
    exact getterCommand_of_runs (runs_checked rfl checked) rfl answers

end Sys2Proof.Machine
end

section
/-! SET_WAVEFORM, CLEAR_SEQUENCE and SET_SUSTAIN (42_device_control.md R141, R143, R144): to their end on a bus that
satisfies every wait at once, and to the first register write that fails. -/

namespace Sys2Proof.Machine

variable {α : Type} {c : Params}

/-! ### Completion -/

/-- Settles O24: after its check the command is one write of the slot's register that must succeed. -/
theorem setWaveformCompletes : Obligations.SetWaveformCompletes := by
  intro s xs ys slot effect inRange answers
  have write := runs_must (runs_writeRegister (c := s.cfg) (slotReg s.cfg slot) effect)
  exact command_of_runs (runs_checked (slotInRange_of_le inRange) write) rfl answers

/-- Settles O25: the command is the loop over slots 1 to 7, which must succeed. -/
theorem clearSequenceCompletes : Obligations.ClearSequenceCompletes := by
  intro s xs ys answers
  exact command_of_runs (runs_must (runs_clearSlots [1, 2, 3, 4, 5, 6, 7])) rfl answers

theorem runs_sustain (pos neg : Byte) :
    Runs c (sustain c pos neg) 14 [] (wrAll c [(c.regSpt, pos), (c.regSnt, neg)]) false id true :=
  (runs_ifOk (runs_writeRegister _ pos) (runs_writeRegister _ neg)).cast rfl rfl (by simp [wrAll]) rfl rfl

/-! ### The first failing write -/

theorem ifOk_of_true {p q : Ctl Bool} {s t : State} (ok : p s = .ok true t) : ifOk p q s = q t :=
  andThen_of_ok ok

theorem ifOk_of_false {p q : Ctl Bool} {s t : State} (failed : p s = .ok false t) : ifOk p q s = .ok false t :=
  andThen_of_ok failed

/-- A command that is one procedure which must succeed ends with BUS where the procedure failed. -/
theorem command_must_of_false {p : Ctl Bool} (silent : Silent p) {s t : State} (quiet : s.host = [])
    (failed : p s = .ok false t) : command (must p) s = .next (t.completedWith .bus) :=
  command_of_fail (must_of_ok failed) (silent.quiet quiet failed).1

/-- A silent piece that makes no read: the state after it, all of it. -/
theorem sent_of_runs {m : Ctl α} {n : Nat} {es : List Event} {a : α} {s : State} {xs : List Snapshot} {ys : List Byte}
    (runs : Runs s.cfg m n [] es false id a) (silent : Silent m) (answers : s.Answers n [] xs ys) :
    m s = .ok a (s.sent es xs) := by
  have bytes : s.rxBytes = ys := answers.bytes
  rw [polled_of_runs runs silent rfl answers, ← bytes]
  simp only [State.polled, State.sent, Bool.or_false]

theorem silent_writeRegister (reg v : Byte) : Silent (writeRegister reg v) := silent_writeBytes [reg, v]

theorem silent_clearSlots (ks : List Byte) : Silent (clearSlots c ks) := by
  induction ks with
  | nil => exact silent_ret true
  | cons k ks ih => exact silent_ifOk (silent_writeRegister _ _) ih

theorem silent_sustain (pos neg : Byte) : Silent (sustain c pos neg) :=
  silent_ifOk (silent_writeRegister _ pos) (silent_writeRegister _ neg)

theorem ifOk_assoc (p q r : Ctl Bool) : ifOk p (ifOk q r) = ifOk (ifOk p q) r := by
  funext s
  simp only [ifOk, andThen]
  cases p s with
  | stop w t => rfl
  | ok done t => cases done <;> rfl

/-- The loop over slots in two parts: the second runs if the first answered OK. -/
theorem clearSlots_append (ks ls : List Byte) :
    clearSlots c (ks ++ ls) = ifOk (clearSlots c ks) (clearSlots c ls) := by
  induction ks with
  | nil => rfl
  | cons k ks ih => rw [List.cons_append, clearSlots, ih, ifOk_assoc, ← clearSlots]

/-- The loop over slots, with the writes of `ks` made and that of the next slot failing: it ends there. -/
theorem clearSlots_of_fail {ks ls : List Byte} {k : Byte} {s t : State} {xs : List Snapshot} {ys : List Byte}
    (answers : s.Answers (7 * ks.length) [] xs ys)
    (failed : writeRegister (s.cfg.waveseqBase + k) 0
      (s.sent (wrAll s.cfg (ks.map fun k => (s.cfg.waveseqBase + k, 0))) xs) = .ok false t) :
    clearSlots s.cfg (ks ++ k :: ls) s = .ok false t := by
  have written := sent_of_runs (runs_clearSlots ks) (silent_clearSlots ks) answers
  rw [clearSlots_append, ifOk_of_true written, clearSlots]
  exact ifOk_of_false failed

/-- The slots of CLEAR_SEQUENCE, split at slot `k + 1`. -/
theorem slots_split {k : Nat} (lt : k < 7) : ∃ ls : List Byte, [1, 2, 3, 4, 5, 6, 7] =
    (List.range k).map (fun j => BitVec.ofNat 8 (j + 1)) ++ BitVec.ofNat 8 (k + 1) :: ls := by
  refine ⟨([1, 2, 3, 4, 5, 6, 7] : List Byte).drop (k + 1), ?_⟩
  revert k
  decide

/-- Settles O26: the loop over the slots before the failing one succeeds; the failing write ends it and the command. -/
theorem clearSequenceAborts : Obligations.ClearSequenceAborts := by
  intro s t xs ys k lt answers failed
  obtain ⟨ls, slots⟩ := slots_split lt
  refine command_must_of_false (silent_clearSlots _) answers.quiet ?_
  rw [slots]
  refine clearSlots_of_fail (by simpa using answers) ?_
  rw [List.map_map]
  exact failed

/-- Settles O27: two writes, the second only after the first answered OK. -/
theorem setSustainCompletes : Obligations.SetSustainCompletes := by
  intro s pos neg
  refine ⟨fun xs ys answers => ?_, fun t quiet failed => ?_, fun xs ys t answers failed => ?_⟩
  · exact command_of_runs (runs_must (runs_sustain pos neg)) rfl answers
  · exact command_must_of_false (silent_sustain pos neg) quiet (ifOk_of_false failed)
  · have first := writeRegister_ready s.cfg.regSpt pos answers
    exact command_must_of_false (silent_sustain pos neg) answers.quiet ((ifOk_of_true first).trans failed)

end Sys2Proof.Machine
end

section
/-! The voltage codec (43_codec.md): its formulas and ranges, the error of a round trip, and its four commands. -/

namespace Sys2Proof.Machine

/-! ### The formulas for any step -/

theorem encodeMv_toNat (step : Nat) (mv : Half) :
    (encodeMv step mv).toNat = min 255 ((mv.toNat * 1000 + step / 2) / step) := by
  have inByte : min 255 ((mv.toNat * 1000 + step / 2) / step) < 2 ^ 8 := Nat.lt_succ_of_le (Nat.min_le_left _ _)
  rw [encodeMv, BitVec.toNat_ofNat, Nat.mod_eq_of_lt inByte]

theorem encodeMv_eq_iff {step k : Nat} (inByte : k < 256) (mv : Half) :
    encodeMv step mv = BitVec.ofNat 8 k ↔ min 255 ((mv.toNat * 1000 + step / 2) / step) = k := by
  rw [← BitVec.toNat_inj, encodeMv_toNat, BitVec.toNat_ofNat, Nat.mod_eq_of_lt inByte]

/-- A step for which the largest code still decodes to 16 bits. -/
theorem decodeMv_toNat {step : Nat} (fits : (255 * step + 500) / 1000 < 65536) (code : Byte) :
    (decodeMv step code).toNat = (code.toNat * step + 500) / 1000 := by
  have largest : code.toNat * step ≤ 255 * step := Nat.mul_le_mul_right step (Nat.le_of_lt_succ code.isLt)
  rw [decodeMv, BitVec.toNat_ofNat, Nat.mod_eq_of_lt (by omega)]

/-- Where the code is not clamped a round trip is off by at most half a step and the half millivolt of the decoder's
rounding: the code's multiple of the step is that close to the voltage in microvolts. -/
theorem decodeMv_encodeMv_near {step : Nat} (pos : 0 < step) (fits : (255 * step + 500) / 1000 < 65536) {mv : Half}
    (unclamped : (mv.toNat * 1000 + step / 2) / step ≤ 255) :
    (decodeMv step (encodeMv step mv)).toNat ≤ mv.toNat + (step / 2 + 500) / 1000 ∧
      mv.toNat ≤ (decodeMv step (encodeMv step mv)).toNat + (step / 2 + 500) / 1000 := by
  rw [decodeMv_toNat fits, encodeMv_toNat, Nat.min_eq_right unclamped]
  have below := Nat.div_mul_le_self (mv.toNat * 1000 + step / 2) step
  have above := Nat.lt_div_mul_add (a := mv.toNat * 1000 + step / 2) pos
  omega

/-! ### The formulas of the two steps -/

theorem encRatedCode_toNat (mv : Half) :
    (encRatedCode mv).toNat = min 255 ((mv.toNat * 1000 + 10665) / 21330) := encodeMv_toNat ratedStepUv mv

theorem encClampCode_toNat (mv : Half) :
    (encClampCode mv).toNat = min 255 ((mv.toNat * 1000 + 2800) / 5600) := encodeMv_toNat clampStepUv mv

theorem encRatedCode_eq_iff {k : Nat} (inByte : k < 256) (mv : Half) :
    encRatedCode mv = BitVec.ofNat 8 k ↔ min 255 ((mv.toNat * 1000 + 10665) / 21330) = k :=
  encodeMv_eq_iff (step := ratedStepUv) inByte mv

theorem encClampCode_eq_iff {k : Nat} (inByte : k < 256) (mv : Half) :
    encClampCode mv = BitVec.ofNat 8 k ↔ min 255 ((mv.toNat * 1000 + 2800) / 5600) = k :=
  encodeMv_eq_iff (step := clampStepUv) inByte mv

theorem decRatedMv_toNat (code : Byte) : (decRatedMv code).toNat = (code.toNat * 21330 + 500) / 1000 :=
  decodeMv_toNat (step := ratedStepUv) (by decide) code

theorem decClampMv_toNat (code : Byte) : (decClampMv code).toNat = (code.toNat * 5600 + 500) / 1000 :=
  decodeMv_toNat (step := clampStepUv) (by decide) code

/-- Settles O56: the encoders' corner cases are values of their quotients, the decoders' ranges their values at 255. -/
theorem codecArithmetic : Obligations.CodecArithmetic := by
  refine ⟨fun mv => ⟨encRatedCode_toNat mv, fun low => ?_, fun one => ?_, fun high => ?_, by omega⟩,
    fun mv => ⟨encClampCode_toNat mv, fun low => ?_, fun one => ?_, fun high => ?_, by omega⟩, fun code => ?_⟩
  · exact (encRatedCode_eq_iff (k := 0) (by decide) mv).mpr (by omega)
  · exact (encRatedCode_eq_iff (k := 1) (by decide) mv).mpr (by omega)
  · exact (encRatedCode_eq_iff (k := 255) (by decide) mv).mpr (by omega)
  · exact (encClampCode_eq_iff (k := 0) (by decide) mv).mpr (by omega)
  · exact (encClampCode_eq_iff (k := 1) (by decide) mv).mpr (by omega)
  · exact (encClampCode_eq_iff (k := 255) (by decide) mv).mpr (by omega)
  · have inByte := code.isLt
    rw [decRatedMv_toNat, decClampMv_toNat]
    omega

/-- Settles O57: up to 5449 mV and 1430 mV the quotients are at most 255, and there the tolerances of the two steps
are 11 mV and 3 mV. -/
theorem codecRoundTrip : Obligations.CodecRoundTrip := by
  refine fun mv => ⟨fun rated => ?_, fun clamp => ?_⟩
  · have unclamped : (mv.toNat * 1000 + 10665) / 21330 ≤ 255 := by omega
    exact decodeMv_encodeMv_near (step := ratedStepUv) (by decide) (by decide) unclamped
  · have unclamped : (mv.toNat * 1000 + 2800) / 5600 ≤ 255 := by omega
    exact decodeMv_encodeMv_near (step := clampStepUv) (by decide) (by decide) unclamped

/-! ### The commands -/

theorem arg0Mv_toNat (r : HostRegs) : (arg0Mv r).toNat = r.arg0.toNat % 65536 := by
  rw [arg0Mv, BitVec.extractLsb'_toNat, Nat.shiftRight_zero]

theorem settled_of_no_events (s : State) (r : HostRegs) :
    s.settled r [] s.samples s.rxBytes false = { s with regs := r, written := [] } := by
  simp only [State.settled, List.append_nil, Bool.or_false]

/-- A getter that only writes `H_RDATA` needs nothing of the environment but a host with no move due. -/
theorem getterCommand_setRdata (v : Half) {s : State} (quiet : s.host = []) :
    getterCommand (setRdata v) s = .next (State.completedReady { s with regs := { s.regs with rdata := v } }) := by
  rw [getterCommand_of_runs (runs_setRdata v) rfl ⟨quiet, rfl, rfl⟩, settled_of_no_events]
  rfl

theorem getterCommand_encodeMv (step : Nat) {s : State} (quiet : s.host = []) :
    getterCommand (setRdata ((encodeMv step (arg0Mv s.regs)).setWidth 16)) s =
      .next (State.completedReady { s with regs := { s.regs with
        rdata := BitVec.ofNat 16 (min 255 ((s.regs.arg0.toNat % 65536 * 1000 + step / 2) / step)) } }) := by
  rw [getterCommand_setRdata _ quiet, ← BitVec.ofNat_toNat, encodeMv_toNat, arg0Mv_toNat]

/-- Settles O28: each command only writes `H_RDATA`, with the value of its formula. -/
theorem codecCommandsComplete : Obligations.CodecCommandsComplete := fun _ _ quiet =>
  ⟨getterCommand_encodeMv ratedStepUv quiet, getterCommand_encodeMv clampStepUv quiet,
    getterCommand_setRdata _ quiet, getterCommand_setRdata _ quiet⟩

end Sys2Proof.Machine
end

section
/-! The arithmetic of the tones and of the voltage's amplitude (44_timed_routines.md R185, R187). -/

namespace Sys2Proof.Machine

theorem halfUs_of_lt {f : Nat} (fast : 1000000 < f) : halfUs f = 1 := by
  rw [halfUs, toneNumUs, Nat.div_eq_of_lt fast]
  rfl

theorem two_mul_halfUs_le (f : Nat) : 2 * halfUs f ≤ 2000000 := by
  have quotient : 1000000 / f ≤ 1000000 := Nat.div_le_self _ _
  simp only [halfUs, halfPeriodMinUs, toneNumUs]
  omega

theorem toneCycles_zero (h : Nat) : toneCycles 0 h = 1 := by
  simp [toneCycles, cyclesMin]

/-- Settles O58: the formulas are the definitions, and their bounds those of the quotient and of 16 bits. -/
theorem toneArithmetic : Obligations.ToneArithmetic := by
  intro f _ _
  refine ⟨rfl, halfUs_of_lt, two_mul_halfUs_le f, fun bms h _ => ⟨rfl, ?_, ?_⟩⟩
  · rintro rfl
    exact toneCycles_zero h
  · have half := bms.isLt
    omega

/-- `VoltToAmp` before it is a byte (44_timed_routines.md R187): 1 to 127. -/
theorem voltQuotient_range {mv mx : Nat} (pos : 1 ≤ mx) :
    1 ≤ max 1 ((min mv mx * 127 + mx / 2) / mx) ∧ max 1 ((min mv mx * 127 + mx / 2) / mx) ≤ 127 := by
  have quotient : (min mv mx * 127 + mx / 2) / mx < 128 := Nat.div_lt_of_lt_mul (by omega)
  omega

theorem voltToAmp_toNat {mv mx : Half} (pos : 1 ≤ mx.toNat) :
    (voltToAmp mv mx).toNat = max 1 ((min mv.toNat mx.toNat * 127 + mx.toNat / 2) / mx.toNat) := by
  have range := voltQuotient_range (mv := mv.toNat) pos
  rw [voltToAmp, ampMinFromVoltage, BitVec.toNat_ofNat, Nat.mod_eq_of_lt (by omega)]

/-- Settles O59: the quotient is below 128, so it fits the byte. -/
theorem voltageToAmplitude : Obligations.VoltageToAmplitude := by
  intro mv mx _ pos
  rw [voltToAmp_toNat pos]
  exact ⟨rfl, voltQuotient_range pos⟩

end Sys2Proof.Machine
end

section
/-! DEFAULT_INIT, continuous drive and AG_STEP on a bus that satisfies every wait at once (44_timed_routines.md R172,
R180 to R182, R189). -/

namespace Sys2Proof.Machine

variable {c : Params}

theorem runs_mustWrite (reg v : Byte) : Runs c (must (writeRegister reg v)) 7 [] (wrEvents c reg v) false id () :=
  runs_must (runs_writeRegister reg v)

/-! ### DEFAULT_INIT -/

theorem runs_defaultInitBody : Runs c (defaultInitBody c) 119 [] (defaultInitEvents c) false id () :=
  (runs_before (runs_mustWrite _ _) <| runs_before (runs_delayMs _) <| runs_before (runs_mustWrite _ _) <|
    runs_before (runs_mustWrite _ _) <| runs_before (runs_mustWrite _ _) <|
    runs_before (runs_must (runs_clearSlots [1, 2, 3, 4, 5, 6, 7])) <| runs_before (runs_mustWrite _ _) <|
    runs_before (runs_must (runs_sustain _ _)) <| runs_before (runs_mustWrite _ _) <|
    runs_before (runs_mustWrite _ _) (runs_mustWrite _ _)).cast rfl rfl
      (by simp [defaultInitEvents, wrAll, feedbackPattern, slotReg]) rfl rfl

/-- Settles O29: the writes and the delay in the order of the rule, CLEAR_SEQUENCE's and SET_SUSTAIN's among them. -/
theorem defaultInitCompletes : Obligations.DefaultInitCompletes := fun _ _ _ answers =>
  command_of_runs runs_defaultInitBody rfl answers

/-! ### AG_STEP -/

/-- A realtime write, a hold or pause, and the new cursor: AG_STEP on either side of the count. -/
theorem runs_agPlay (v : Byte) (n : Nat) (next : BitVec 9) :
    Runs c (before (must (setRtp c v)) <| before (delayMsUnlessZero n) <| setAgCursor next) 7 []
      (wrEvents c c.regRtp v ++ pauseEvents n) false (fun x => { x with agCursor := next }) () :=
  (runs_before (runs_mustWrite _ v) <| runs_before (runs_delayMsUnlessZero n) (runs_setAgCursor next)).cast rfl rfl
    (by rw [List.append_nil]) rfl rfl

theorem clamp7_frameAmp (w : Word) : clamp7 (frameAmp w) = BitVec.ofNat 8 (min (w.toNat % 256) 0x7F) := by
  simp [clamp7, frameAmp, ampMax]

theorem frameHold_toNat (w : Word) : (frameHold w).toNat = w.toNat / 256 % 65536 := by
  simp [frameHold, Nat.shiftRight_eq_div_pow]

theorem runs_agStepBody_of_lt {cursor count : BitVec 9} (below : cursor < count) (w : Word) (pause : Half) :
    Runs c (agStepBody c cursor count w pause) 7 []
      (wrEvents c c.regRtp (BitVec.ofNat 8 (min (w.toNat % 256) 0x7F)) ++ pauseEvents (w.toNat / 256 % 65536)) false
      (fun x => { x with agCursor := cursor + 1 }) () := by
  rw [agStepBody, if_pos below, ← clamp7_frameAmp, ← frameHold_toNat]
  exact runs_agPlay _ _ _

theorem runs_agStepBody_of_not_lt {cursor count : BitVec 9} (above : ¬cursor < count) (w : Word) (pause : Half) :
    Runs c (agStepBody c cursor count w pause) 7 [] (wrEvents c c.regRtp 0 ++ pauseEvents pause.toNat) false
      (fun x => { x with agCursor := 0 }) () := by
  rw [agStepBody, if_neg above]
  exact runs_agPlay _ _ _

/-- Settles O37: below the count the write and the hold are the frame's, elsewhere zero and the group's pause. -/
theorem agStepCompletes : Obligations.AgStepCompletes := by
  intro s xs ys answers
  refine ⟨?_, fun above => command_of_runs (runs_agStepBody_of_not_lt above _ _) rfl answers⟩
  rintro below w rfl
  exact command_of_runs (runs_agStepBody_of_lt below _ _) rfl answers

/-! ### CD_START and CD_STOP -/

theorem runs_cdStartBody {state : CdState} (configured : state ≠ .unconfigured) (strength : BitVec 7) :
    Runs c (cdStartBody c state strength) 21 []
      (wrAll c [(c.regMode, c.modeRtp), (c.regRtp, strength.setWidth 8), (c.regGo, c.goMask)]) false
      (fun x => { x with cdState := .running }) () :=
  (runs_checked (bne_iff_ne.mpr configured) <| runs_before (runs_mustWrite _ _) <| runs_before (runs_mustWrite _ _) <|
    runs_before (runs_mustWrite _ _) (runs_setCdState _)).cast rfl rfl (by simp [wrAll]) rfl rfl

/-- CD_STOP leaves a running session idle, and the state of any other as it was. -/
theorem runs_cdStopBody (state : CdState) :
    Runs c (cdStopBody c state) 14 [] (wrAll c [(c.regRtp, 0), (c.regGo, 0)]) false
      (fun x => { x with cdState := if state = .running then .configuredIdle else x.cdState }) () := by
  have last : Runs c (if state = .running then setCdState .configuredIdle else ret ()) 0 [] [] false
      (fun x => { x with cdState := if state = .running then .configuredIdle else x.cdState }) () := by
    split
    · exact runs_setCdState _
    · exact runs_ret ()
  exact (runs_before (runs_mustWrite _ _) <| runs_before (runs_mustWrite _ _) last).cast rfl rfl
    (by simp [wrAll]) rfl rfl

/-- Settles O33: the session state is written last, by CD_STOP only if it was RUNNING. -/
theorem cdStartStopComplete : Obligations.CdStartStopComplete := fun _ _ _ =>
  ⟨fun configured answers => command_of_runs (runs_cdStartBody configured _) rfl answers,
    fun answers => command_of_runs (runs_cdStopBody _) rfl answers⟩

/-! ### CD_CONFIGURE -/

theorem clamp7_setWidth (v : Byte) : (clamp7 v).setWidth 7 = BitVec.ofNat 7 (min v.toNat 0x7F) := by
  apply BitVec.eq_of_toNat_eq
  simp only [clamp7, ampMax, BitVec.toNat_setWidth, BitVec.toNat_ofNat]
  omega

/-- CD_CONFIGURE up to its drive-time read. -/
def cdConfigureOpen (c : Params) (motor : Motor) (library : Byte) : Ctl Unit :=
  before (setCdState .unconfigured) <|
  before (must (selectMotor c motor)) <|
  must (setLibrary c library)

/-- CD_CONFIGURE after its drive-time read, which answered `old`. -/
def cdConfigureMerge (c : Params) (dt strength : Byte) (old : Option Byte) : Ctl Unit :=
  before (must (writeRegister (driveTimeAddr c) (mergeDriveTime (driveTimeOld c old) dt))) <|
  before (setCdStrength (clamp7 strength)) <|
  setCdState .configuredIdle

theorem before_assoc {α : Type} (m n : Ctl Unit) (p : Ctl α) : before (before m n) p = before m (before n p) := by
  funext s
  simp only [before, andThen]
  cases m s <;> rfl

theorem cdConfigureBody_eq (motor : Motor) (dt strength library : Byte) :
    cdConfigureBody c motor dt strength library = before (cdConfigureOpen c motor library)
      (andThen (readRegister (driveTimeAddr c)) (cdConfigureMerge c dt strength)) := by
  rw [cdConfigureOpen, before_assoc, before_assoc]
  rfl

theorem runs_cdConfigureOpen (motor : Motor) (library : Byte) : Runs c (cdConfigureOpen c motor library) 14 []
    (wrEvents c c.regFeedback (feedbackPattern c motor) ++ wrEvents c c.regLibrary library) false
    (fun x => { x with cdState := .unconfigured }) () :=
  runs_before (runs_setCdState _) <| runs_before (runs_mustWrite _ _) (runs_mustWrite _ _)

theorem runs_cdConfigureMerge (dt strength : Byte) (old : Option Byte) :
    Runs c (cdConfigureMerge c dt strength old) 7 []
      (wrEvents c (driveTimeAddr c) (mergeDriveTime (driveTimeOld c old) dt)) false
    (fun x => { x with cdState := .configuredIdle, cdStrength := BitVec.ofNat 7 (min strength.toNat 0x7F) }) () := by
  rw [← clamp7_setWidth]
  exact (runs_before (runs_mustWrite _ _) <| runs_before (runs_setCdStrength _) (runs_setCdState _)).cast rfl rfl
    (List.append_nil _) rfl rfl

/-- A register read keeps the parameters. -/
theorem readRegister_cfg {reg : Byte} {s t : State} {v : Option Byte} (h : readRegister reg s = .ok v t) :
    t.cfg = s.cfg :=
  (within_readRegister (F := noClass) (keep := noView) (bytes := 0) (fun _ _ => rfl) reg).cfg_eq h

/-- An advance that made no read and consumed no byte. -/
theorem advance_of_no_read {s : State} {ys : List Byte} (bytes : s.rxBytes = ys) (es : List Event) (xs : List Snapshot)
    (r : HostRegs) (w : List (Nat × Word)) :
    s.advance es xs ys false r w = { s.sent es xs with regs := r, written := w } := by
  simp only [State.advance, State.sent, Bool.or_false, ← bytes]

/-- `s` at the drive-time read of CD_CONFIGURE, the environment's answers consumed down to `xs`, with `w` as what busy
reads remember. -/
def State.cdOpened (s : State) (motor : Motor) (library : Byte) (xs : List Snapshot) (w : List (Nat × Word)) : State :=
  { s.sent (wrEvents s.cfg s.cfg.regFeedback (feedbackPattern s.cfg motor) ++
      wrEvents s.cfg s.cfg.regLibrary library) xs with
    regs := { s.regs with cdState := .unconfigured }
    written := w }

theorem cdConfigureOpen_ready {s : State} {xs : List Snapshot} {ys : List Byte} (motor : Motor) (library : Byte)
    (answers : s.Answers 14 [] xs ys) :
    ∃ w, cdConfigureOpen s.cfg motor library s = .ok () (s.cdOpened motor library xs w) := by
  obtain ⟨w, opening⟩ := runs_cdConfigureOpen motor library s xs ys rfl answers
  rw [advance_of_no_read (ys := ys) answers.bytes] at opening
  exact ⟨w, opening⟩

/-- CD_CONFIGURE whose drive-time read fails and leaves `t`: it goes on from there with `DT_FALLBACK`. -/
theorem execCdConfigure_fallback {s t : State} {motor : Motor} {dt strength library : Byte} {w : List (Nat × Word)}
    {xs us : List Snapshot} {ys vs : List Byte} (answers : s.Answers 14 [] xs ys)
    (failed : readRegister (driveTimeAddr s.cfg) (s.cdOpened motor library xs w) = .ok none t)
    (ready : t.Answers 7 [] us vs) :
    exec (.cdConfigure motor dt strength library) s = .next (t.settled
      (HostRegs.ready { s.regs with
        cdState := .configuredIdle, cdStrength := BitVec.ofNat 7 (min strength.toNat 0x7F) })
      (wrEvents s.cfg (driveTimeAddr s.cfg) (mergeDriveTime s.cfg.dtFallback dt)) us vs false) := by
  have quiet : (s.cdOpened motor library xs w).host = [] := answers.quiet
  obtain ⟨w₁, opening⟩ := cdConfigureOpen_ready motor library answers
  have read := (silent_readRegister _).with_written w₁ quiet failed
  have cfg := readRegister_cfg failed
  obtain ⟨w₂, merge⟩ := runs_cdConfigureMerge (c := s.cfg) dt strength none { t with written := w₁ } us vs
    cfg ⟨ready.quiet, ready.samples, ready.bytes⟩
  have rest := (andThen_of_ok (f := cdConfigureMerge s.cfg dt strength) read).trans merge
  have body := (before_of_ok (n := andThen _ _) opening).trans rest
  rw [← cdConfigureBody_eq] at body
  refine (command_of_ok body ready.quiet).trans ?_
  rw [complete_advance, ((silent_readRegister _).quiet quiet failed).2]
  rfl

/-- Settles O32: the three parts of the command, the read in the middle answering the byte or FAIL. -/
theorem cdConfigureCompletes : Obligations.CdConfigureCompletes := by
  intro s xs ys motor dt strength lib opened writes
  have opened_eq : opened =
      wrEvents s.cfg s.cfg.regFeedback (feedbackPattern s.cfg motor) ++ wrEvents s.cfg s.cfg.regLibrary lib := by
    rw [writes]
    cases motor <;> rfl
  subst opened_eq
  refine ⟨fun old answers => ?_, fun _ _ _ _ answers failed ready => execCdConfigure_fallback answers failed ready⟩
  have body := (runs_before (runs_cdConfigureOpen motor lib) <|
    runs_andThen (runs_readRegister (c := s.cfg) (driveTimeAddr s.cfg) old)
      (runs_cdConfigureMerge dt strength (some old))).cast rfl rfl (List.append_assoc _ _ _).symm rfl rfl
  rw [← cdConfigureBody_eq] at body
  exact command_of_runs body rfl answers

end Sys2Proof.Machine
end

section
/-! RT_PREPARE, PLAY_FREQ_AMP and PLAY_FREQ_VOLTAGE on a bus that satisfies every wait at once (44_timed_routines.md
R183 to R188). -/

namespace Sys2Proof.Machine

variable {c : Params} {p : Ctl Bool} {n : Nat} {es : List Event} {g : HostRegs → HostRegs} {s : State}

/-! ### PrepareRealtime by the latch -/

theorem prepareRealtime_of_ready (ready : s.regs.rtReady = true) : prepareRealtime c s = (ret true : Ctl Bool) s := by
  rw [prepareRealtime_eq, if_pos ready]
  rfl

theorem prepareRealtime_of_unready (unready : s.regs.rtReady = false) : prepareRealtime c s = prepareSteps c s := by
  rw [prepareRealtime_eq, unready]
  rfl

theorem must_congr {q : Ctl Bool} (same : p s = q s) : must p s = must q s := by
  simp only [must, andThen, same]

theorem before_congr {α : Type} {m m' : Ctl Unit} (same : m s = m' s) (f : Ctl α) : before m f s = before m' f s := by
  simp only [before, andThen, same]

/-- A command ends as its pseudocode does, run on the state it is accepted in. -/
theorem command_congr {m m' : Ctl Unit} (same : m s = m' s) : command m s = command m' s := by
  rw [command, command, same]

/-- Settles O34: with the latch set nothing is done, else its steps. -/
theorem rtPrepareCompletes : Obligations.RtPrepareCompletes := by
  intro s xs ys
  refine ⟨fun ready answers => ?_, fun unready answers => ?_⟩
  · have latched := command_of_runs (runs_must (runs_ret true)) rfl answers
    exact (command_congr (must_congr (prepareRealtime_of_ready ready))).trans latched
  · have steps := command_of_runs (runs_must runs_prepareSteps) rfl answers
    exact (command_congr (must_congr (prepareRealtime_of_unready unready))).trans steps

/-! ### PLAY_FREQ_AMP -/

/-- The burst and its pause, after PrepareRealtime. -/
def burst (c : Params) (v : Byte) (h n : Nat) (pause : Half) : Ctl Unit :=
  before (toneLoop c v h n) (delayMsUnlessZero pause.toNat)

/-- The events of a burst and its pause. -/
def burstEvents (c : Params) (v : Byte) (h n : Nat) (pause : Half) : List Event :=
  (List.replicate n (cycleEvents c v h)).flatten ++ pauseEvents pause.toNat

theorem runs_burst (v : Byte) (h n : Nat) (pause : Half) :
    Runs c (burst c v h n pause) (14 * n) [] (burstEvents c v h n pause) false id () :=
  runs_before (runs_toneLoop v h n) (runs_delayMsUnlessZero _)

/-- PLAY_FREQ_AMP with operands that are not rejected, where PrepareRealtime comes to `p`. -/
theorem playBody_run (prepare : prepareRealtime c s = p s) {f : Nat} {a : Byte} (hf : f ≠ 0) (ha : a ≠ 0)
    (burstMs pauseMs : Half) : playBody c f a burstMs pauseMs s =
      before (must p) (burst c (clamp7 a) (halfUs f) (toneCycles burstMs (halfUs f)) pauseMs) s := by
  have accepted : (f != 0 && a != 0) = true := by
    rw [bne_iff_ne.mpr hf, bne_iff_ne.mpr ha]
    rfl
  rw [playBody, accepted, require_true, before_ret]
  exact before_congr (must_congr prepare) _

/-- PLAY_FREQ_AMP where PrepareRealtime comes to `p`, which runs to OK. -/
theorem execPlayFreqAmp_ready {amp : Byte} {xs : List Snapshot} {ys : List Byte}
    (prepare : prepareRealtime s.cfg s = p s) (prepared : Runs s.cfg p n [] es false g true)
    (hf : s.regs.arg0 ≠ 0) (ha : amp ≠ 0) {h k : Nat} (hh : h = halfUs s.regs.arg0.toNat)
    (hk : k = toneCycles s.regs.burstMs h) (answers : s.Answers (n + 14 * k) [] xs ys) :
    exec (.playFreqAmp amp) s = .next (s.settled (g s.regs).ready
      (es ++ burstEvents s.cfg (clamp7 amp) h k s.regs.pauseMs) xs ys false) := by
  subst hh hk
  have nonzero : s.regs.arg0.toNat ≠ 0 := fun zero => hf (BitVec.eq_of_toNat_eq zero)
  refine (command_congr (playBody_run prepare nonzero ha _ _)).trans ?_
  exact command_of_runs (runs_before (runs_must prepared) (runs_burst _ _ _ _)) rfl answers

/-- Settles O35: PrepareRealtime by its latch, then the burst. -/
theorem playFreqAmpCompletes : Obligations.PlayFreqAmpCompletes := by
  intro s xs ys amp h n hf ha hh hn
  refine ⟨fun ready answers => ?_, fun unready answers => ?_⟩
  · exact execPlayFreqAmp_ready (prepareRealtime_of_ready ready) (runs_ret true) hf ha hh hn (by rwa [Nat.zero_add])
  · rw [List.append_assoc]
    exact execPlayFreqAmp_ready (prepareRealtime_of_unready unready) runs_prepareSteps hf ha hh hn answers

/-! ### PLAY_FREQ_VOLTAGE -/

theorem arg1Mv_toNat (r : HostRegs) : (arg1Mv r).toNat = r.arg1.toNat % 65536 := by
  rw [arg1Mv, BitVec.extractLsb'_toNat, Nat.shiftRight_zero]

/-- PLAY_FREQ_VOLTAGE with voltages that are not rejected is PLAY_FREQ_AMP, whatever the environment and the host do. -/
theorem execPlayFreqVoltage_eq (mv : arg1Mv s.regs ≠ 0) (mx : s.regs.maxMv ≠ 0) :
    exec .playFreqVoltage s = exec (.playFreqAmp (voltToAmp (arg1Mv s.regs) s.regs.maxMv)) s := by
  have body (f : Nat) (a b : Half) : playVoltageBody s.cfg f (arg1Mv s.regs) s.regs.maxMv a b =
      playBody s.cfg f (voltToAmp (arg1Mv s.regs) s.regs.maxMv) a b := by
    rw [playVoltageBody, bne_iff_ne.mpr mv, bne_iff_ne.mpr mx]
    rfl
  exact congrArg (command · s) (body _ _ _)

/-- Settles O36: the checks pass, and the amplitude is a nonzero byte that the clamp keeps. -/
theorem playFreqVoltageCompletes : Obligations.PlayFreqVoltageCompletes := by
  intro s a mv mx hmv hmx mv0 mx0 ha
  have range := voltQuotient_range (mv := mv) (mx := mx) (Nat.pos_of_ne_zero mx0)
  rw [← ha] at range
  obtain ⟨low, high⟩ := range
  have amp : (BitVec.ofNat 8 a).toNat = a := by
    rw [BitVec.toNat_ofNat, Nat.mod_eq_of_lt (by omega)]
  have same : exec .playFreqVoltage s = exec (.playFreqAmp (BitVec.ofNat 8 a)) s := by
    rw [← arg1Mv_toNat] at hmv
    have voltage : voltToAmp (arg1Mv s.regs) s.regs.maxMv = BitVec.ofNat 8 a := by
      rw [voltToAmp, ← hmv, ← hmx, ha]
      rfl
    rw [← voltage]
    exact execPlayFreqVoltage_eq (fun zero => mv0 (by rw [hmv, zero]; rfl)) fun zero => mx0 (by rw [hmx, zero]; rfl)
  refine ⟨low, high, same, fun xs ys h n hf ready hh hn answers => ?_⟩
  have nonzero : BitVec.ofNat 8 a ≠ 0 := fun zero => by
    rw [← amp, zero] at low
    exact absurd low (by decide)
  obtain ⟨prepared, -⟩ := playFreqAmpCompletes s xs ys (BitVec.ofNat 8 a) h n hf nonzero hh hn
  have done := prepared ready answers
  rw [amp, Nat.min_eq_left high] at done
  exact same.trans done

end Sys2Proof.Machine
end

section
/-! The strength of continuous drive over every command (44_timed_routines.md R180, 10_state.md R27). -/

namespace Sys2Proof.Machine

theorem writtenBy_cdStrength (r t : HostRegs) {i : Instr}
    (h : ∀ motor dt strength lib, i ≠ .cdConfigure motor dt strength lib) :
    (HostRegs.writtenBy r t i).cdStrength = r.cdStrength := by
  cases i with
  | cdConfigure motor dt strength lib => exact absurd rfl (h motor dt strength lib)
  | autocal rb => cases rb <;> rfl
  | _ => rfl

/-- CD_CONFIGURE latches the clamped strength after the last piece that can fail (44_timed_routines.md R180). -/
theorem leaves_cdConfigureBody_cdStrength (c : Params) (motor : Motor) (dt strength lib : Byte) (x : BitVec 7) :
    Leaves (fun u => u.regs.cdStrength = x) (cdConfigureBody c motor dt strength lib)
      (fun _ u => u.regs.cdStrength = BitVec.ofNat 7 (min strength.toNat 0x7F)) (fun u => u.regs.cdStrength = x) := by
  have hk : IgnoresStatus (·.cdStrength) := fun _ _ => rfl
  have keeps {α : Type} {m : Ctl α} (h : Within busOnly (·.cdStrength) 0 m) := leaves_of_within h x
  have state (v : CdState) : Within busOnly (·.cdStrength) 0 (setCdState v) := within_setCdState (fun _ _ => rfl) v
  have write (reg v : Byte) : Within busOnly (·.cdStrength) 0 (must (writeRegister reg v)) :=
    within_mustWrite (F := busOnly) hk rfl reg v
  refine leaves_before (keeps (state _)) <| leaves_before (keeps (write _ _)) <| leaves_before (keeps (write _ _)) <|
    leaves_andThen (keeps (within_readRegister hk _)) fun _ => leaves_before (keeps (write _ _)) <|
    leaves_before (leaves_writeAt fun _ _ => clamp7_setWidth strength) (leaves_writeAt fun _ h => h)

/-- Settles O43: no rule but CD_CONFIGURE's names the strength. -/
theorem cdStrengthLatch : Obligations.CdStrengthLatch := by
  intro i s t hs h
  refine ⟨?_, fun other => exec_keeps (keep := (·.cdStrength)) (fun _ _ => rfl)
    (fun r u => writtenBy_cdStrength r u other) hs h⟩
  rintro motor dt strength lib rfl
  exact command_view_noReset (keep := (·.cdStrength)) (fun _ _ => rfl)
    (within_cdConfigureBody (F := busOnly) (bytes := 0) (keep := noView) (fun _ _ => rfl) rfl (fun _ _ => rfl)
      (fun _ _ => rfl) _ _ _ _ _)
    (leaves_cdConfigureBody_cdStrength _ _ _ _ _ _) rfl hs h

end Sys2Proof.Machine
end

section
/-! What AUTOCAL leaves in the result registers, in every environment (44_timed_routines.md R173, R176 to R179). -/

namespace Sys2Proof.Machine

variable {α : Type} {c : Params}

/-- Whatever a piece leaves. -/
theorem leaves_anything {m : Ctl α} : Leaves (fun _ => True) m (fun _ _ => True) fun _ => True :=
  ⟨fun _ _ => trivial, fun _ _ => trivial⟩

/-- A piece within a frame keeps what holds of the view. -/
theorem leaves_of_view {κ : Type} {F : FailClass → Prop} {keep : HostRegs → κ} {bytes : Nat} {m : Ctl α}
    (h : Within F keep bytes m) (P : κ → Prop) :
    Leaves (fun u => P (keep u.regs)) m (fun _ u => P (keep u.regs)) fun u => P (keep u.regs) where
  ok {s _ _} hs e := ((leaves_of_within h (keep s.regs)).ok rfl e).symm ▸ hs
  fail {s _ _} hs e := ((leaves_of_within h (keep s.regs)).fail rfl e).symm ▸ hs

/-! ### READY: both best-effort reads have been attempted -/

/-- The battery field holds what an attempted read leaves, a FAILED one with byte 0 (44_timed_routines.md R178). -/
def AcalResult.VbatAttempted (r : AcalResult) : Prop := r.vbatSt = .ok ∨ (r.vbatSt = .failed ∧ r.vbat = 0)

/-- The resonance field likewise. -/
def AcalResult.ResonAttempted (r : AcalResult) : Prop := r.resonSt = .ok ∨ (r.resonSt = .failed ∧ r.reson = 0)

theorem putVbat_attempted (v : Option Byte) (r : AcalResult) : (putVbat v r).VbatAttempted := by
  cases v with
  | some b => exact .inl rfl
  | none => exact .inr ⟨rfl, rfl⟩

theorem putReson_attempted (v : Option Byte) (r : AcalResult) : (putReson v r).ResonAttempted := by
  cases v with
  | some b => exact .inl rfl
  | none => exact .inr ⟨rfl, rfl⟩

/-- The resonance read leaves the battery field alone. -/
theorem putReson_keeps_vbat (v : Option Byte) {r : AcalResult} (h : r.VbatAttempted) :
    (putReson v r).VbatAttempted := by
  cases v with
  | some b => exact h
  | none => exact h

theorem leaves_bestEffortReads : Leaves (fun _ => True) (bestEffortReads c)
    (fun _ u => u.regs.res.VbatAttempted ∧ u.regs.res.ResonAttempted) fun _ => True := by
  refine leaves_andThen leaves_anything fun vbat =>
    leaves_before (mid := fun u => u.regs.res.VbatAttempted) (leaves_writeAt fun _ _ => putVbat_attempted vbat _) ?_
  have read : Within noClass (·.res) 0 (readRegister c.regLraPeriod) := within_readRegister (fun _ _ => rfl) _
  have kept := leaves_of_view read AcalResult.VbatAttempted
  refine leaves_andThen ⟨kept.ok, fun _ _ => trivial⟩ fun reson => leaves_writeAt fun _ h => ?_
  exact ⟨putReson_keeps_vbat reson h, putReson_attempted reson _⟩

/-- After a timeout the command never answers. -/
theorem leaves_afterTimeout {rb stopped : Bool} {post : Unit → State → Prop} :
    Leaves (fun _ => True) (afterTimeout c rb stopped) post fun _ => True := by
  unfold afterTimeout
  split
  · exact leaves_before leaves_anything <| leaves_before leaves_anything <| leaves_fail fun _ h => h
  · exact leaves_fail fun _ h => h

theorem leaves_autocalBody (q : AcalRequest) : Leaves (fun _ => True) (autocalBody c q true)
    (fun _ u => u.regs.res.VbatAttempted ∧ u.regs.res.ResonAttempted) fun _ => True := by
  refine leaves_before leaves_anything <| leaves_before leaves_anything <|
    leaves_andThen leaves_anything fun timedOut => leaves_andThen leaves_anything fun stopped => ?_
  cases timedOut with
  | true => exact leaves_afterTimeout
  | false =>
    cases stopped with
    | false => exact leaves_fail fun _ h => h
    | true => exact leaves_before leaves_anything leaves_bestEffortReads

/-! ### NOT_READY -/

/-- The best-effort fields of the result registers, which the hard reads leave alone. -/
def AcalResult.bestEffort (r : AcalResult) : Byte × Byte × BestEffort × BestEffort :=
  (r.vbat, r.reson, r.vbatSt, r.resonSt)

/-- No best-effort read has been attempted. -/
def AcalResult.NoneAttempted (r : AcalResult) : Prop := r.bestEffort = (0, 0, .notAttempted, .notAttempted)

/-- What AUTOCAL with `rb = 1` and parameters `c` leaves when it fails with class `cls`: after BUS no best-effort read
has been attempted, and after TIMING without the optional reads all result registers are 0. -/
def AcalFails (c : Params) (cls : FailClass) (t : State) : Prop :=
  (cls = .bus → t.regs.res.NoneAttempted) ∧
    (cls = .timing → c.readResultsOnTimeout = false → t.regs.res = AcalResult.zero)

theorem noneAttempted_iff {r : AcalResult} : r.NoneAttempted ↔
    r.vbat = 0 ∧ r.reson = 0 ∧ r.vbatSt = .notAttempted ∧ r.resonSt = .notAttempted := by
  simp only [AcalResult.NoneAttempted, AcalResult.bestEffort, Prod.mk.injEq]

theorem noneAttempted_of_zero {r : AcalResult} (zero : r = AcalResult.zero) : r.NoneAttempted := by
  rw [zero]
  rfl

variable {s t : State} {cls : FailClass}

/-- A piece that writes no result register, run with all of them 0, fails with BUS alone. -/
theorem acalFails_of_within {m : Ctl α} (hm : Within busOnly (·.res) 0 m) (zero : s.regs.res = AcalResult.zero)
    (h : m s = .stop (.fail cls) t) : AcalFails c cls t := by
  have kept : t.regs.res = AcalResult.zero := (leaves_of_within hm AcalResult.zero).fail zero h
  exact ⟨fun _ => noneAttempted_of_zero kept, fun _ _ => kept⟩

/-- A hard result read leaves the best-effort fields alone when its `put` does. -/
theorem within_hardRead_bestEffort (reg : Byte) (off : Nat) {put : AcalResult → Byte → AcalResult}
    (hput : ∀ r v, (put r v).bestEffort = r.bestEffort) :
    Within busOnly (·.res.bestEffort) 0 (hardRead reg off put) :=
  within_andThen (within_mustGet rfl (within_readRegister (fun _ _ => rfl) reg)) fun v =>
    within_writeRegs (f := fun r => { r with res := put r.res v }) off (fun r => hput r.res v) fun _ => rfl

theorem within_hardReads_bestEffort : Within busOnly (·.res.bestEffort) 0 (hardReads c) :=
  within_before (within_hardRead_bestEffort _ _ fun _ _ => rfl) <|
    within_before (within_hardRead_bestEffort _ _ fun _ _ => rfl) <|
    within_before (within_hardRead_bestEffort _ _ fun _ _ => rfl) <|
    within_before (within_hardRead_bestEffort _ _ fun _ _ => rfl) <|
    within_hardRead_bestEffort _ _ fun _ _ => rfl

/-- The result reads fail only where a hard one does, before any best-effort read. -/
theorem resultReads_fails (zero : s.regs.res = AcalResult.zero)
    (h : before (hardReads c) (bestEffortReads c) s = .stop (.fail cls) t) : AcalFails c cls t := by
  rcases stop_of_andThen h with h | ⟨_, u, -, h⟩
  · have k := within_hardReads_bestEffort (c := c) s
    rw [h] at k
    obtain ⟨rfl, frame⟩ := k
    exact ⟨fun _ => frame.regs.trans (noneAttempted_of_zero zero), nofun⟩
  · have k := within_bestEffortReads (F := noClass) (keep := noView) (bytes := 0) (fun _ _ => rfl) (fun _ _ => rfl) c u
    rw [h] at k
    exact k.1.elim

/-- Without the optional reads only the class is left of what follows a timeout (44_timed_routines.md R176). -/
theorem afterTimeout_of_skipped {rb stopped : Bool} (skipped : (c.readResultsOnTimeout && rb && stopped) = false) :
    afterTimeout c rb stopped = fail .timing := by
  rw [afterTimeout, skipped]
  rfl

theorem within_afterTimeout (rb stopped : Bool) : Within (· = .timing) noView 0 (afterTimeout c rb stopped) :=
  within_ite
    (within_before (within_ignoredReads (fun _ _ => rfl) _) <| within_before (within_freeResults fun _ _ => rfl) <|
      within_fail rfl)
    (within_fail rfl)

/-- After a timeout the class is TIMING, and without the optional reads nothing more has been done. -/
theorem afterTimeout_fails {rb stopped : Bool} (zero : s.regs.res = AcalResult.zero)
    (h : afterTimeout c rb stopped s = .stop (.fail cls) t) : AcalFails c cls t := by
  have k := within_afterTimeout (c := c) rb stopped s
  rw [h] at k
  obtain ⟨rfl, -⟩ := k
  refine ⟨nofun, fun _ skipped => ?_⟩
  rw [afterTimeout_of_skipped (by rw [skipped]; rfl)] at h
  cases h
  exact zero

theorem acalForcedStop_fails {timedOut : Bool} (zero : s.regs.res = AcalResult.zero)
    (h : acalForcedStop c true timedOut s = .stop (.fail cls) t) : AcalFails c cls t := by
  have stop : Within busOnly (·.res) 0 (devStop c) := within_writeRegister (fun _ _ => rfl) _ _
  rcases stop_of_andThen h with h | ⟨stopped, u, h₁, h⟩
  · exact acalFails_of_within stop zero h
  · have zero₁ : u.regs.res = AcalResult.zero := (leaves_of_within stop _).ok zero h₁
    cases timedOut with
    | true => exact afterTimeout_fails zero₁ h
    | false =>
      cases stopped with
      | false => exact acalFails_of_within (m := fail .bus) (within_fail rfl) zero₁ h
      | true => exact resultReads_fails zero₁ h

theorem autocalBody_fails {q : AcalRequest} (h : autocalBody c q true s = .stop (.fail cls) t) : AcalFails c cls t := by
  have hk : IgnoresStatus (·.res) := fun _ _ => rfl
  have setup : Within busOnly (·.res) 0 (acalSetup c q) := within_acalSetup (F := busOnly) hk rfl c q
  have polls : Within busOnly (·.res) 0 (pollLoop c (effectiveTimeout q)) := within_pollLoop (F := busOnly) hk rfl c _
  obtain ⟨w, entry⟩ := acalEntry_eq true s
  have h := (before_of_ok entry).symm.trans h
  rcases stop_of_andThen h with h | ⟨_, u, h₁, h⟩
  · exact acalFails_of_within setup rfl h
  have zero₁ : u.regs.res = AcalResult.zero := (leaves_of_within setup _).ok rfl h₁
  rcases stop_of_andThen h with h | ⟨timedOut, v, h₂, h⟩
  · exact acalFails_of_within polls zero₁ h
  have zero₂ : v.regs.res = AcalResult.zero := (leaves_of_within polls _).ok zero₁ h₂
  exact acalForcedStop_fails zero₂ h

/-! ### The command -/

theorem HostMoved.res {u v : State} (h : HostMoved u v) : v.regs.res = u.regs.res := by
  obtain ⟨l, d, p, st, rfl⟩ := h
  rfl

/-- Settles O46: `rb = 0` names no result register; with `rb = 1` the pseudocode reaches its end through the best-effort
reads, or fails in one of the ways of `AcalFails`. -/
theorem autocalResults : Obligations.AutocalResults := by
  intro rb s t hs h
  constructor
  · rintro rfl
    exact exec_keeps (keep := (·.res)) (fun _ _ => rfl) (fun _ _ => rfl) hs h
  rintro rfl
  have frame := within_autocalBody (F := fun _ => True) (keep := noView) (bytes := 0) (fun _ _ => rfl) trivial trivial
    (fun _ _ _ => rfl) s.cfg s.regs.req (rb := true)
  obtain ⟨u, v, moved, ⟨e, rfl⟩ | ⟨cls, e, rfl⟩⟩ := command_completes frame hs h
  · have attempted := (leaves_autocalBody s.regs.req).ok trivial e
    rw [← moved.res] at attempted
    exact ⟨nofun, nofun, fun _ => attempted⟩
  · obtain ⟨bus, timing⟩ := autocalBody_fails e
    refine ⟨fun raised => ?_, fun raised => ?_, nofun⟩
    · exact fun skipped => moved.res.trans (timing (Option.some.inj raised) skipped)
    · have none := bus (Option.some.inj raised)
      rw [← moved.res] at none
      obtain ⟨vbat, reson, vbatSt, resonSt⟩ := noneAttempted_iff.mp none
      exact ⟨vbatSt, resonSt, vbat, reson⟩

end Sys2Proof.Machine
end

section
/-! AUTOCAL when GO clears in time, on a bus that satisfies every wait at once (44_timed_routines.md R173 to R178). -/

namespace Sys2Proof.Machine

variable {c : Params}

theorem goClear_iff {g : Byte} : goClear c g = true ↔ g &&& c.goMask = 0 := beq_iff_eq

theorem goClear_eq_false_iff {g : Byte} : goClear c g = false ↔ g &&& c.goMask ≠ 0 := beq_eq_false_iff_ne

/-- From a forced stop after GO has cleared to the end, with `rb = 0`. -/
theorem runs_acalForcedStop : Runs c (acalForcedStop c false false) 7 [] (wrEvents c c.regGo 0) false id () :=
  runs_andThen_ret (runs_writeRegister _ _) rfl

/-- From a forced stop after GO has cleared to the end, with `rb = 1`: the result reads follow. -/
theorem runs_acalForcedStop_results (r : ResultBytes) : Runs c (acalForcedStop c true false) (7 + 63) r.bytes
    (wrEvents c c.regGo 0 ++ r.events c) true (fun x => { x with res := r.result }) () :=
  runs_andThen (f := fun stopped => if !stopped then fail .bus else before (hardReads c) (bestEffortReads c))
    (runs_writeRegister c.regGo 0) (runs_resultReads r)

section
variable {q : AcalRequest} {rb : Bool} {gs : List Byte} {g : Byte} (busy : ∀ x ∈ gs, x &&& c.goMask ≠ 0)
  (clear : g &&& c.goMask = 0) (inTime : gs.length ≤ effectiveTimeout q)
include busy clear inTime

/-- AUTOCAL up to a forced stop that GO's clearing leads to, and that runs to the end of the pseudocode. -/
theorem runs_autocalBody {n : Nat} {bs : List Byte} {es : List Event} {r : Bool} {f : HostRegs → HostRegs}
    (last : Runs c (acalForcedStop c rb false) n bs es r f ()) :
    Runs c (autocalBody c q rb) (84 + 9 * (gs.length + 1) + n) (gs ++ [g] ++ bs)
      (setupEvents c q ++ pollEvents c gs g ++ es) true
      (f ∘ fun x => if rb then { x with res := AcalResult.zero } else x) () := by
  have set : ∀ x ∈ gs, goClear c x = false := fun x hx => goClear_eq_false_iff.mpr (busy x hx)
  have cleared : goClear c g = true := goClear_iff.mpr clear
  have poll := runs_pollLoop (effectiveTimeout q) gs g set inTime (.inl cleared)
  rw [cleared] at poll
  exact (runs_before (runs_acalEntry rb) <| runs_before (runs_acalSetup q) <|
    runs_andThen (f := fun timedOut => acalForcedStop c rb timedOut) poll last).cast (by omega) rfl
      (by rw [List.append_assoc]; rfl) rfl rfl

end

/-- Settles O30: the setup, the polls to the one that shows GO clear, the forced stop, and the reads with `rb = 1`. -/
theorem autocalCompletes : Obligations.AutocalCompletes := by
  intro s xs ys gs g r busy clear inTime
  refine ⟨fun answers => ?_, fun answers => ?_⟩
  · exact command_of_runs (runs_autocalBody busy clear inTime runs_acalForcedStop) rfl (by rwa [List.append_nil])
  · have body := runs_autocalBody busy clear inTime (runs_acalForcedStop_results r)
    rw [← List.append_assoc] at body
    exact command_of_runs body rfl answers

end Sys2Proof.Machine
end

section
/-! The phases of AUTOCAL up to the piece that stops the command, on a bus that satisfies every wait before it
(44_timed_routines.md R174 to R177, R179). -/

namespace Sys2Proof.Machine

variable {c : Params} {s t u : State} {xs us : List Snapshot} {ys vs : List Byte} {stop : Stop}

/-! ### States after events -/

theorem polled_polled (s : State) (es fs : List Event) (xs us : List Snapshot) (ys vs : List Byte) (b d : Bool) :
    (s.polled es xs ys b).polled fs us vs d = s.polled (es ++ fs) us vs (b || d) := by
  simp only [State.polled, List.append_assoc, Bool.or_assoc]

/-- After no event. -/
theorem polled_nothing (answers : s.Answers 0 [] xs ys) : s.polled [] xs ys false = s :=
  advance_nothing answers

/-- After events of which none was a read. -/
theorem polled_of_no_read (bytes : s.rxBytes = ys) (es : List Event) (xs : List Snapshot) :
    s.polled es xs ys false = s.sent es xs := by
  simp only [State.polled, State.sent, Bool.or_false, ← bytes]

section
variable {α β : Type} {m : Ctl α} {n k : Nat} {bs cs : List Byte} {es : List Event} {r : Bool}
  {g : HostRegs → HostRegs} {a : α}

/-- The first answers of the bus, then the others. -/
theorem State.Answers.split (answers : s.Answers (n + k) (bs ++ cs) xs ys) :
    s.Answers n bs (List.replicate k readySnapshot ++ xs) (cs ++ ys) :=
  ⟨answers.quiet, by rw [answers.samples, ← List.replicate_append_replicate, List.append_assoc],
    by rw [answers.bytes, List.append_assoc]⟩

/-- A piece that runs to its end leaves a state with the answers of the bus that are left. -/
theorem Runs.ready (runs : Runs c m n bs es r g a) (hc : s.cfg = c) (answers : s.Answers (n + k) (bs ++ cs) xs ys) :
    ∃ us vs w, m s = .ok a (s.advance es us vs r (g s.regs) w) ∧
      (s.advance es us vs r (g s.regs) w).cfg = c ∧ (s.advance es us vs r (g s.regs) w).Answers k cs xs ys := by
  obtain ⟨w, done⟩ := runs s _ _ hc answers.split
  exact ⟨_, _, w, done, hc, answers.quiet, rfl, rfl⟩

/-- `v` is `s` after the events `es`, of which some were reads if `r`, with the next `k` samples ready and the bytes `cs`
to come, before `xs` and `ys`. -/
structure Reached (c : Params) (s : State) (es : List Event) (r : Bool) (k : Nat) (cs : List Byte) (xs : List Snapshot)
    (ys : List Byte) (v : State) : Prop where
  cfg : v.cfg = c
  answers : v.Answers k cs xs ys
  polled : ∀ fs us vs d, v.polled fs us vs d = s.polled (es ++ fs) us vs (r || d)

/-- A silent piece that runs to its end, and what follows it. -/
theorem andThen_ready (runs : Runs c m n bs es r id a) (silent : Silent m) (hc : s.cfg = c)
    (answers : s.Answers (n + k) (bs ++ cs) xs ys) (f : α → Ctl β) :
    ∃ v, andThen m f s = f a v ∧ Reached c s es r k cs xs ys v :=
  ⟨_, andThen_of_ok (polled_of_runs runs silent hc answers.split), hc, ⟨answers.quiet, rfl, rfl⟩,
    fun _ _ _ _ => polled_polled _ _ _ _ _ _ _ _ _⟩

theorem Reached.trans {fs : List Event} {q : Bool} {n : Nat} {bs : List Byte} {us : List Snapshot} {vs : List Byte}
    {v v' : State} (h : Reached c s es r n bs us vs v) (h' : Reached c v fs q k cs xs ys v') :
    Reached c s (es ++ fs) (r || q) k cs xs ys v' :=
  ⟨h'.cfg, h'.answers, fun gs us vs d => by rw [h'.polled, h.polled, List.append_assoc, Bool.or_assoc]⟩

/-- The state a command has reached, when nothing of the bus's answers is left to come. -/
theorem Reached.eq {v : State} (h : Reached c s es r 0 [] xs ys v) : v = s.polled es xs ys r := by
  have law := h.polled [] xs ys false
  rwa [polled_nothing h.answers, List.append_nil, Bool.or_false] at law

/-- The events issued reach the trace and the environment alone. -/
theorem Reached.regs {v : State} (h : Reached c s es r k cs xs ys v) : v.regs = s.regs := by
  show (v.polled [] [] [] false).regs = s.regs
  rw [h.polled]
  rfl

end

/-- A delay and what follows it. -/
theorem before_delayMs_ready {α : Type} {k : Nat} {cs : List Byte} (ms : Nat) (hc : s.cfg = c)
    (answers : s.Answers k cs xs ys) (m : Ctl α) :
    ∃ v, before (delayMs ms) m s = m v ∧ Reached c s [.dms ms] false k cs xs ys v :=
  andThen_ready (cs := cs) (runs_delayMs ms) (silent_perform _) hc (by rwa [Nat.zero_add]) _

/-! ### The setup phase -/

/-- A register write of the setup phase and what follows it. -/
theorem before_mustOrStop_ready {α : Type} {k : Nat} (hc : s.cfg = c) (reg b : Byte)
    (answers : s.Answers (7 * (k + 1)) [] xs ys) (m : Ctl α) :
    ∃ v, before (mustOrStop c (writeRegister reg b)) m s = m v ∧
      Reached c s (wrEvents c reg b) false (7 * k) [] xs ys v :=
  andThen_ready (cs := []) (runs_mustOrStop (runs_writeRegister reg b)) (silent_mustOrStop (silent_writeRegister reg b))
    hc (by rwa [Nat.add_comm]) _

/-- A list of register writes of which the one at `k` stops the command. -/
theorem writesOrStop_of_stop {ws : List (Byte × Byte)} {k : Nat} {w : Byte × Byte} (hc : s.cfg = c)
    (here : ws[k]? = some w) (answers : s.Answers (7 * k) [] xs ys)
    (stops : mustOrStop c (writeRegister w.1 w.2) (s.polled (wrAll c (ws.take k)) xs ys false) = .stop stop u) :
    writesOrStop c ws s = .stop stop u := by
  induction ws generalizing k s with
  | nil => exact nomatch here
  | cons w' ws ih =>
    cases k with
    | zero =>
      cases here
      rw [List.take_zero, wrAll, List.flatMap_nil, polled_nothing answers] at stops
      exact before_of_stop stops
    | succ k =>
      obtain ⟨v, run, reached⟩ := before_mustOrStop_ready hc w'.1 w'.2 answers (writesOrStop c ws)
      refine run.trans (ih reached.cfg (by simpa using here) reached.answers ?_)
      rw [reached.polled]
      exact stops

/-- The setup phase, of whose writes the one at `k` stops the command. -/
theorem acalSetup_of_stop {q : AcalRequest} {k : Nat} {w : Byte × Byte} (hc : s.cfg = c)
    (here : (setupWrites c q)[k]? = some w) (answers : s.Answers (7 * k) [] xs ys)
    (stops : mustOrStop c (writeRegister w.1 w.2) (s.polled (setupEventsTo c q k) xs ys false) = .stop stop u) :
    acalSetup c q s = .stop stop u := by
  rw [acalSetup_eq]
  cases k with
  | zero =>
    cases here
    rw [setupEventsTo, polled_nothing answers] at stops
    exact before_of_stop stops
  | succ k =>
    obtain ⟨v₁, write, written⟩ := before_mustOrStop_ready hc c.regMode c.modeIntTrig answers
      (before (delayMs c.settleMs.toNat) (writesOrStop c (setupRest c q)))
    obtain ⟨v₂, delay, delayed⟩ := before_delayMs_ready c.settleMs.toNat written.cfg written.answers
      (writesOrStop c (setupRest c q))
    have reached := written.trans delayed
    refine (write.trans delay).trans ?_
    refine writesOrStop_of_stop reached.cfg (by simpa [setupWrites] using here) reached.answers ?_
    rw [reached.polled]
    exact stops

/-! ### The polls -/

theorem silent_pollGo : Silent (pollGo c) :=
  silent_andThen (silent_readRegister _) fun v => by
    cases v with
    | none => exact silent_stopAbort
    | some g => exact silent_ret _

/-- The poll loop, whose GO reads `gs` show the bit set and whose next one stops the command. -/
theorem pollLoop_of_stop {k : Nat} {gs : List Byte} (hc : s.cfg = c) (set : ∀ x ∈ gs, goClear c x = false)
    (room : gs.length ≤ k) (answers : s.Answers (9 * gs.length) gs xs ys)
    (stops : pollGo c (s.polled (goSetEvents c gs) xs ys (!gs.isEmpty)) = .stop stop u) :
    pollLoop c k s = .stop stop u := by
  induction gs generalizing k s with
  | nil =>
    have first : pollGo c s = .stop stop u := (congrArg (pollGo c) (polled_nothing answers)).symm.trans stops
    cases k with
    | zero => exact andThen_of_stop first
    | succ k => exact andThen_of_stop first
  | cons x gs ih =>
    obtain ⟨setx, set⟩ := List.forall_mem_cons.mp set
    cases k with
    | zero => exact absurd room (Nat.not_succ_le_zero _)
    | succ k =>
      have answers : s.Answers (9 + 9 * gs.length) ([x] ++ gs) xs ys := by
        rwa [List.length_cons, Nat.mul_succ, Nat.add_comm] at answers
      obtain ⟨v₁, poll, polled⟩ := andThen_ready (runs_pollGo x) silent_pollGo hc answers
        fun cleared => if cleared then ret false else before (delayMs acalPollMs) (pollLoop c k)
      rw [setx] at poll
      obtain ⟨v₂, delay, delayed⟩ := before_delayMs_ready acalPollMs polled.cfg polled.answers (pollLoop c k)
      have reached := polled.trans delayed
      refine (poll.trans delay).trans (ih reached.cfg set (Nat.le_of_succ_le_succ room) reached.answers ?_)
      rw [reached.polled]
      exact stops

/-- AUTOCAL after its entry actions. -/
def acalPhases (c : Params) (q : AcalRequest) (rb : Bool) : Ctl Unit :=
  before (acalSetup c q) <|
  andThen (pollLoop c (effectiveTimeout q)) fun timedOut =>
  acalForcedStop c rb timedOut

theorem autocalBody_eq (q : AcalRequest) (rb : Bool) :
    autocalBody c q rb = before (acalEntry rb) (acalPhases c q rb) := rfl

/-- AUTOCAL up to the forced stop: the GO reads `gs` show the bit set, and the last one, `g`, shows it clear or is the
last of the budget. -/
theorem acalPhases_ready {q : AcalRequest} {rb : Bool} {gs cs : List Byte} {g : Byte} {k : Nat} (hc : s.cfg = c)
    (set : ∀ x ∈ gs, goClear c x = false) (room : gs.length ≤ effectiveTimeout q)
    (last : goClear c g = true ∨ gs.length = effectiveTimeout q)
    (answers : s.Answers (84 + 9 * (gs.length + 1) + k) (gs ++ [g] ++ cs) xs ys) :
    ∃ v, acalPhases c q rb s = acalForcedStop c rb (!goClear c g) v ∧
      Reached c s (setupEvents c q ++ pollEvents c gs g) true k cs xs ys v := by
  rw [Nat.add_assoc] at answers
  obtain ⟨v₁, setup, settled⟩ := andThen_ready (bs := []) (runs_acalSetup q) (silent_acalSetup q) hc answers
    fun _ => andThen (pollLoop c (effectiveTimeout q)) (acalForcedStop c rb)
  obtain ⟨v₂, poll, polled⟩ := andThen_ready (runs_pollLoop _ gs g set room last) (silent_pollLoop _) settled.cfg
    settled.answers (acalForcedStop c rb)
  exact ⟨v₂, setup.trans poll, settled.trans polled⟩

/-! ### The forced stop -/

/-- A failing DEV-STOP after the polls ends the command, by what the polls showed (44_timed_routines.md R176). -/
theorem acalForcedStop_of_fail {rb timedOut : Bool} (failed : writeRegister c.regGo 0 s = .ok false u) :
    acalForcedStop c rb timedOut s = .stop (.fail (if timedOut then .timing else .bus)) u := by
  refine (andThen_of_ok (show devStop c s = _ from failed)).trans ?_
  cases timedOut with
  | true =>
    simp only [if_true]
    rw [afterTimeout_of_skipped (Bool.and_false _)]
    rfl
  | false => rfl

/-- A successful DEV-STOP after a timeout with no result read to follow. -/
theorem acalForcedStop_of_timeout {rb : Bool} (hc : s.cfg = c) (skipped : c.readResultsOnTimeout = false ∨ rb = false)
    (answers : s.Answers 7 [] xs ys) :
    acalForcedStop c rb true s = .stop (.fail .timing) (s.polled (wrEvents c c.regGo 0) xs ys false) := by
  have stopped := polled_of_runs (runs_writeRegister c.regGo 0) (silent_writeRegister _ _) hc answers
  have none : (c.readResultsOnTimeout && rb && true) = false := by
    rcases skipped with h | h <;> simp [h]
  refine (andThen_of_ok (show devStop c s = _ from stopped)).trans ?_
  simp only [if_true]
  rw [afterTimeout_of_skipped none]
  rfl

/-! ### The hard result reads -/

/-- A hard result read: its register, and the field it goes to. -/
structure ResultField where
  reg : Byte
  off : Nat
  put : AcalResult → Byte → AcalResult

/-- The fields of the hard result reads, in order (44_timed_routines.md R177). -/
def hardFields (c : Params) : List ResultField :=
  [⟨c.regStatus, offAcalRes0, fun r v => { r with status := v }⟩,
    ⟨c.regAcalComp, offAcalRes0, fun r v => { r with comp := v }⟩,
    ⟨c.regAcalBemf, offAcalRes0, fun r v => { r with bemf := v }⟩,
    ⟨c.regRatedV, offAcalRes0, fun r v => { r with rated := v }⟩,
    ⟨c.regOdClamp, offAcalRes1, fun r v => { r with clamp := v }⟩]

/-- Hard result reads one after the other. -/
def readFields : List ResultField → Ctl Unit
  | [] => ret ()
  | f :: fs => before (hardRead f.reg f.off f.put) (readFields fs)

theorem hardReads_eq : hardReads c = readFields (hardFields c) := by
  simp only [hardFields, readFields, before_ret_right]
  rfl

theorem hardRegs_eq : hardRegs c = (hardFields c).map ResultField.reg := rfl

/-- The result registers `r` after the first of the reads have answered `bs`. -/
def putFields : List ResultField → List Byte → AcalResult → AcalResult
  | f :: fs, b :: bs, r => putFields fs bs (f.put r b)
  | [], _, r => r
  | _ :: _, [], r => r

/-- The events of the first of the reads, which answer `bs`. -/
def fieldEvents (c : Params) (fs : List ResultField) (bs : List Byte) : List Event :=
  ((fs.map ResultField.reg).zip bs).flatMap fun p => rdEvents c p.1 p.2

/-- The hard reads that answer `bs` fill the registers from 0 to what the rule says. -/
theorem putFields_hardFields (bs : List Byte) : putFields (hardFields c) bs AcalResult.zero = AcalResult.hard bs := by
  rcases bs with _ | ⟨status, _ | ⟨comp, _ | ⟨bemf, _ | ⟨rated, _ | ⟨clamp, bs⟩⟩⟩⟩⟩ <;> rfl

/-- `s` after the first of the reads have answered `bs`, with `w` as what busy reads remember. -/
def State.readTo (s : State) (c : Params) (fs : List ResultField) (bs : List Byte) (xs : List Snapshot)
    (ys : List Byte) (w : List (Nat × Word)) : State :=
  { s.polled (fieldEvents c fs bs) xs ys (!bs.isEmpty) with
    regs := { s.regs with res := putFields fs bs s.regs.res }
    written := w }

theorem readTo_nothing {fs : List ResultField} (answers : s.Answers 0 [] xs ys) (w : List (Nat × Word)) :
    s.readTo c fs [] xs ys w = { s with written := w } := by
  have events : fieldEvents c fs [] = [] := by rw [fieldEvents, List.zip_nil_right, List.flatMap_nil]
  have regs : putFields fs [] s.regs.res = s.regs.res := by cases fs <;> rfl
  simp only [State.readTo, events, regs, List.isEmpty_nil, Bool.not_true, polled_nothing answers]

/-- The state after one read and then the others is the state after all of them. -/
theorem readTo_cons {f : ResultField} {fs : List ResultField} {b : Byte} {bs : List Byte} (w w' : List (Nat × Word)) :
    (s.advance (rdEvents c f.reg b) us vs true { s.regs with res := f.put s.regs.res b } w').readTo c fs bs xs ys w =
      s.readTo c (f :: fs) (b :: bs) xs ys w := by
  simp only [State.readTo, State.advance, State.polled, fieldEvents, putFields, List.map_cons, List.zip_cons_cons,
    List.flatMap_cons, List.append_assoc, List.isEmpty_cons, Bool.not_false, Bool.or_true, Bool.true_or]

/-- Hard result reads of which the first answer `bs` and the next one fails: BUS at once. -/
theorem readFields_of_fail {fs : List ResultField} {bs : List Byte} {f : ResultField} {w : List (Nat × Word)}
    (hc : s.cfg = c) (here : fs[bs.length]? = some f) (answers : s.Answers (9 * bs.length) bs xs ys)
    (failed : readRegister f.reg (s.readTo c fs bs xs ys w) = .ok none t) :
    ∃ w', readFields fs s = .stop (.fail .bus) { t with written := w' } := by
  induction fs generalizing bs s with
  | nil => exact nomatch here
  | cons f₁ fs ih =>
    cases bs with
    | nil =>
      cases here
      rw [readTo_nothing answers] at failed
      have same : readRegister f.reg s = .ok none { t with written := s.written } :=
        (silent_readRegister f.reg).with_written (s := { s with written := w }) s.written answers.quiet failed
      exact ⟨s.written, before_of_stop (hardRead_of_fail same)⟩
    | cons b bs =>
      have answers : s.Answers (9 + 9 * bs.length) ([b] ++ bs) xs ys := by
        rwa [List.length_cons, Nat.mul_succ, Nat.add_comm] at answers
      obtain ⟨us, vs, w₁, first, hv, av⟩ := (runs_hardRead f₁.reg b f₁.off f₁.put).ready hc answers
      rw [← readTo_cons (us := us) (vs := vs) w w₁] at failed
      obtain ⟨w', rest⟩ := ih hv (by simpa using here) av failed
      exact ⟨w', (before_of_ok first).trans rest⟩

/-- `e`, whose result registers are 0, after the events `es` and then hard result reads that answer `bs`. -/
def State.afterHardReads (e : State) (c : Params) (es : List Event) (bs : List Byte) (xs : List Snapshot)
    (ys : List Byte) (w : List (Nat × Word)) : State :=
  { e.polled (es ++ hardReadEvents c bs) xs ys true with
    regs := { e.regs with res := AcalResult.hard bs }
    written := w }

/-- The hard result reads from a state that the events `es`, a read among them, lead to. -/
theorem Reached.readTo_hardFields {e v : State} {es : List Event} {k : Nat} {bs cs : List Byte} {w : List (Nat × Word)}
    (reached : Reached c e es true k cs us vs v) (zero : e.regs.res = AcalResult.zero) :
    v.readTo c (hardFields c) bs xs ys w = e.afterHardReads c es bs xs ys w := by
  rw [State.readTo, reached.polled, reached.regs, zero, putFields_hardFields]
  rfl

end Sys2Proof.Machine
end

section
/-! How AUTOCAL fails (44_timed_routines.md R179): the command with the phase that stops it. -/

namespace Sys2Proof.Machine

section
variable {rb stopped : Bool} {s e t u : State} {xs : List Snapshot} {ys gs : List Byte} {g : Byte} {cls : FailClass}

/-- What the entry actions leave: the answers of the bus are all still to come. -/
theorem acalEntry_leaves (entry : acalEntry rb s = .ok () e) :
    e.cfg = s.cfg ∧ e.regs = (if rb then { s.regs with res := AcalResult.zero } else s.regs) ∧
      ∀ {n bs}, s.Answers n bs xs ys → e.Answers n bs xs ys := by
  obtain ⟨w, same⟩ := acalEntry_eq rb s
  cases same.symm.trans entry
  exact ⟨rfl, rfl, fun answers => ⟨answers.quiet, answers.samples, answers.bytes⟩⟩

/-- AUTOCAL stopped after its entry actions. -/
theorem execAutocal_of_stop (entry : acalEntry rb s = .ok () e)
    (stops : acalPhases s.cfg s.regs.req rb e = .stop (.fail cls) u) (quiet : u.host = []) :
    exec (.autocal rb) s = .next (u.completedWith cls) := by
  have body := (before_of_ok entry).trans stops
  rw [← autocalBody_eq] at body
  exact command_of_fail body quiet

theorem writeRegister_quiet {reg v : Byte} (quiet : s.host = []) (h : writeRegister reg v s = .ok stopped u) :
    u.host = [] :=
  ((silent_writeRegister reg v).quiet quiet h).1

/-- A failing setup write, and the DEV-STOP attempt after it. -/
theorem execAutocal_of_setup_fails {k : Nat} {w : Byte × Byte} (entry : acalEntry rb s = .ok () e)
    (here : (setupWrites s.cfg s.regs.req)[k]? = some w) (answers : s.Answers (7 * k) [] xs ys)
    (failed : writeRegister w.1 w.2 (e.sent (setupEventsTo s.cfg s.regs.req k) xs) = .ok false t)
    (stop : writeRegister s.cfg.regGo 0 t = .ok stopped u) : exec (.autocal rb) s = .next (u.completedWith .bus) := by
  obtain ⟨cfg, -, entered⟩ := acalEntry_leaves entry
  have ready := entered answers
  have quiet : t.host = [] := writeRegister_quiet (s := e.sent _ _) ready.quiet failed
  rw [← polled_of_no_read (ys := ys) ready.bytes] at failed
  have setup := acalSetup_of_stop cfg here ready (mustOrStop_of_fail failed stop)
  exact execAutocal_of_stop entry (before_of_stop setup) (writeRegister_quiet quiet stop)

section
variable (busy : ∀ x ∈ gs, x &&& s.cfg.goMask ≠ 0)
include busy

theorem goClear_of_busy : ∀ x ∈ gs, goClear s.cfg x = false := fun x hx => goClear_eq_false_iff.mpr (busy x hx)

/-- A failing GO read, and the DEV-STOP attempt after it. -/
theorem execAutocal_of_poll_fails (entry : acalEntry rb s = .ok () e) (room : gs.length ≤ effectiveTimeout s.regs.req)
    (answers : s.Answers (84 + 9 * gs.length) gs xs ys)
    (failed : readRegister s.cfg.regGo
      (e.polled (setupEvents s.cfg s.regs.req ++ goSetEvents s.cfg gs) xs ys (!gs.isEmpty)) = .ok none t)
    (stop : writeRegister s.cfg.regGo 0 t = .ok stopped u) : exec (.autocal rb) s = .next (u.completedWith .bus) := by
  obtain ⟨cfg, -, entered⟩ := acalEntry_leaves entry
  have ready := entered answers
  have quiet : t.host = [] := ((silent_readRegister _).quiet (s := e.polled _ _ _ _) ready.quiet failed).1
  obtain ⟨v, setup, reached⟩ := andThen_ready (bs := []) (runs_acalSetup s.regs.req) (silent_acalSetup _) cfg ready
    fun _ => andThen (pollLoop s.cfg (effectiveTimeout s.regs.req)) (acalForcedStop s.cfg rb)
  have stops := pollGo_of_fail failed stop
  rw [← Bool.false_or (!gs.isEmpty), ← reached.polled] at stops
  have polls := pollLoop_of_stop reached.cfg (goClear_of_busy busy) room reached.answers stops
  exact execAutocal_of_stop entry (setup.trans (andThen_of_stop polls)) (writeRegister_quiet quiet stop)

/-- A failing DEV-STOP after the polls: BUS if GO had cleared, else TIMING. -/
theorem execAutocal_of_stop_fails (entry : acalEntry rb s = .ok () e) (room : gs.length ≤ effectiveTimeout s.regs.req)
    (last : goClear s.cfg g = true ∨ gs.length = effectiveTimeout s.regs.req)
    (answers : s.Answers (84 + 9 * (gs.length + 1)) (gs ++ [g]) xs ys)
    (failed : writeRegister s.cfg.regGo 0
      (e.polled (setupEvents s.cfg s.regs.req ++ pollEvents s.cfg gs g) xs ys true) = .ok false u) :
    exec (.autocal rb) s = .next (u.completedWith (if !goClear s.cfg g then .timing else .bus)) := by
  obtain ⟨cfg, -, entered⟩ := acalEntry_leaves entry
  have quiet : u.host = [] := writeRegister_quiet (s := e.polled _ _ _ _) (entered answers).quiet failed
  rw [← List.append_nil (gs ++ [g])] at answers
  obtain ⟨v, run, reached⟩ := acalPhases_ready (k := 0) cfg (goClear_of_busy busy) room last (entered answers)
  rw [← reached.eq] at failed
  exact execAutocal_of_stop entry (run.trans (acalForcedStop_of_fail failed)) quiet

/-- GO never clears, and no result read follows. -/
theorem execAutocal_of_timeout (skipped : s.cfg.readResultsOnTimeout = false ∨ rb = false)
    (set : g &&& s.cfg.goMask ≠ 0) (full : gs.length = effectiveTimeout s.regs.req)
    (answers : s.Answers (84 + 9 * (gs.length + 1) + 7) (gs ++ [g]) xs ys) :
    exec (.autocal rb) s =
      .next (s.settled ((if rb then { s.regs with res := AcalResult.zero } else s.regs).notReady .timing)
        (setupEvents s.cfg s.regs.req ++ pollEvents s.cfg gs g ++ wrEvents s.cfg s.cfg.regGo 0) xs ys true) := by
  obtain ⟨w, entry⟩ := acalEntry_eq rb s
  obtain ⟨cfg, -, entered⟩ := acalEntry_leaves entry
  rw [← List.append_nil (gs ++ [g])] at answers
  obtain ⟨v, run, reached⟩ := acalPhases_ready cfg (goClear_of_busy busy) full.le (.inr full) (entered answers)
  have stops := acalForcedStop_of_timeout reached.cfg skipped reached.answers
  rw [reached.polled] at stops
  rw [goClear_eq_false_iff.mpr set] at run
  exact execAutocal_of_stop entry (run.trans stops) answers.quiet

/-- AUTOCAL with `rb = 1` up to its result reads, when GO clears and the DEV-STOP succeeds. -/
theorem acalResults_ready {k : Nat} {bs : List Byte} (cfg : e.cfg = s.cfg) (clear : g &&& s.cfg.goMask = 0)
    (room : gs.length ≤ effectiveTimeout s.regs.req)
    (answers : e.Answers (84 + 9 * (gs.length + 1) + 7 + k) (gs ++ [g] ++ bs) xs ys) :
    ∃ v, acalPhases s.cfg s.regs.req true e = before (hardReads s.cfg) (bestEffortReads s.cfg) v ∧
      Reached s.cfg e (setupEvents s.cfg s.regs.req ++ pollEvents s.cfg gs g ++ wrEvents s.cfg s.cfg.regGo 0) true k bs
        xs ys v := by
  rw [Nat.add_assoc] at answers
  have cleared : goClear s.cfg g = true := goClear_iff.mpr clear
  obtain ⟨v₁, polls, polled⟩ := acalPhases_ready cfg (goClear_of_busy busy) room (.inl cleared) answers
  rw [cleared] at polls
  obtain ⟨v₂, stop, stopped⟩ := andThen_ready (bs := []) (runs_writeRegister s.cfg.regGo 0) (silent_writeRegister _ _)
    polled.cfg polled.answers
    fun stopped => if !stopped then fail .bus else before (hardReads s.cfg) (bestEffortReads s.cfg)
  exact ⟨v₂, polls.trans stop, polled.trans stopped⟩

/-- A hard result read fails, after GO has cleared and the DEV-STOP has succeeded: no further read and no second
DEV-STOP. -/
theorem execAutocal_of_hardRead_fails {reg : Byte} {bs : List Byte} {w : List (Nat × Word)}
    (entry : acalEntry true s = .ok () e) (clear : g &&& s.cfg.goMask = 0)
    (room : gs.length ≤ effectiveTimeout s.regs.req) (here : (hardRegs s.cfg)[bs.length]? = some reg)
    (answers : s.Answers (84 + 9 * (gs.length + 1) + 7 + 9 * bs.length) (gs ++ [g] ++ bs) xs ys)
    (failed : readRegister reg (e.afterHardReads s.cfg (setupEvents s.cfg s.regs.req ++ pollEvents s.cfg gs g ++
      wrEvents s.cfg s.cfg.regGo 0) bs xs ys w) = .ok none t) :
    exec (.autocal true) s = .next (t.completedWith .bus) ∧ t.regs.res = AcalResult.hard bs := by
  obtain ⟨cfg, regs, entered⟩ := acalEntry_leaves entry
  have zero : e.regs.res = AcalResult.zero := by rw [regs]; rfl
  have ready := entered answers
  obtain ⟨quiet, regs⟩ := (silent_readRegister reg).quiet (s := e.afterHardReads _ _ _ _ _ _) ready.quiet failed
  obtain ⟨v, run, reached⟩ := acalResults_ready busy cfg clear room ready
  obtain ⟨f, field, rfl⟩ : ∃ f, (hardFields s.cfg)[bs.length]? = some f ∧ f.reg = reg := by
    rw [hardRegs_eq, List.getElem?_map] at here
    exact Option.map_eq_some_iff.mp here
  rw [← reached.readTo_hardFields zero] at failed
  obtain ⟨w', stops⟩ := readFields_of_fail reached.cfg field reached.answers failed
  rw [← hardReads_eq] at stops
  exact ⟨execAutocal_of_stop (u := { t with written := w' }) entry (run.trans (before_of_stop stops)) quiet,
    congrArg HostRegs.res regs⟩

end
end

/-- Settles O31: the time-out, then the failing setup write, GO read, DEV-STOP and hard result read. -/
theorem autocalTimesOut : Obligations.AutocalTimesOut := by
  intro s xs ys gs rb limit hlimit busy
  subst hlimit
  refine ⟨fun g skipped set full answers => execAutocal_of_timeout busy skipped set full answers, fun e t u entry =>
    ⟨fun k w stopped here answers failed stop => execAutocal_of_setup_fails entry here answers failed stop,
      fun stopped room answers failed stop => execAutocal_of_poll_fails busy entry room answers failed stop,
      fun g last answers failed => ?_, ?_⟩⟩
  · by_cases clear : g &&& s.cfg.goMask = 0
    · rw [if_pos clear] at last ⊢
      have cleared : goClear s.cfg g = true := goClear_iff.mpr clear
      have fails := execAutocal_of_stop_fails busy entry last (.inl cleared) answers failed
      rwa [cleared] at fails
    · rw [if_neg clear] at last ⊢
      have fails := execAutocal_of_stop_fails busy entry last.le (.inr last) answers failed
      rwa [goClear_eq_false_iff.mpr clear] at fails
  · rintro g reg bs w rfl clear room here answers failed
    exact execAutocal_of_hardRead_fails busy entry clear room here answers failed

end Sys2Proof.Machine
end

section
/-! How commands end (60_exceptions.md R220, R223, R229): the completion step, that every command comes to it, and which
commands an argument check stops before their first event. -/

namespace Sys2Proof.Laws
open Machine

/-- Settles O18: with no host move due, the end of the pseudocode and the completion step are one. -/
theorem completionStep : Obligations.CompletionStep := fun _ _ _ quiet =>
  ⟨fun h => command_of_ok h quiet, fun _ h => command_of_fail h quiet⟩

end Sys2Proof.Laws

namespace Sys2Proof.Machine

/-- Settles O19: a command is pseudocode within a frame, so only a reset can keep it from its completion step. -/
theorem everyCommandEnds : Obligations.EveryCommandEnds := by
  intro i s hs
  obtain ⟨body, -, he⟩ := exec_routine i s
  have next : exec i s = .next (finish (body s)) := he.trans (command_next body s)
  obtain ⟨u, cls, frame, ht⟩ := exec_frame (keep := noView) (fun _ _ => rfl) (fun _ _ => rfl) hs next
  refine ⟨_, next, ?_⟩
  rw [ht]
  refine ⟨rfl, rfl, Option.isNone_iff_eq_none, rfl, fun quiet => ?_⟩
  obtain ⟨status, -⟩ := frame.quiet quiet
  exact (congrArg Status.overrun status :)

/-! ### Pieces that issue no event -/

section
variable {α β : Type}

/-- `m` answers at once: it takes no controller step, so the host makes no move, and it issues no event. -/
def Eventless (m : Ctl α) : Prop :=
  ∀ s, ∃ a t, m s = .ok a t ∧ t.cfg = s.cfg ∧ t.host = s.host ∧ t.trace = s.trace

theorem eventless_ret (a : α) : Eventless (ret a) := fun s => ⟨a, s, rfl, rfl, rfl, rfl⟩

theorem eventless_andThen {m : Ctl α} {f : α → Ctl β} (hm : Eventless m) (hf : ∀ a, Eventless (f a)) :
    Eventless (andThen m f) := fun s => by
  obtain ⟨a, t, ht, cfg, host, trace⟩ := hm s
  obtain ⟨b, u, hu, cfg', host', trace'⟩ := hf a t
  exact ⟨b, u, (andThen_of_ok ht).trans hu, cfg'.trans cfg, host'.trans host, trace'.trans trace⟩

theorem eventless_draw (f : Nat → α) : Eventless (draw f) := fun _ => ⟨_, _, rfl, rfl, rfl, rfl⟩

/-- A command's write of host registers. -/
theorem eventless_writeRegs (off : Nat) (g : HostRegs → HostRegs) :
    Eventless (writeAt off fun s => { s with regs := g s.regs }) := fun _ => ⟨_, _, rfl, rfl, rfl, rfl⟩

theorem eventless_setRdata (v : Half) : Eventless (setRdata v) := eventless_writeRegs _ fun r => { r with rdata := v }

theorem eventless_storeDbuf (i : Nat) (v : Byte) : Eventless (storeDbuf i v) := fun s => by
  refine ⟨(), _, rfl, ?_⟩
  show (s.setDbufByte i v).cfg = s.cfg ∧ (s.setDbufByte i v).host = s.host ∧ (s.setDbufByte i v).trace = s.trace
  rw [setDbufByte_eq]
  exact ⟨rfl, rfl, rfl⟩

theorem eventless_freeRdata : Eventless freeRdata := eventless_andThen (eventless_draw _) eventless_setRdata

theorem eventless_freeDbuf (n : Nat) : Eventless (freeDbuf n) := by
  induction n with
  | zero => exact eventless_ret ()
  | succ n ih =>
    exact eventless_andThen ih fun _ => eventless_andThen (eventless_draw _) fun v => eventless_storeDbuf n v

end

/-! ### Argument checks -/

section
variable {bytes : Nat} {m o : Ctl Unit} {p q : Prop} {ok : Bool} {s t : State}

/-- From `s`, `m` fails with ARG before its first controller step if `p` holds, and never with ARG otherwise. -/
structure ArgFails (bytes : Nat) (p : Prop) (m : Ctl Unit) (s : State) : Prop where
  fails : p → ∃ u, m s = .stop (.fail .arg) u ∧ u.host = s.host ∧ u.trace = s.trace
  passes : ¬p → Within (· ≠ .arg) noView bytes m

theorem ArgFails.congr (hm : ArgFails bytes p m s) (h : p ↔ q) : ArgFails bytes q m s :=
  ⟨fun hq => hm.fails (h.mpr hq), fun hq => hm.passes fun hp => hq (h.mp hp)⟩

/-- Pseudocode with no check of its arguments. -/
theorem argFails_unchecked (hm : Within (· ≠ .arg) noView bytes m) : ArgFails bytes False m s :=
  ⟨False.elim, fun _ => hm⟩

/-- A check, and then the rest if it passes. -/
theorem argFails_require (hm : ArgFails bytes p m s) :
    ArgFails bytes (ok = false ∨ p) (before (require ok .arg) m) s := by
  cases ok with
  | false => exact ⟨fun _ => ⟨s, rfl, rfl, rfl⟩, fun h => absurd (.inl rfl) h⟩
  | true => exact ⟨fun h => hm.fails (h.resolve_left nofun), fun h => hm.passes fun hp => h (.inr hp)⟩

theorem argFails_checked (hm : Within (· ≠ .arg) noView bytes m) :
    ArgFails bytes (ok = false) (before (require ok .arg) m) s :=
  (argFails_require (argFails_unchecked hm)).congr (iff_of_eq (or_false _))

/-- Outputs left open after a failure change neither the class nor the trace. -/
theorem argFails_leavingOpen (ho : Eventless o) (within : Within noClass noView bytes o) (hm : ArgFails bytes p m s) :
    ArgFails bytes p (leavingOpen o m) s where
  fails hp := by
    obtain ⟨u, hu, host, trace⟩ := hm.fails hp
    obtain ⟨_, v, hv, -, host', trace'⟩ := ho u
    exact ⟨v, (leavingOpen_of_fail hu).trans (before_of_ok hv), host'.trans host, trace'.trans trace⟩
  passes hp := within_leavingOpen within (hm.passes hp)

theorem argFails_getter (hm : ArgFails bytes p m s) : ArgFails bytes p (leavingOpen freeRdata m) s :=
  argFails_leavingOpen eventless_freeRdata (within_freeRdata fun _ _ => rfl) hm

/-- The class and the trace of a command by its argument check. -/
theorem command_argFails (hm : ArgFails bytes p m s) (hs : s.NoReset) (h : command m s = .next t) :
    (t.regs.status.errClass = some .arg ↔ p) ∧ (t.regs.status.errClass = some .arg → t.trace = s.trace) := by
  by_cases hp : p
  · obtain ⟨u, hu, host, trace⟩ := hm.fails hp
    have ends : t = completionStep (some .arg) u := by
      simp only [command, hu, finish] at h
      cases h
      rfl
    rcases completionStep_cases (some .arg) u with ⟨v, moved, he⟩ | ⟨hr, -⟩
    · rw [ends, he]
      exact ⟨iff_of_true rfl hp, fun _ => moved.trace.trans trace⟩
    · rw [host] at hr
      exact absurd hr hs
  · have within := hm.passes hp
    have other : t.regs.status.errClass ≠ some .arg := by
      obtain ⟨u, v, -, ⟨-, rfl⟩ | ⟨c, hc, rfl⟩⟩ := command_completes within hs h
      · exact nofun
      · have k := within s
        rw [hc] at k
        exact fun e => k.1 (Option.some.inj e)
    exact ⟨iff_of_false other hp, fun e => absurd e other⟩

end

theorem slotInRange_eq_false_iff (slot : Byte) : slotInRange slot = false ↔ 7 < slot.toNat := by
  rw [slotInRange, decide_eq_false_iff_not, Nat.not_lt]
  exact Iff.rfl

/-- An amplitude made from a voltage passes the check of PLAY_FREQ_AMP (44_timed_routines.md R187). -/
theorem voltToAmp_ne_zero {mv mx : Half} (h : mx ≠ 0) : voltToAmp mv mx ≠ 0 := fun zero => by
  have pos : 1 ≤ mx.toNat := Nat.pos_of_ne_zero fun h0 => h (BitVec.eq_of_toNat_eq h0)
  obtain ⟨low, -⟩ := voltQuotient_range (mv := mv.toNat) pos
  rw [← voltToAmp_toNat pos, zero] at low
  exact absurd low (by decide)

/-- Every command begins with the argument checks of its row, all before its first event (60_exceptions.md R223). -/
theorem exec_argFails (i : Instr) (s : State) :
    ∃ body, exec i s = command body s ∧ ArgFails (dbufBytesWritten i) (argCheckFails s i = true) body s := by
  have view : IgnoresStatus noView := fun _ _ => rfl
  have bus : FailClass.bus ≠ .arg := nofun
  have unchecked (raises : ∀ c, mayRaise i c → c ≠ .arg) (never : argCheckFails s i = false) :
      ∃ body, exec i s = command body s ∧ ArgFails (dbufBytesWritten i) (argCheckFails s i = true) body s := by
    obtain ⟨body, he, within⟩ := exec_within view i (fun _ _ => rfl) s
    exact ⟨body, he, (argFails_unchecked (within_mono raises within)).congr (by rw [never]; simp)⟩
  have getter {reg : Byte} : Within (· ≠ .arg) noView 0 (readToRdata reg) :=
    within_readToRdata view bus (fun _ _ => rfl) reg
  have play (c : Params) (f : Word) (a : Byte) (burst pause : Half) :
      ArgFails 0 (f = 0 ∨ a = 0) (playBody c f.toNat a burst pause) s := by
    refine (argFails_checked <| within_before (within_must bus (within_prepareRealtime view (fun _ _ => rfl) c)) <|
      within_before (within_toneLoop view bus c _ _ _) (within_delayMsUnlessZero view _)).congr ?_
    rw [Bool.and_eq_false_iff, bne_eq_false_iff_eq, bne_eq_false_iff_eq]
    exact or_congr_left (BitVec.toNat_eq (y := 0)).symm
  cases i with
  | busWrite n =>
    exact ⟨_, rfl, (argFails_checked (within_must bus (within_writeBytes view _))).congr (by simp [argCheckFails])⟩
  | busRead reg n dv =>
    refine ⟨_, rfl, argFails_leavingOpen (eventless_freeDbuf n.toNat) (within_freeDbuf _ (Nat.le_refl _)) ?_⟩
    by_cases zero : n = 0#8
    · subst zero
      exact (argFails_require (argFails_unchecked (within_ret ()))).congr (by simp [argCheckFails])
    · have positive : n.toNat ≠ 0 := fun h => zero (BitVec.eq_of_toNat_eq h)
      have read : Within (· ≠ .arg) noView n.toNat (readRegisters storeDbuf reg n.toNat) :=
        within_readRegisters view (fun i b h => within_storeDbuf i b h) reg
      unfold busReadBody
      rw [if_neg positive]
      refine (argFails_require <| argFails_checked <| within_andThen (within_mustGet bus read)
        fun _ => within_ret ()).congr ?_
      simp [argCheckFails, zero]
  | regRead reg dv => exact ⟨_, rfl, (argFails_getter (argFails_checked getter)).congr (by simp [argCheckFails])⟩
  | setWaveform slot effect =>
    exact ⟨_, rfl, (argFails_checked (within_mustWrite view bus _ effect)).congr
      (by simp [argCheckFails, slotInRange_eq_false_iff])⟩
  | getWaveform slot dv =>
    exact ⟨_, rfl, (argFails_getter (argFails_require (argFails_checked getter))).congr
      (by simp [argCheckFails, slotInRange_eq_false_iff])⟩
  | cdStart =>
    refine ⟨_, rfl, (argFails_checked ?_).congr (by simp [argCheckFails])⟩
    exact within_before (within_mustWrite view bus _ _) <| within_before (within_mustWrite view bus _ _) <|
      within_before (within_mustWrite view bus _ _) (within_setCdState (fun _ _ => rfl) _)
  | playFreqAmp amp =>
    exact ⟨_, rfl, (play _ _ amp _ _).congr (by simp [argCheckFails])⟩
  | playFreqVoltage =>
    refine ⟨_, rfl, (argFails_require (argFails_require (play _ _ _ _ _))).congr ?_⟩
    by_cases mx : s.regs.maxMv = 0
    · simp [argCheckFails, mx]
    · have amp : ¬voltToAmp (arg1Mv s.regs) s.regs.maxMv = 0#8 := voltToAmp_ne_zero mx
      simp [argCheckFails, amp]
  | regWrite | clearSequence | setSustain | encRated | decRated | encClamp | decClamp | defaultInit | autocal
  | cdConfigure | cdStop | rtPrepare | agStep =>
    exact unchecked (by simp [mayRaise, busOnly, noClass]) rfl

/-- The checks of a command, written out as the table of 60_exceptions.md R223. -/
theorem argCheckFails_iff (i : Instr) (s : State) : argCheckFails s i = true ↔
    (∃ n, i = .busWrite n ∧ s.cfg.dbufLen.toNat < n.toNat) ∨
      (∃ reg n dv, i = .busRead reg n dv ∧ (dv = false ∨ (n ≠ 0 ∧ s.cfg.dbufLen.toNat < n.toNat))) ∨
      (∃ reg, i = .regRead reg false) ∨
      (∃ slot effect, i = .setWaveform slot effect ∧ 7 < slot.toNat) ∨
      (∃ slot dv, i = .getWaveform slot dv ∧ (dv = false ∨ 7 < slot.toNat)) ∨
      (i = .cdStart ∧ s.regs.cdState = .unconfigured) ∨
      (∃ amp, i = .playFreqAmp amp ∧ (s.regs.arg0 = 0 ∨ amp = 0)) ∨
      (i = .playFreqVoltage ∧ (s.regs.arg1.toNat % 65536 = 0 ∨ s.regs.maxMv = 0 ∨ s.regs.arg0 = 0)) := by
  cases i with
  | busRead reg n dv => cases dv <;> simp [argCheckFails]
  | getWaveform slot dv => cases dv <;> simp [argCheckFails]
  | playFreqVoltage => simp [argCheckFails, ← arg1Mv_toNat, BitVec.toNat_eq]
  | _ => simp [argCheckFails]

/-- Settles O38: a command ends with ARG when a check of its row fails, and everything after its checks raises other
classes. -/
theorem argumentFailures : Obligations.ArgumentFailures := by
  intro i s t hs h
  obtain ⟨body, he, checked⟩ := exec_argFails i s
  obtain ⟨arg, empty⟩ := command_argFails checked hs (he.symm.trans h)
  exact ⟨arg.trans (argCheckFails_iff i s), empty⟩

end Sys2Proof.Machine
end

section
/-! The events of a piece of pseudocode by its outcome, the class of a failure included (`Traces`), and the events of a
bus transaction: what a write and a read issue when they answer OK and when they answer FAIL (40_bus_engine.md R102,
R106 to R109). -/

namespace Sys2Proof.Machine

/-! ### Events by outcome -/

/-- With the parameters `c`, events that meet `P` have been issued since the trace was `tr`. -/
def Since (c : Params) (tr : List Event) (P : List Event → Prop) (s : State) : Prop :=
  s.cfg = c ∧ ∃ es, s.trace = tr ++ es ∧ P es

theorem Since.mono {c : Params} {tr : List Event} {P Q : List Event → Prop} {s : State} (hs : Since c tr P s)
    (h : ∀ es, P es → Q es) : Since c tr Q s := by
  obtain ⟨cfg, es, trace, hes⟩ := hs
  exact ⟨cfg, es, trace, h es hes⟩

section
variable {α β : Type} {c : Params} {P M Q₁ : List Event → Prop} {Q R : α → List Event → Prop}
  {E : FailClass → List Event → Prop}

/-- When the events so far meet `P`, those up to the end of `m` meet `Q` of its answer, or `E` of the class it fails
with; and `m` ends by a reset only if the host schedules one. -/
structure Traces (c : Params) (P : List Event → Prop) (m : Ctl α) (Q : α → List Event → Prop)
    (E : FailClass → List Event → Prop) : Prop where
  within : Within (fun _ => True) noView 256 m
  ok : ∀ {tr s a t}, Since c tr P s → m s = .ok a t → Since c tr (Q a) t
  fail : ∀ {tr s cls t}, Since c tr P s → m s = .stop (.fail cls) t → Since c tr (E cls) t

theorem traces_ret {a : α} (h : ∀ es, P es → Q a es) : Traces c P (ret a) Q E where
  within := within_ret a
  ok hs e := by
    cases e
    exact hs.mono h
  fail _ e := nomatch e

theorem traces_fail {cls : FailClass} (h : ∀ es, P es → E cls es) : Traces c P (fail cls : Ctl α) Q E where
  within := within_fail trivial
  ok _ e := nomatch e
  fail hs e := by
    cases e
    exact hs.mono h

theorem traces_andThen {m : Ctl α} {f : α → Ctl β} {Q : β → List Event → Prop} (hm : Traces c P m R E)
    (hf : ∀ a, Traces c (R a) (f a) Q E) : Traces c P (andThen m f) Q E where
  within := within_andThen hm.within fun a => (hf a).within
  ok hs e := by
    obtain ⟨a, u, first, rest⟩ := ok_of_andThen e
    exact (hf a).ok (hm.ok hs first) rest
  fail hs e := by
    rcases stop_of_andThen e with first | ⟨a, u, first, rest⟩
    · exact hm.fail hs first
    · exact (hf a).fail (hm.ok hs first) rest

theorem traces_before {m : Ctl Unit} {n : Ctl α} (hm : Traces c P m (fun _ => M) E) (hn : Traces c M n Q E) :
    Traces c P (before m n) Q E :=
  traces_andThen hm fun _ => hn

theorem traces_ite {p : Prop} [Decidable p] {m n : Ctl α} (hm : p → Traces c P m Q E) (hn : ¬p → Traces c P n Q E) :
    Traces c P (if p then m else n) Q E := by
  split
  · exact hm ‹_›
  · exact hn ‹_›

/-- A check that fails by a class whose events are those so far. -/
theorem traces_require {cls : FailClass} (ok : Bool) (h : ∀ es, P es → E cls es) :
    Traces c P (require ok cls) (fun _ => P) E :=
  traces_ite (fun _ => traces_ret fun _ h => h) fun _ => traces_fail h

/-- `must p` fails with BUS where `p` answers FAIL. -/
theorem traces_must {p : Ctl Bool} {R : Bool → List Event → Prop} (hp : Traces c P p R E)
    (failed : ∀ es, R false es → E .bus es) : Traces c P (must p) (fun _ => R true) E :=
  traces_andThen hp fun ok => by
    cases ok with
    | true => exact traces_ret fun _ h => h
    | false => exact traces_fail failed

theorem traces_mustGet {p : Ctl (Option α)} {R : Option α → List Event → Prop} (hp : Traces c P p R E)
    (failed : ∀ es, R none es → E .bus es) : Traces c P (mustGet p) (fun v => R (some v)) E :=
  traces_andThen hp fun v => by
    cases v with
    | some v => exact traces_ret fun _ h => h
    | none => exact traces_fail failed

/-- Procedure `p`, then `q` if it answered OK: FAIL of either is FAIL of both. -/
theorem traces_ifOk {p q : Ctl Bool} {R : Bool → List Event → Prop}
    (hp : Traces c P p R E) (hq : Traces c (R true) q R E) : Traces c P (ifOk p q) R E :=
  traces_andThen hp fun ok => by
    cases ok with
    | true => exact hq
    | false => exact traces_ret fun _ h => h

/-- A weaker condition after, from a stronger one before. -/
theorem Traces.mono {m : Ctl α} {P' : List Event → Prop} {Q' : α → List Event → Prop} (hm : Traces c P m Q E)
    (hP : ∀ es, P' es → P es) (hQ : ∀ a es, Q a es → Q' a es) : Traces c P' m Q' E where
  within := hm.within
  ok hs e := (hm.ok (hs.mono hP) e).mono (hQ _)
  fail hs e := hm.fail (hs.mono hP) e

/-- What holds of the events from each of several conditions on those so far. -/
theorem traces_exists {P : Nat → List Event → Prop} {m : Ctl α} (h : ∀ n, Traces c (P n) m Q E) :
    Traces c (fun es => ∃ n, P n es) m Q E where
  within := (h 0).within
  ok := fun ⟨cfg, es, trace, n, hes⟩ => (h n).ok ⟨cfg, es, trace, hes⟩
  fail := fun ⟨cfg, es, trace, n, hes⟩ => (h n).fail ⟨cfg, es, trace, hes⟩

/-- Pseudocode chosen by the latch of direct drive. -/
theorem traces_ofLatch {f : Bool → Ctl α} (h : ∀ b, Traces c P (f b) Q E) :
    Traces c P (fun s => f s.regs.rtReady s) Q E where
  within := within_of_state (f := fun s => f s.regs.rtReady) fun s => (h s.regs.rtReady).within
  ok {_ s _ _} := (h s.regs.rtReady).ok
  fail {_ s _ _} := (h s.regs.rtReady).fail

/-- A piece that issues no event. -/
theorem traces_eventless {m : Ctl α} (within : Within (fun _ => True) noView 256 m) (hm : Eventless m) :
    Traces c P m (fun _ => P) E where
  within := within
  ok {_ s _ _} hs e := by
    obtain ⟨_, u, hu, cfg, -, trace⟩ := hm s
    cases hu.symm.trans e
    obtain ⟨hc, es, ht, hes⟩ := hs
    exact ⟨cfg.trans hc, es, trace.trans ht, hes⟩
  fail {_ s _ _} _ e := by
    obtain ⟨_, u, hu, -⟩ := hm s
    exact nomatch hu.symm.trans e

/-- A piece that fails with no class: its events are whatever they are. -/
theorem traces_anything {m : Ctl α} (within : Within noClass noView 256 m) : Traces c P m (fun _ _ => True) E where
  within := within_mono (fun _ _ => trivial) within
  ok {_ s _ _} hs e := by
    have frame := within s
    rw [e] at frame
    obtain ⟨hc, es, ht, -⟩ := hs
    obtain ⟨fs, grown⟩ := frame.trace
    exact ⟨frame.cfg.trans hc, es ++ fs, by rw [grown, ht, List.append_assoc], trivial⟩
  fail {_ s _ _} _ e := by
    have k := within s
    rw [e] at k
    exact k.1.elim

theorem traces_writeRegs (off : Nat) {g : HostRegs → HostRegs} (hg : ∀ r, (g r).status = r.status) :
    Traces c P (writeAt off fun s => { s with regs := g s.regs }) (fun _ => P) E :=
  traces_eventless (within_writeRegs off (fun _ => rfl) hg) (eventless_writeRegs off g)

/-- Outputs left open after a failure issue no event. -/
theorem traces_leavingOpen {o body : Ctl Unit} (within : Within noClass noView 256 o) (ho : Eventless o)
    (hb : Traces c P body (fun _ => Q₁) E) : Traces c P (leavingOpen o body) (fun _ => Q₁) E where
  within := within_leavingOpen within hb.within
  ok {_ s _ _} hs e := by
    cases h : body s with
    | ok a u =>
      cases (leavingOpen_of_ok h).symm.trans e
      exact hb.ok hs h
    | stop w u =>
      cases w with
      | fail cls =>
        obtain ⟨_, _, _, failed⟩ := ok_of_andThen ((leavingOpen_of_fail h).symm.trans e)
        exact nomatch failed
      | reset => exact nomatch (leavingOpen_of_reset h).symm.trans e
  fail {_ s _ _} hs e := by
    cases h : body s with
    | ok a u => exact nomatch (leavingOpen_of_ok h).symm.trans e
    | stop w u =>
      cases w with
      | fail cls =>
        obtain ⟨_, v, hv, cfg, -, trace⟩ := ho u
        cases ((leavingOpen_of_fail h).trans (before_of_ok hv)).symm.trans e
        obtain ⟨hc, es, ht, hes⟩ := hb.fail hs h
        exact ⟨cfg.trans hc, es, trace.trans ht, hes⟩
      | reset => exact nomatch (leavingOpen_of_reset h).symm.trans e

theorem traces_getter {body : Ctl Unit} (hb : Traces c P body (fun _ => Q₁) E) :
    Traces c P (leavingOpen freeRdata body) (fun _ => Q₁) E :=
  traces_leavingOpen (within_freeRdata fun _ _ => rfl) eventless_freeRdata hb

/-- The events of a command, by its class. -/
theorem command_traces {body : Ctl Unit} {s t : State}
    (hb : Traces s.cfg P body (fun _ => Q₁) E) (hP : P []) (hs : s.NoReset) (h : command body s = .next t) :
    ∃ es, t.trace = s.trace ++ es ∧ ((t.regs.status.errClass = none ∧ Q₁ es) ∨
      ∃ cls, t.regs.status.errClass = some cls ∧ E cls es) := by
  have start : Since s.cfg s.trace P s := ⟨rfl, [], (List.append_nil _).symm, hP⟩
  obtain ⟨u, v, moved, ⟨e, rfl⟩ | ⟨cls, e, rfl⟩⟩ := command_completes hb.within hs h
  · obtain ⟨-, es, trace, hes⟩ := hb.ok start e
    exact ⟨es, moved.trace.trans trace, .inl ⟨rfl, hes⟩⟩
  · obtain ⟨-, es, trace, hes⟩ := hb.fail start e
    exact ⟨es, moved.trace.trans trace, .inr ⟨cls, rfl, hes⟩⟩

/-! ### The events of a piece -/

/-- `m` never fails with a class, and with the parameters `c` the events it issues meet `F` of its answer. -/
structure Emits (c : Params) (m : Ctl α) (F : α → List Event → Prop) : Prop where
  within : Within noClass noView 256 m
  events : ∀ s a t, s.cfg = c → m s = .ok a t → ∃ fs, t.trace = s.trace ++ fs ∧ F a fs

theorem Emits.traces {m : Ctl α} {F : α → List Event → Prop} (hm : Emits c m F)
    (h : ∀ es a fs, P es → F a fs → Q a (es ++ fs)) : Traces c P m Q E where
  within := within_mono (fun _ _ => trivial) hm.within
  ok {_ s a t} hs e := by
    obtain ⟨cfg, es, trace, hes⟩ := hs
    obtain ⟨fs, grown, hfs⟩ := hm.events s a t cfg e
    exact ⟨(hm.within.cfg_eq e).trans cfg, es ++ fs, by rw [grown, trace, List.append_assoc], h es a fs hes hfs⟩
  fail {_ s _ _} _ e := by
    have k := hm.within s
    rw [e] at k
    exact k.1.elim

end

/-! ### Delays -/

/-- Events that neither clear a flag nor send a byte. -/
def Uneventful (es : List Event) : Prop := .clr ∉ es ∧ sentBytes es = []

section
variable {c : Params}

theorem emits_perform {e : Event} (he : e ≠ .clr) (sent : sentBytes [e] = []) :
    Emits c (perform (fun _ => e) id) fun _ => Uneventful where
  within := within_perform_id (fun _ _ => rfl) _
  events s _ t _ h := by
    obtain ⟨u, moved, rfl⟩ := perform_cases h
    refine ⟨[e], congrArg (· ++ [e]) moved.trace, fun hc => he ?_, sent⟩
    exact (List.mem_singleton.mp hc).symm

theorem emits_delayMs (n : Nat) : Emits c (delayMs n) fun _ => Uneventful := emits_perform nofun rfl

theorem emits_delayUs (n : Nat) : Emits c (delayUs n) fun _ => Uneventful := emits_perform nofun rfl

/-! ### Writes -/

/-- The events of a bus write of `p`: its bytes and a STOP at the end if it answered OK, a recovery at the end if not
(40_bus_engine.md R102, R106). -/
def Written (p : List Byte) (ok : Bool) (es : List Event) : Prop :=
  Recovered ok es ∧ (ok = true → sentBytes es = p ∧ (p ≠ [] → [.stop] <:+ es))

theorem ok_of_ifOk {p q : Ctl Bool} {s t : State} (h : ifOk p q s = .ok true t) :
    ∃ u, p s = .ok true u ∧ q u = .ok true t := by
  obtain ⟨ok, u, first, rest⟩ := ok_of_andThen h
  cases ok with
  | true => exact ⟨u, first, rest⟩
  | false => exact nomatch rest

/-- A successful bus write ends with its STOP. -/
theorem writeBytes_stop {p : List Byte} {s t : State} (nonempty : p ≠ []) (h : writeBytes p s = .ok true t) :
    ∃ fs, t.trace = s.trace ++ (fs ++ [.stop]) := by
  cases p with
  | nil => exact absurd rfl nonempty
  | cons b p =>
    obtain ⟨u, start, h⟩ := ok_of_ifOk h
    obtain ⟨v, send, h⟩ := ok_of_ifOk h
    obtain ⟨_, w, stop, rest⟩ := ok_of_andThen h
    cases rest
    obtain ⟨fs, hu, -⟩ := issues_startBus .w s u start
    obtain ⟨gs, hv, -⟩ := issues_sendBytes _ u v send
    obtain ⟨v', moved, rfl⟩ := perform_cases stop
    exact ⟨fs ++ gs, by simp only [id, emit_trace, moved.trace, hv, hu, List.append_assoc]⟩

theorem emits_writeBytes (p : List Byte) : Emits c (writeBytes p) (Written p) where
  within := within_writeBytes (fun _ _ => rfl) p
  events s ok t _ h := by
    obtain ⟨es, ht, recovered⟩ := transacts_writeBytes p s ok t h
    refine ⟨es, ht, recovered, ?_⟩
    rintro rfl
    obtain ⟨fs, hf, sent, -⟩ := issues_writeBytes p s t h
    cases List.append_cancel_left (ht.symm.trans hf)
    refine ⟨sent, fun nonempty => ?_⟩
    obtain ⟨gs, hg⟩ := writeBytes_stop nonempty h
    exact ⟨gs, List.append_cancel_left (hg.symm.trans ht)⟩

/-! ### Reads -/

/-- What the events of a failed read show: a flag clear, or, if `CLEANUP_IDLE_AFFECTS_OUTCOME`, a last sample with the
bus busy (40_bus_engine.md R102, R108). -/
def ReadFailed (c : Params) (es : List Event) : Prop :=
  .clr ∈ es ∨ (c.cleanupIdleAffectsOutcome = true ∧ ∃ fs x, es = fs ++ [.poll x] ∧ x.busy = true)

/-- The wait answers what its last sample shows. -/
theorem waitLoop_last {cond : Cond} {k : Nat} {s t : State} {ok : Bool} (h : waitLoop cond k s = .ok ok t) :
    ∃ fs x, t.trace = s.trace ++ (fs ++ [.poll x]) ∧ ok = condHolds cond x := by
  have sampled {s t : State} {x : Snapshot} (h : sample s = .ok x t) : t.trace = s.trace ++ [.poll x] := by
    obtain ⟨_, u, first, h⟩ := ok_of_andThen h
    obtain ⟨y, xs, d, hy⟩ := takeSample_fields u
    simp only [hy] at h
    cases h
    exact congrArg (· ++ [Event.poll x]) (hostMoved_of_tick first).trace
  induction k generalizing s with
  | zero =>
    obtain ⟨x, u, first, rest⟩ := ok_of_andThen h
    cases rest
    exact ⟨[], x, sampled first, rfl⟩
  | succ k ih =>
    obtain ⟨x, u, first, rest⟩ := ok_of_andThen h
    have here : u.trace = s.trace ++ ([] ++ [.poll x]) := sampled first
    split at rest
    next holds =>
      cases rest
      exact ⟨[], x, here, holds.symm⟩
    next fails =>
      split at rest
      next =>
        cases rest
        exact ⟨[], x, here, (Bool.eq_false_iff.mpr fails).symm⟩
      next =>
        obtain ⟨fs, y, trace, answer⟩ := ih rest
        exact ⟨.poll x :: fs, y, by rw [trace, here]; simp, answer⟩

/-- Cleanup's outcome by its last sample (40_bus_engine.md R108). -/
theorem cleanup_last {q r : Option (List Byte)} {s t : State} (h : cleanup q s = .ok r t) :
    ∃ fs x, t.trace = s.trace ++ (fs ++ [.poll x]) ∧
      r = if x.busy && s.cfg.cleanupIdleAffectsOutcome then none else q := by
  have view : IgnoresStatus noView := fun _ _ => rfl
  obtain ⟨_, u, ack, h⟩ := ok_of_andThen h
  obtain ⟨idle, v, waited, h⟩ := ok_of_andThen h
  have cfg : v.cfg = s.cfg := ((within_wait (F := noClass) (bytes := 0) view .idle).cfg_eq waited).trans
    ((within_setAck (F := noClass) (bytes := 0) view true).cfg_eq ack)
  obtain ⟨gs, hu, -⟩ := noClear_setAck true s () u ack
  obtain ⟨fs, x, hv, answer⟩ := waitLoop_last waited
  cases h
  refine ⟨gs ++ fs, x, by rw [hv, hu]; simp, ?_⟩
  rw [cfg, answer]
  simp [condHolds]

theorem readFailed_poll {es : List Event} {x : Snapshot} : ReadFailed c (es ++ [.poll x]) ↔
    .clr ∈ es ++ [.poll x] ∨ (c.cleanupIdleAffectsOutcome = true ∧ x.busy = true) := by
  refine or_congr_right (and_congr_right fun _ => ⟨?_, fun busy => ⟨es, x, rfl, busy⟩⟩)
  rintro ⟨fs, y, same, busy⟩
  obtain ⟨-, last⟩ := List.append_inj' same rfl
  cases last
  exact busy

/-- A read answers FAIL exactly when its events show it. -/
theorem emits_readRegisters {sink : Nat → Byte → Ctl Unit} (hs : sink = noSink ∨ sink = storeDbuf) (reg : Byte)
    {n : Nat} (hn : n ≤ 256) : Emits c (readRegisters sink reg n) fun q es =>
      es.count .clr ≤ 1 ∧ (q = none ↔ ReadFailed c es) where
  within := within_readRegisters (fun _ _ => rfl) (fun i b h => by
    rcases hs with rfl | rfl
    · exact within_ret _
    · exact within_storeDbuf i b (Nat.lt_of_lt_of_le h hn)) reg
  events s q t hc h := by
    subst hc
    obtain ⟨st, u, read, clean⟩ := ok_of_andThen h
    obtain ⟨es, hu, recovered⟩ := transacts_readBytes hs reg n s st u read
    obtain ⟨fs, x, ht, rfl⟩ := cleanup_last clean
    obtain ⟨gs, ht', unrecovered⟩ := noClear_cleanup st u _ t clean
    cases List.append_cancel_left (ht'.symm.trans ht)
    rw [(within_readBytes hs reg n).cfg_eq read]
    have clears : (es ++ fs ++ [Event.poll x]).count .clr = if st.isSome then 0 else 1 := by
      rw [List.append_assoc, List.count_append, recovered.count, unrecovered.count]
      rfl
    have shown : Event.clr ∈ es ++ fs ++ [Event.poll x] ↔ st = none := by
      rw [← List.count_pos_iff, clears]
      cases st <;> simp
    refine ⟨es ++ fs ++ [.poll x], by rw [ht, hu, List.append_assoc, List.append_assoc], ?_, ?_⟩
    · rw [clears]
      split <;> decide
    · rw [readFailed_poll, shown]
      cases x.busy <;> cases s.cfg.cleanupIdleAffectsOutcome <;> simp

theorem receiveBytes_length {sink : Nat → Byte → Ctl Unit} {n k : Nat} {s t : State} {q : List Byte}
    (h : receiveBytes sink n k s = .ok (some q) t) : q.length = k := by
  induction k generalizing s t q with
  | zero =>
    cases h
    rfl
  | succ k ih =>
    obtain ⟨_, u, -, h⟩ := ok_of_andThen h
    obtain ⟨ok, v, -, h⟩ := ok_of_andThen h
    cases ok with
    | false => exact nomatch h
    | true =>
      obtain ⟨b, w, -, h⟩ := ok_of_andThen h
      obtain ⟨_, x, -, h⟩ := ok_of_andThen h
      obtain ⟨r, y, rest, h⟩ := ok_of_andThen h
      cases r with
      | none => exact nomatch h
      | some bs =>
        cases h
        exact congrArg (· + 1) (ih rest)

/-- A procedure that answers OK or FAIL, then one with a value: a value comes only from OK of the first. -/
theorem value_of_ok {α : Type} {p : Ctl Bool} {m : Ctl (Option α)} {s t : State} {a : α}
    (h : andThen p (fun ok => if ok then m else ret none) s = .ok (some a) t) :
    ∃ u, p s = .ok true u ∧ m u = .ok (some a) t := by
  obtain ⟨ok, u, first, rest⟩ := ok_of_andThen h
  cases ok with
  | true => exact ⟨u, first, rest⟩
  | false => exact nomatch rest

theorem issues_readData (b : Byte) : Issues readData b [] [] :=
  issues_before issues_tick fun s t h => by
    obtain ⟨v, ys, d, hv⟩ := takeByte_fields s
    simp only [hv] at h
    cases h
    exact ⟨[_], rfl, rfl, rfl⟩

theorem issues_setAck (on : Bool) : Issues (setAck on) () [] [] :=
  issues_before issues_tick fun s t h => by
    cases h
    exact ⟨[.ack on], rfl, rfl, rfl⟩

theorem issues_receiveBytes (n k : Nat) (q : Option (List Byte)) : Issues (receiveBytes noSink n k) q [] [] := by
  induction k generalizing q with
  | zero => exact issues_ret _ _
  | succ k ih =>
    have ending : Issues (endOfRead k) () [] [] := issues_ite
      (issues_before (issues_setAck false) (issues_perform _ [] [] (fun _ => rfl) fun _ => rfl)) (issues_ret _ _)
    refine issues_before ending <| issues_andThen (issues_waitOrRecover _) fun _ => issues_ite ?_ (issues_ret _ _)
    exact issues_andThen issues_readData fun b => issues_before (issues_ret () ()) <|
      issues_andThen ih fun _ => issues_ret _ _

/-- The part of a read before its byte loop sends the register's address. -/
theorem issues_openRead (reg : Byte) : Issues (openRead reg) true [reg] [] := by
  have restart : Issues restartBus true [] [] :=
    issues_before (issues_perform _ [] [] (fun _ => rfl) fun _ => rfl) <| issues_ifOk (issues_waitOrRecover _ _) <|
      issues_before (issues_perform _ [] [] (fun _ => rfl) fun _ => rfl) (issues_waitOrRecover _ _)
  exact issues_ifOk (issues_startBus .w) <| issues_ifOk (issues_sendByte reg) restart

theorem issues_cleanup (q r : Option (List Byte)) : Issues (cleanup q) r [] [] :=
  issues_before (issues_setAck true) <| issues_andThen (issues_wait .idle) fun _ s t h => by
    cases h
    exact Issued.refl s

/-- The events of the read of register `reg`: at most one flag clear; FAIL exactly when they show it; and the register's
address is all that a successful one sends. -/
def RegisterRead (c : Params) (reg : Byte) (v : Option Byte) (es : List Event) : Prop :=
  es.count .clr ≤ 1 ∧ (v = none ↔ ReadFailed c es) ∧ (v ≠ none → sentBytes es = [reg])

/-- A successful read of one byte: the byte's value, and what the read sends. -/
theorem readRegisters_one {reg : Byte} {s t : State} {q : List Byte}
    (h : readRegisters noSink reg 1 s = .ok (some q) t) : q.length = 1 ∧ Issued s t [reg] [] := by
  obtain ⟨st, u, read, clean⟩ := ok_of_andThen h
  have same : st = some q := by
    rcases cleanup_outcome clean with e | ⟨e, -⟩
    · exact e.symm
    · exact nomatch e
  rw [same] at read
  obtain ⟨v, opened, received⟩ := value_of_ok read
  exact ⟨receiveBytes_length received, ((issues_openRead reg s v opened).trans
    (issues_receiveBytes 1 1 _ v u received)).trans (issues_cleanup _ _ u t clean)⟩

theorem emits_readRegister (reg : Byte) : Emits c (readRegister reg) (RegisterRead c reg) where
  within := within_readRegister (fun _ _ => rfl) reg
  events s v t hc h := by
    obtain ⟨q, u, read, rest⟩ := ok_of_andThen h
    cases rest
    obtain ⟨es, hu, clears, failed⟩ := (emits_readRegisters (n := 1) (.inl rfl) reg (by decide)).events s q t hc read
    refine ⟨es, hu, clears, ?_⟩
    cases q with
    | none => exact ⟨iff_of_true rfl (failed.mp rfl), fun h => absurd rfl h⟩
    | some q =>
      obtain ⟨length, fs, hf, sent, -⟩ := readRegisters_one read
      cases List.append_cancel_left (hu.symm.trans hf)
      obtain ⟨b, rfl⟩ := List.length_eq_one_iff.mp length
      exact ⟨⟨nofun, fun h => nomatch failed.mpr h⟩, fun _ => sent⟩

end

end Sys2Proof.Machine
end

section
/-! Which class each command fails with, read off its events, in every environment (60_exceptions.md R221, R222, R224,
R225; 44_timed_routines.md R170). -/

namespace Sys2Proof.Machine

/-- However a command ends, its class is one that it may raise. -/
theorem exec_errClass {i : Instr} {s t : State} (h : exec i s = .next t) {cls : FailClass}
    (hc : t.regs.status.errClass = some cls) : mayRaise i cls := by
  have view : IgnoresStatus noView := fun _ _ => rfl
  obtain ⟨body, he, within⟩ := exec_within view i (fun _ _ => rfl) s
  cases he.symm.trans h
  rcases finish_cases view within s with ⟨u, raised, -, hf, raises⟩ | ⟨-, u, -, hf⟩
  · rw [hf] at hc
    exact raises cls hc
  · rw [hf] at hc
    exact nomatch hc

section
variable {c : Params} {P : List Event → Prop}

/-! ### Commands that only write -/

/-- No flag clear. -/
def Clean (es : List Event) : Prop := .clr ∉ es

/-- The events of a command that only writes and fails: with BUS they end with the recovery, the only one; with another
class there is none (44_timed_routines.md R170). -/
def Aborted (cls : FailClass) (es : List Event) : Prop := Recovered (cls != .bus) es

/-- A procedure that only writes, and aborts at the first failure. -/
abbrev WriteProcedure (c : Params) (p : Ctl Bool) : Prop := Traces c Clean p Recovered Aborted

/-- Pseudocode that only writes, and aborts at the first failure. -/
abbrev WritesOnly (c : Params) (m : Ctl Unit) : Prop := Traces c Clean m (fun _ => Clean) Aborted

theorem writes_write (p : List Byte) : WriteProcedure c (writeBytes p) :=
  (emits_writeBytes p).traces fun _ _ _ clean written => written.1.prepend clean

theorem writes_register (reg v : Byte) : WriteProcedure c (writeRegister reg v) := writes_write _

theorem writes_must {p : Ctl Bool} (hp : WriteProcedure c p) : WritesOnly c (must p) := traces_must hp fun _ h => h

theorem writes_mustWrite (reg v : Byte) : WritesOnly c (must (writeRegister reg v)) :=
  writes_must (writes_register reg v)

theorem Uneventful.clean {es fs : List Event} (hs : Clean es) (h : Uneventful fs) : Clean (es ++ fs) :=
  fun hc => (List.mem_append.mp hc).elim hs h.1

theorem writes_delayMs (n : Nat) : WritesOnly c (delayMs n) := (emits_delayMs n).traces fun _ _ _ hs h => h.clean hs

theorem writes_delayUs (n : Nat) : WritesOnly c (delayUs n) := (emits_delayUs n).traces fun _ _ _ hs h => h.clean hs

theorem writes_delayMsUnlessZero (n : Nat) : WritesOnly c (delayMsUnlessZero n) :=
  traces_ite (fun _ => traces_ret fun _ h => h) fun _ => writes_delayMs n

theorem writes_check {ok : Bool} {m : Ctl Unit} (hm : WritesOnly c m) : WritesOnly c (before (require ok .arg) m) :=
  traces_before (traces_require ok fun _ h => h) hm

theorem traces_setCdState {E : FailClass → List Event → Prop} (v : CdState) :
    Traces c P (setCdState v) (fun _ => P) E :=
  traces_writeRegs (g := fun r => { r with cdState := v }) _ fun _ => rfl

theorem traces_setCdStrength {E : FailClass → List Event → Prop} (v : Byte) :
    Traces c P (setCdStrength v) (fun _ => P) E :=
  traces_writeRegs (g := fun r => { r with cdStrength := v.setWidth 7 }) _ fun _ => rfl

theorem writes_clearSlots (ks : List Byte) : WriteProcedure c (clearSlots c ks) := by
  induction ks with
  | nil => exact traces_ret fun _ h => h
  | cons k ks ih => exact traces_ifOk (writes_register _ _) ih

theorem writes_sustain (p n : Byte) : WriteProcedure c (sustain c p n) :=
  traces_ifOk (writes_register _ _) (writes_register _ _)

theorem writes_defaultInitBody : WritesOnly c (defaultInitBody c) :=
  have write (reg v : Byte) {m : Ctl Unit} (hm : WritesOnly c m) := traces_before (writes_mustWrite reg v) hm
  write _ _ <| traces_before (writes_delayMs _) <| write _ _ <| write _ _ <| write _ _ <|
    traces_before (writes_must (writes_clearSlots _)) <| write _ _ <|
    traces_before (writes_must (writes_sustain _ _)) <| write _ _ <| write _ _ (writes_mustWrite _ _)

theorem writes_agStepBody (cursor count : BitVec 9) (frame : Word) (pause : Half) :
    WritesOnly c (agStepBody c cursor count frame pause) :=
  have play (v : Byte) (n : Nat) (next : BitVec 9) :
      WritesOnly c (before (must (setRtp c v)) <| before (delayMsUnlessZero n) <| setAgCursor next) :=
    traces_before (writes_mustWrite _ _) <| traces_before (writes_delayMsUnlessZero n) <|
      traces_writeRegs (g := fun r => { r with agCursor := next }) _ fun _ => rfl
  traces_ite (fun _ => play _ _ _) fun _ => play _ _ _

theorem writes_cdStartBody (state : CdState) (strength : BitVec 7) : WritesOnly c (cdStartBody c state strength) :=
  writes_check <| traces_before (writes_mustWrite _ _) <| traces_before (writes_mustWrite _ _) <|
    traces_before (writes_mustWrite _ _) (traces_setCdState _)

theorem writes_cdStopBody (state : CdState) : WritesOnly c (cdStopBody c state) :=
  traces_before (writes_mustWrite _ _) <| traces_before (writes_mustWrite _ _) <|
    traces_ite (fun _ => traces_setCdState _) fun _ => traces_ret fun _ h => h

/-- `PrepareRealtime()` is nothing or its steps, by the latch. -/
theorem prepareRealtime_latched :
    prepareRealtime c = fun s => (if s.regs.rtReady then ret true else prepareSteps c) s := by
  funext s
  rw [prepareRealtime_eq]
  split <;> rfl

theorem writes_prepareRealtime : WriteProcedure c (prepareRealtime c) := by
  have steps : WriteProcedure c (prepareSteps c) :=
    traces_ifOk (writes_register _ _) <| traces_before (writes_delayMs _) <| traces_ifOk (writes_register _ _) <|
      traces_ifOk (writes_register _ _) <| traces_ifOk (writes_register _ _) <|
      traces_before (traces_writeRegs (g := fun r => { r with rtReady := true }) _ fun _ => rfl) <|
      traces_ret fun _ h => h
  rw [prepareRealtime_latched]
  exact traces_ofLatch (f := fun b => if b then ret true else prepareSteps c) fun _ =>
    traces_ite (fun _ => traces_ret fun _ h => h) fun _ => steps

theorem writes_toneLoop (v : Byte) (h n : Nat) : WritesOnly c (toneLoop c v h n) := by
  induction n with
  | zero => exact traces_ret fun _ h => h
  | succ n ih =>
    exact traces_before (writes_mustWrite _ _) <| traces_before (writes_delayUs _) <|
      traces_before (writes_mustWrite _ _) <| traces_before (writes_delayUs _) ih

theorem writes_playBody (f : Nat) (a : Byte) (burst pause : Half) : WritesOnly c (playBody c f a burst pause) :=
  writes_check <| traces_before (writes_must writes_prepareRealtime) <| traces_before (writes_toneLoop _ _ _) <|
    writes_delayMsUnlessZero _

/-- What the events of a command that only writes say of BUS. -/
theorem command_writesOnly {body : Ctl Unit} {s t : State} (hb : WritesOnly s.cfg body) (hs : s.NoReset)
    (h : command body s = .next t) : ∃ es, t.trace = s.trace ++ es ∧ (t.regs.status.errClass = some .bus ↔ .clr ∈ es) ∧
      (t.regs.status.errClass = some .bus → ∃ fs, es = fs ++ [.stop, .clr] ∧ .clr ∉ fs) := by
  obtain ⟨es, trace, ⟨ready, clean⟩ | ⟨cls, failed, aborted⟩⟩ := command_traces hb List.not_mem_nil hs h
  · refine ⟨es, trace, ?_⟩
    rw [ready]
    exact ⟨iff_of_false nofun clean, nofun⟩
  · refine ⟨es, trace, ?_⟩
    rw [failed]
    by_cases bus : cls = .bus
    · subst bus
      obtain ⟨fs, clean, rfl⟩ := aborted
      exact ⟨iff_of_true rfl (by simp), fun _ => ⟨fs, rfl, clean⟩⟩
    · have other : (some cls : Option FailClass) ≠ some .bus := fun e => bus (Option.some.inj e)
      have clean : Clean es := by
        have k := aborted
        rwa [Aborted, bne_iff_ne.mpr bus] at k
      exact ⟨iff_of_false other clean, fun e => absurd e other⟩

/-! ### Commands that read -/

/-- The events of a command that reads show a failed read exactly when its class is BUS. -/
def ShowsBus (c : Params) (cls : FailClass) (es : List Event) : Prop := cls = .bus ↔ ReadFailed c es

/-- Pseudocode that reads once, after its checks. -/
abbrev ReadsOnce (c : Params) (m : Ctl Unit) : Prop :=
  Traces c (· = []) m (fun _ es => ¬ReadFailed c es) (ShowsBus c)

theorem not_readFailed_nil : ¬ReadFailed c [] := by
  rintro (h | ⟨-, fs, x, h, -⟩)
  · exact nomatch h
  · exact absurd h (by simp)

theorem reads_check {ok : Bool} {m : Ctl Unit} (hm : ReadsOnce c m) : ReadsOnce c (before (require ok .arg) m) :=
  traces_before (traces_require ok fun es h => by
    subst h
    exact iff_of_false nofun not_readFailed_nil) hm

/-- A read that must succeed. -/
theorem reads_mustGet {α : Type} {p : Ctl (Option α)} {F : Option α → List Event → Prop} (hp : Emits c p F)
    (failed : ∀ {v es}, F v es → (v = none ↔ ReadFailed c es)) :
    Traces c (· = []) (mustGet p) (fun _ es => ¬ReadFailed c es) (ShowsBus c) := by
  have read : Traces c (· = []) p (fun v es => v = none ↔ ReadFailed c es) (ShowsBus c) :=
    hp.traces fun es v fs nothing h => by
      rw [nothing]
      exact failed h
  exact traces_andThen read fun v => by
    cases v with
    | some v => exact traces_ret fun es h hf => nomatch h.mpr hf
    | none => exact traces_fail fun es h => iff_of_true rfl (h.mp rfl)

theorem reads_readToRdata (reg : Byte) : ReadsOnce c (readToRdata reg) :=
  traces_andThen (reads_mustGet (emits_readRegister reg) fun h => h.2.1) fun v =>
    traces_writeRegs (g := fun r => { r with rdata := v.setWidth 16 }) _ fun _ => rfl

theorem reads_busReadBody (len : Nat) (reg n : Byte) (dv : Bool) : ReadsOnce c (busReadBody len reg n.toNat dv) :=
  reads_check <| traces_ite (fun _ => traces_ret fun _ h => h ▸ not_readFailed_nil) fun _ => reads_check <|
    traces_andThen (reads_mustGet (emits_readRegisters (.inr rfl) reg n.isLt.le) And.right) fun _ =>
    traces_ret fun _ h => h

theorem command_readsOnce {body : Ctl Unit} {s t : State} (hb : ReadsOnce s.cfg body) (hs : s.NoReset)
    (h : command body s = .next t) : ∃ es, t.trace = s.trace ++ es ∧
      (t.regs.status.errClass = some .bus ↔ ReadFailed s.cfg es) := by
  obtain ⟨es, trace, ⟨ready, fine⟩ | ⟨cls, failed, shows⟩⟩ := command_traces hb rfl hs h
  · exact ⟨es, trace, by rw [ready]; exact iff_of_false nofun fine⟩
  · exact ⟨es, trace, by rw [failed, Option.some.injEq]; exact shows⟩

/-! ### CD_CONFIGURE -/

/-- BUS, by a recovery at the end. -/
def EndsInRecovery (cls : FailClass) (es : List Event) : Prop := cls = .bus ∧ [.stop, .clr] <:+ es

/-- A write that must succeed, whatever came before it: a STOP ends it, or a recovery. -/
theorem ends_mustWrite (reg v : Byte) :
    Traces c P (must (writeRegister reg v)) (fun _ es => [.stop] <:+ es) EndsInRecovery := by
  have write : Traces c P (writeRegister reg v)
      (fun ok es => if ok then [.stop] <:+ es else [.stop, .clr] <:+ es) EndsInRecovery :=
    (emits_writeBytes [reg, v]).traces fun es ok fs _ written => by
      obtain ⟨recovered, sent⟩ := written
      cases ok with
      | true => exact ((sent rfl).2 (List.cons_ne_nil _ _)).trans (List.suffix_append es fs)
      | false =>
        obtain ⟨gs, -, rfl⟩ := recovered
        exact (List.suffix_append gs _).trans (List.suffix_append es _)
  exact traces_must write fun _ h => ⟨rfl, h⟩

/-- The read in the middle is absorbed, and the last event of the whole is that of a write (44_timed_routines.md
R180). -/
theorem ends_cdConfigureBody (motor : Motor) (dt strength library : Byte) :
    Traces c P (cdConfigureBody c motor dt strength library) (fun _ es => [.stop] <:+ es) EndsInRecovery :=
  traces_before (traces_setCdState _) <| traces_before (ends_mustWrite _ _) <| traces_before (ends_mustWrite _ _) <|
    traces_andThen (traces_anything (within_readRegister (fun _ _ => rfl) _)) fun _ =>
    traces_before (ends_mustWrite _ _) <| traces_before (traces_setCdStrength _) (traces_setCdState _)

theorem command_endsInRecovery {body : Ctl Unit} {s t : State}
    (hb : Traces s.cfg (fun _ => True) body (fun _ es => [.stop] <:+ es) EndsInRecovery) (hs : s.NoReset)
    (h : command body s = .next t) : ∃ es, t.trace = s.trace ++ es ∧
      (t.regs.status.errClass = some .bus ↔ ∃ fs, es = fs ++ [.stop, .clr]) := by
  obtain ⟨es, trace, ⟨ready, gs, stop⟩ | ⟨cls, failed, rfl, fs, recovery⟩⟩ := command_traces hb trivial hs h
  · refine ⟨es, trace, ?_⟩
    rw [ready]
    refine iff_of_false nofun ?_
    rintro ⟨fs, rfl⟩
    have same : gs ++ [Event.stop] = (fs ++ [.stop]) ++ [.clr] := by rw [stop]; simp
    exact nomatch (List.append_inj' same rfl).2
  · exact ⟨es, trace, iff_of_true failed ⟨fs, recovery.symm⟩⟩

/-! ### AUTOCAL -/

/-- No flag clear, and the bytes sent are `bs`. -/
def Sent (bs : List Byte) (es : List Event) : Prop := .clr ∉ es ∧ sentBytes es = bs

theorem Sent.append {bs cs : List Byte} {es fs : List Event} (h : Sent bs es) (k : Sent cs fs) :
    Sent (bs ++ cs) (es ++ fs) := by
  obtain ⟨clean, rfl⟩ := h
  obtain ⟨clean', rfl⟩ := k
  exact ⟨fun hc => (List.mem_append.mp hc).elim clean clean', List.filterMap_append⟩

/-- A failed transaction shows in the events, or could have failed in its Cleanup alone. -/
def Shown (c : Params) (es : List Event) : Prop := .clr ∈ es ∨ c.cleanupIdleAffectsOutcome = true

theorem Shown.append {es : List Event} (fs : List Event) (h : Shown c es) : Shown c (es ++ fs) :=
  h.imp_left fun hc => List.mem_append_left fs hc

theorem Shown.prepend (es : List Event) {fs : List Event} (h : Shown c fs) : Shown c (es ++ fs) :=
  h.imp_left fun hc => List.mem_append_right es hc

theorem ReadFailed.shown {es : List Event} (h : ReadFailed c es) : Shown c es := h.imp_right And.left

/-- BUS comes only with a failed transaction. -/
def BusShown (c : Params) (cls : FailClass) (es : List Event) : Prop := cls = .bus → Shown c es

/-- After a successful write of `bs` the bytes sent have grown by them; a failed one shows. -/
theorem sends_write {Q : List Event → Prop} (reg v : Byte) (h : ∀ es fs, P es → Sent [reg, v] fs → Q (es ++ fs)) :
    Traces c P (writeRegister reg v) (fun ok es => if ok then Q es else Shown c es) (BusShown c) :=
  (emits_writeBytes [reg, v]).traces fun es ok fs hes written => by
    obtain ⟨recovered, sent⟩ := written
    cases ok with
    | true => exact h es fs hes ⟨recovered, (sent rfl).1⟩
    | false =>
      obtain ⟨gs, -, rfl⟩ := recovered
      exact .inl (by simp)

theorem sends_read {Q : List Event → Prop} (reg : Byte) (h : ∀ es fs, P es → Sent [reg] fs → Q (es ++ fs)) :
    Traces c P (readRegister reg) (fun v es => if v.isSome then Q es else Shown c es) (BusShown c) :=
  (emits_readRegister reg).traces fun es v fs hes read => by
    obtain ⟨-, failed, sent⟩ := read
    cases v with
    | some v => exact h es fs hes ⟨fun hc => (nomatch failed.mpr (.inl hc)), sent nofun⟩
    | none => exact (failed.mp rfl).shown.prepend es

/-- `StopAbort(BUS)` after a failed transaction: the DEV-STOP adds events (44_timed_routines.md R171). -/
theorem sends_stopAbort {α : Type} {Q : α → List Event → Prop} :
    Traces c (Shown c) (stopAbort c .bus : Ctl α) Q (BusShown c) :=
  traces_andThen (R := fun _ => Shown c)
    ((emits_writeBytes [c.regGo, 0]).traces fun _ _ fs shown _ => shown.append fs) fun _ =>
    traces_fail fun _ shown _ => shown

theorem sends_mustOrStop {Q : List Event → Prop} (reg v : Byte)
    (h : ∀ es fs, P es → Sent [reg, v] fs → Q (es ++ fs)) :
    Traces c P (mustOrStop c (writeRegister reg v)) (fun _ => Q) (BusShown c) :=
  traces_andThen (sends_write reg v h) fun ok => by
    cases ok with
    | true => exact traces_ret fun _ h => h
    | false => exact sends_stopAbort

theorem sends_delayMs (bs : List Byte) (n : Nat) : Traces c (Sent bs) (delayMs n) (fun _ => Sent bs) (BusShown c) :=
  (emits_delayMs n).traces fun _ _ _ sent quiet => by simpa using sent.append (cs := []) quiet

/-- The register and value bytes of register writes, in order. -/
def writeBytesOf (ws : List (Byte × Byte)) : List Byte := ws.flatMap fun w => [w.1, w.2]

theorem sends_writesOrStop (bs : List Byte) (ws : List (Byte × Byte)) :
    Traces c (Sent bs) (writesOrStop c ws) (fun _ => Sent (bs ++ writeBytesOf ws)) (BusShown c) := by
  induction ws generalizing bs with
  | nil => exact traces_ret fun _ h => by simpa [writeBytesOf] using h
  | cons w ws ih =>
    refine traces_before (sends_mustOrStop w.1 w.2 fun _ _ h k => h.append k) ?_
    simpa [writeBytesOf] using ih (bs ++ [w.1, w.2])

/-- The setup phase sends the bytes of its writes in order (44_timed_routines.md R174). -/
theorem sends_acalSetup (q : AcalRequest) : Traces c (· = []) (acalSetup c q)
    (fun _ => Sent (writeBytesOf (setupWrites c q))) (BusShown c) := by
  rw [acalSetup_eq]
  have first : Traces c (· = []) (mustOrStop c (writeRegister c.regMode c.modeIntTrig))
      (fun _ => Sent [c.regMode, c.modeIntTrig]) (BusShown c) :=
    sends_mustOrStop _ _ fun es fs nothing sent => by rwa [nothing]
  exact traces_before first <| traces_before (sends_delayMs _ _) (sends_writesOrStop _ _)

/-- The setup, and then reads of the GO register. -/
def Polled (c : Params) (q : AcalRequest) (es : List Event) : Prop :=
  ∃ n, Sent (writeBytesOf (setupWrites c q) ++ List.replicate n c.regGo) es

theorem sends_pollGo (q : AcalRequest) : Traces c (Polled c q) (pollGo c) (fun _ => Polled c q) (BusShown c) := by
  refine traces_andThen (sends_read c.regGo (Q := Polled c q) ?_) fun v => ?_
  · rintro es fs ⟨n, sent⟩ read
    refine ⟨n + 1, ?_⟩
    rw [List.replicate_succ', ← List.append_assoc]
    exact sent.append read
  · cases v with
    | some g => exact traces_ret fun _ h => h
    | none => exact sends_stopAbort

theorem sends_pollLoop (q : AcalRequest) (k : Nat) :
    Traces c (Polled c q) (pollLoop c k) (fun _ => Polled c q) (BusShown c) := by
  induction k with
  | zero => exact traces_andThen (sends_pollGo q) fun _ => traces_ret fun _ h => h
  | succ k ih =>
    refine traces_andThen (sends_pollGo q) fun _ => traces_ite (fun _ => traces_ret fun _ h => h) fun _ => ?_
    exact traces_before (traces_exists fun n => (sends_delayMs _ _).mono (fun _ h => h) fun _ _ h => ⟨n, h⟩) ih

/-- The hard result reads send the registers' addresses in order (44_timed_routines.md R177). -/
theorem sends_readFields (bs : List Byte) (fs : List ResultField) :
    Traces c (Sent bs) (readFields fs) (fun _ => Sent (bs ++ fs.map ResultField.reg)) (BusShown c) := by
  induction fs generalizing bs with
  | nil => exact traces_ret fun _ h => by simpa using h
  | cons f fs ih =>
    have read := sends_read (c := c) (P := Sent bs) f.reg fun _ _ h k => h.append k
    have hard : Traces c (Sent bs) (hardRead f.reg f.off f.put) (fun _ => Sent (bs ++ [f.reg])) (BusShown c) :=
      traces_andThen (traces_mustGet read fun _ h _ => h) fun v =>
        traces_writeRegs (g := fun r => { r with res := f.put r.res v }) _ fun _ => rfl
    refine traces_before hard ?_
    simpa using ih (bs ++ [f.reg])

/-- Events that send `bs` with no flag clear, and then at most `k` flag clears. -/
def SentThen (bs : List Byte) (k : Nat) (es : List Event) : Prop :=
  ∃ es₁ es₂, es = es₁ ++ es₂ ∧ Sent bs es₁ ∧ es₂.count .clr ≤ k

/-- A best-effort read adds at most one flag clear, whatever it answers (44_timed_routines.md R178). -/
theorem sends_bestEffortRead (bs : List Byte) (k : Nat) (reg : Byte) :
    Traces c (SentThen bs k) (readRegister reg) (fun _ => SentThen bs (k + 1)) (BusShown c) :=
  (emits_readRegister reg).traces fun es v fs => by
    rintro ⟨es₁, es₂, rfl, sent, clears⟩ ⟨more, -⟩
    exact ⟨es₁, es₂ ++ fs, List.append_assoc _ _ _, sent, by rw [List.count_append]; omega⟩

theorem traces_setResult {E : FailClass → List Event → Prop} (off : Nat) (f : AcalResult → AcalResult) :
    Traces c P (setResult off f) (fun _ => P) E :=
  traces_writeRegs (g := fun r => { r with res := f r.res }) off fun _ => rfl

theorem sends_bestEffortReads (bs : List Byte) :
    Traces c (Sent bs) (bestEffortReads c) (fun _ => SentThen bs 2) (BusShown c) := by
  refine Traces.mono (P := SentThen bs 0) ?_ (fun es sent => ⟨es, [], (List.append_nil es).symm, sent, le_rfl⟩)
    fun _ _ h => h
  exact traces_andThen (sends_bestEffortRead _ _ _) fun _ => traces_before (traces_setResult _ _) <|
    traces_andThen (sends_bestEffortRead _ _ _) fun _ => traces_setResult _ _

/-- After a timeout the class is TIMING, whatever the optional reads did (44_timed_routines.md R176). -/
theorem sends_afterTimeout {Q : Unit → List Event → Prop} (rb stopped : Bool) :
    Traces c P (afterTimeout c rb stopped) Q (BusShown c) :=
  have timing {P : List Event → Prop} : Traces c P (fail .timing : Ctl Unit) Q (BusShown c) :=
    traces_fail fun _ _ => nofun
  traces_ite
    (fun _ => traces_before (traces_anything (within_ignoredReads (fun _ _ => rfl) _)) <|
      traces_before (traces_anything (within_freeResults fun _ _ => rfl)) timing)
    fun _ => timing

/-- The events of a READY AUTOCAL: the transactions up to its last hard result read, or with `rb = 0` its DEV-STOP, and
then the best-effort reads. -/
def Calibrated (c : Params) (q : AcalRequest) (rb : Bool) (es : List Event) : Prop :=
  ∃ n es₁ es₂, es = es₁ ++ es₂ ∧ .clr ∉ es₁ ∧
    sentBytes es₁ = (setupWrites c q).flatMap (fun w => [w.1, w.2]) ++ List.replicate n c.regGo ++ [c.regGo, 0] ++
      (if rb then hardRegs c else []) ∧ (rb = false → es₂ = []) ∧ es₂.count .clr ≤ 2

theorem sends_acalForcedStop (q : AcalRequest) (rb timedOut : Bool) :
    Traces c (Polled c q) (acalForcedStop c rb timedOut) (fun _ => Calibrated c q rb) (BusShown c) := by
  refine traces_exists fun n => traces_andThen (sends_write c.regGo 0 fun _ _ h k => h.append k) fun stopped => ?_
  cases timedOut with
  | true => exact sends_afterTimeout rb stopped
  | false =>
    cases stopped with
    | false => exact traces_fail fun _ shown _ => shown
    | true =>
      cases rb with
      | false =>
        refine traces_ret fun es sent => ⟨n, es, [], (List.append_nil es).symm, sent.1, ?_, fun _ => rfl, by decide⟩
        exact sent.2.trans (List.append_nil _).symm
      | true =>
        have hard := sends_readFields (c := c)
          (writeBytesOf (setupWrites c q) ++ List.replicate n c.regGo ++ [c.regGo, 0]) (hardFields c)
        rw [← hardReads_eq, ← hardRegs_eq] at hard
        refine traces_before hard <| (sends_bestEffortReads _).mono (fun _ h => h) fun _ es done => ?_
        obtain ⟨es₁, es₂, same, ⟨clean, sent⟩, clears⟩ := done
        exact ⟨n, es₁, es₂, same, clean, sent, nofun, clears⟩

theorem sends_autocalBody (q : AcalRequest) (rb : Bool) :
    Traces c (· = []) (autocalBody c q rb) (fun _ => Calibrated c q rb) (BusShown c) :=
  have entry : Traces c (· = []) (acalEntry rb) (fun _ => (· = [])) (BusShown c) :=
    traces_ite (fun _ => traces_before (traces_setResult _ _) (traces_setResult _ _)) fun _ => traces_ret fun _ h => h
  traces_before entry <| traces_before (sends_acalSetup q) <|
    traces_andThen ((sends_pollLoop q _).mono (fun _ sent => ⟨0, by simpa using sent⟩) fun _ _ h => h) fun timedOut =>
    sends_acalForcedStop q rb timedOut

theorem execAutocal_classes {rb : Bool} {s t : State} (hs : s.NoReset) (h : exec (.autocal rb) s = .next t) :
    ∃ es, t.trace = s.trace ++ es ∧ (t.regs.status.errClass = none → Calibrated s.cfg s.regs.req rb es) ∧
      (t.regs.status.errClass = some .bus → Shown s.cfg es) := by
  obtain ⟨es, trace, ⟨ready, done⟩ | ⟨cls, failed, shown⟩⟩ := command_traces (sends_autocalBody _ _) rfl hs h
  · exact ⟨es, trace, fun _ => done, fun e => nomatch ready.symm.trans e⟩
  · exact ⟨es, trace, fun e => (nomatch failed.symm.trans e), fun e => shown (Option.some.inj (failed.symm.trans e))⟩

end

/-! ### Every command -/

/-- A codec command issues no event (43_codec.md R164 to R167). -/
theorem execCodec_eventless {v : Half} {s t : State} (hs : s.NoReset) (h : getterCommand (setRdata v) s = .next t) :
    ∃ es, t.trace = s.trace ++ es ∧ es = [] := by
  have body : Traces s.cfg (· = []) (leavingOpen freeRdata (setRdata v)) (fun _ => (· = [])) fun _ => (· = []) :=
    traces_getter (traces_writeRegs (g := fun r => { r with rdata := v }) _ fun _ => rfl)
  obtain ⟨es, trace, ⟨-, nothing⟩ | ⟨cls, -, nothing⟩⟩ := command_traces body rfl hs h
  · exact ⟨es, trace, nothing⟩
  · exact ⟨es, trace, nothing⟩

/-- Settles O39: the classes are those the command may raise, and its events those of its pseudocode by outcome: of one
that only writes, that reads once, that ends with a write, and of AUTOCAL. -/
theorem failureClasses : Obligations.FailureClasses := by
  refine ⟨fun i s t h => ⟨fun timing => ?_, fun illegal => ?_, fun codec => ?_⟩, fun i s t hs h => ?_⟩
  · have raised := exec_errClass h timing
    cases i with
    | autocal rb => exact ⟨rb, rfl⟩
    | _ => simp [mayRaise, busOnly, noClass] at raised
  · have raised := exec_errClass h illegal
    cases i <;> simp [mayRaise, busOnly, noClass] at raised
  · refine Option.eq_none_iff_forall_ne_some.mpr fun cls e => ?_
    have raised := exec_errClass h e
    rcases codec with rfl | rfl | ⟨code, rfl⟩ | ⟨code, rfl⟩ <;> exact raised
  · cases i with
    | busWrite n => exact command_writesOnly (writes_check (writes_must (writes_write _))) hs h
    | regWrite reg value => exact command_writesOnly (writes_mustWrite reg value) hs h
    | setWaveform slot effect => exact command_writesOnly (writes_check (writes_mustWrite _ effect)) hs h
    | clearSequence => exact command_writesOnly (writes_must (writes_clearSlots _)) hs h
    | setSustain pos neg => exact command_writesOnly (writes_must (writes_sustain pos neg)) hs h
    | defaultInit => exact command_writesOnly writes_defaultInitBody hs h
    | cdStart => exact command_writesOnly (writes_cdStartBody _ _) hs h
    | cdStop => exact command_writesOnly (writes_cdStopBody _) hs h
    | rtPrepare => exact command_writesOnly (writes_must writes_prepareRealtime) hs h
    | playFreqAmp amp => exact command_writesOnly (writes_playBody _ amp _ _) hs h
    | playFreqVoltage => exact command_writesOnly (writes_check (writes_check (writes_playBody _ _ _ _))) hs h
    | agStep => exact command_writesOnly (writes_agStepBody _ _ _ _) hs h
    | busRead reg n dv =>
      exact command_readsOnce (traces_leavingOpen (within_freeDbuf _ n.isLt.le) (eventless_freeDbuf _)
        (reads_busReadBody _ reg n dv)) hs h
    | regRead reg dv => exact command_readsOnce (traces_getter (reads_check (reads_readToRdata reg))) hs h
    | getWaveform slot dv =>
      exact command_readsOnce (traces_getter (reads_check (reads_check (reads_readToRdata _)))) hs h
    | cdConfigure motor dt strength library =>
      exact command_endsInRecovery (ends_cdConfigureBody motor dt strength library) hs h
    | autocal rb => exact execAutocal_classes hs h
    | encRated | decRated code | encClamp | decClamp code => exact execCodec_eventless hs h

end Sys2Proof.Machine
end

section
/-! A reset (70_reset_and_hazards.md R250): what a reset that is due makes of the idle machine, of a controller step,
and of a command that has made none yet, and how a command ends by a reset. -/

namespace Sys2Proof.Machine

/-- A reset that is due comes before anything else of a controller step. -/
theorem tick_reset {s : State} {q : List HostMove} (due : s.host = .reset :: q) :
    tick s = .stop .reset ({ s with host := q } : State).applyReset := by
  unfold tick
  rw [due]
  rfl

/-- `t` is `s` after pseudocode that has made no controller step: it can have written host registers and buffers and
have drawn free values. -/
def Unstepped (s t : State) : Prop :=
  ∃ r m w d, t = { s with regs := r, mem := m, written := w, draws := d }

theorem Unstepped.refl (s : State) : Unstepped s s := ⟨s.regs, s.mem, s.written, s.draws, rfl⟩

/-- A command's write is remembered for busy reads, and that is hidden state too. -/
theorem Unstepped.record {s t : State} (off : Nat) (h : Unstepped s t) : Unstepped s (State.record off s t) := by
  obtain ⟨r, m, w, d, rfl⟩ := h
  exact ⟨r, m, _, d, rfl⟩

/-- `t` is `s` after the reset that was due in it, the schedule `q` still to come; free values may have been drawn. -/
def ResetTo (q : List HostMove) (s t : State) : Prop :=
  ∃ d, t = ({ s with host := q, draws := d } : State).applyReset

/-- How pseudocode runs from `s`, where a reset is due: it makes no controller step, or meets the reset at its first. -/
def MeetsReset {α : Type} (q : List HostMove) (s : State) : Run α → Prop
  | .ok _ t | .stop (.fail _) t => Unstepped s t
  | .stop .reset t => ResetTo q s t

section
variable {α β : Type} {q : List HostMove} {s t : State}

/-- What pseudocode without a controller step has done makes no difference to how a run meets the reset. -/
theorem Unstepped.meetsReset (h : Unstepped s t) {run : Run α} (k : MeetsReset q t run) : MeetsReset q s run := by
  obtain ⟨r, m, w, d, rfl⟩ := h
  cases run with
  | ok a u =>
    obtain ⟨r', m', w', d', rfl⟩ := k
    exact ⟨r', m', w', d', rfl⟩
  | stop why u =>
    cases why with
    | fail cls =>
      obtain ⟨r', m', w', d', rfl⟩ := k
      exact ⟨r', m', w', d', rfl⟩
    | reset =>
      obtain ⟨d', rfl⟩ := k
      exact ⟨d', rfl⟩

theorem Unstepped.host (h : Unstepped s t) : t.host = s.host := by
  obtain ⟨r, m, w, d, rfl⟩ := h
  rfl

/-- Wherever a reset is due, `m` makes no controller step before it. -/
def StopsAtReset (q : List HostMove) (m : Ctl α) : Prop := ∀ s, s.host = .reset :: q → MeetsReset q s (m s)

theorem stopsAtReset_fail (cls : FailClass) : StopsAtReset q (fail cls : Ctl α) := fun s _ => Unstepped.refl s

theorem stopsAtReset_andThen {m : Ctl α} {f : α → Ctl β} (hm : StopsAtReset q m)
    (hf : ∀ a, StopsAtReset q (f a)) : StopsAtReset q (andThen m f) := by
  intro s due
  have k := hm s due
  cases e : m s with
  | ok a t =>
    rw [e] at k
    rw [andThen_of_ok e]
    exact Unstepped.meetsReset k (hf a t (k.host.trans due))
  | stop w t =>
    rw [e] at k
    rw [andThen_of_stop e]
    cases w <;> exact k

/-- A controller step begins with the host's moves, and so with the reset. -/
theorem stopsAtReset_step (n : Ctl α) : StopsAtReset q (before tick n) := fun s due => by
  rw [before_of_stop (tick_reset due)]
  exact ⟨s.draws, rfl⟩

theorem stopsAtReset_leavingOpen {o body : Ctl Unit} (ho : StopsAtReset q o) (hb : StopsAtReset q body) :
    StopsAtReset q (leavingOpen o body) := by
  intro s due
  have k := hb s due
  cases e : body s with
  | ok a t =>
    rw [e] at k
    rwa [leavingOpen_of_ok e]
  | stop w t =>
    rw [e] at k
    cases w with
    | reset => rwa [leavingOpen_of_reset e]
    | fail cls =>
      rw [leavingOpen_of_fail e]
      exact Unstepped.meetsReset k (stopsAtReset_andThen ho (fun _ => stopsAtReset_fail cls) t (k.host.trans due))

/-- Of what a program is made of, only what begins with a controller step reaches more than registers and buffers. -/
theorem Program.stopsAtReset {m : Ctl α} (hm : Program m) : StopsAtReset q m := by
  induction hm with
  | ret a => exact fun s _ => Unstepped.refl s
  | fail cls => exact stopsAtReset_fail cls
  | andThen _ _ ihm ihf => exact stopsAtReset_andThen ihm ihf
  | action e => exact stopsAtReset_step _
  | setAck on => exact stopsAtReset_step _
  | clearErr => exact stopsAtReset_step _
  | sample => exact stopsAtReset_step _
  | readData => exact stopsAtReset_step _
  | draw f => exact fun s _ => ⟨s.regs, s.mem, s.written, _, rfl⟩
  | writeRegs _ _ => exact fun s _ => Unstepped.record _ ⟨_, s.mem, s.written, s.draws, rfl⟩
  | storeDbuf i v => exact fun s _ => Unstepped.record _ ⟨s.regs, _, s.written, s.draws, setDbufByte_eq s i v⟩
  | leavingOpen _ _ iho ihb => exact stopsAtReset_leavingOpen iho ihb
  | ofParams _ ih => exact fun s due => ih s.cfg s due
  | ofLatch _ ih => exact fun s due => ih s.regs.rtReady s due

/-- The completion step meets the reset too, if no controller step came before it. -/
theorem completionStep_resetTo (h : Unstepped s t) (due : s.host = .reset :: q) (cls : Option FailClass) :
    ResetTo q s (completionStep cls t) := by
  unfold completionStep
  rw [tick_reset (h.host.trans due)]
  obtain ⟨r, m, w, d, rfl⟩ := h
  exact ⟨d, rfl⟩

/-- A command whose first controller step a reset precedes ends with that reset. -/
theorem finish_resetTo {body : Ctl Unit} (hb : StopsAtReset q body) (due : s.host = .reset :: q) :
    ResetTo q s (finish (body s)) := by
  have k := hb s due
  cases e : body s with
  | ok a t =>
    rw [e] at k
    exact completionStep_resetTo k due none
  | stop w t =>
    rw [e] at k
    cases w with
    | fail cls => exact completionStep_resetTo k due (some cls)
    | reset => exact k

/-- A command ends by its completion step, with no reset on the way, or by one reset that the host scheduled. -/
theorem exec_resets {i : Instr} (h : exec i s = .next t) : t.resets = s.resets ∨
    (HostMove.reset ∈ s.host ∧ ∃ u, Frame noView (dbufBytesWritten i) s u ∧ t = u.applyReset) := by
  obtain ⟨body, run, within⟩ := exec_within (keep := noView) (fun _ _ => rfl) i (fun _ _ => rfl) s
  cases run.symm.trans h
  refine (finish_cases (fun _ _ => rfl) within s).imp_left ?_
  rintro ⟨u, cls, frame, ends, -⟩
  rw [ends, complete_resets, frame.resets]

end

/-- Settles O17: a reset that is due is taken in a step and in a turn of the host; a command that has made no controller
step has changed nothing that the reset does not set again, but for the free values drawn. -/
theorem resetTakesEffect : Obligations.ResetTakesEffect := by
  refine ⟨fun s q due legal => ?_, fun s q due => tick_reset due, fun body s t stopped => ?_, fun i s q due => ?_,
    fun i s t run => ?_⟩
  · rw [step_of_host due rfl legal]
    rfl
  · rw [command_next, stopped]
    rfl
  · obtain ⟨body, program, run⟩ := exec_program_self i s
    obtain ⟨d, ends⟩ := finish_resetTo program.stopsAtReset due
    exact ⟨d, run.trans (congrArg Host.Outcome.next ends)⟩
  · refine (exec_resets run).imp_right ?_
    rintro ⟨scheduled, u, frame, rfl⟩
    exact ⟨congrArg (· + 1) frame.resets, congrArg HostRegs.reset frame.cfg, rfl, rfl, frame.cfg, scheduled⟩

end Sys2Proof.Machine
end

section
/-! The number of events of each bus procedure, by its outcome and in every environment
(70_reset_and_hazards.md R265). -/

namespace Sys2Proof.Machine

/-- `n` lies between `least` and `most` if the outcome is OK, and is at most `failed` if it is FAIL. -/
def WithinBounds (least most failed : Nat) (ok : Bool) (n : Nat) : Prop :=
  if ok then least ≤ n ∧ n ≤ most else n ≤ failed

section
variable {l m f l' m' f' n k : Nat} {ok : Bool}

theorem WithinBounds.least (h : WithinBounds l m f ok n) (answered : ok = true) : l ≤ n := by
  subst answered
  exact h.1

theorem WithinBounds.most (h : WithinBounds l m f ok n) : n ≤ max m f := by
  cases ok with
  | true => exact Nat.le_trans h.2 (Nat.le_max_left m f)
  | false => exact Nat.le_trans h (Nat.le_max_right m f)

theorem WithinBounds.mono (h : WithinBounds l m f ok n) (hl : l' ≤ l) (hm : m ≤ m') (hf : f ≤ f') :
    WithinBounds l' m' f' ok n := by
  cases ok with
  | true => exact ⟨Nat.le_trans hl h.1, Nat.le_trans h.2 hm⟩
  | false => exact Nat.le_trans h hf

/-- `k` events of a piece that answered OK, before those of what follows it. -/
theorem WithinBounds.prepend (hl : l ≤ k) (hm : k ≤ m) (h : WithinBounds l' m' f' ok n) :
    WithinBounds (l + l') (m + m') (m + f') ok (k + n) := by
  cases ok with
  | true => exact ⟨Nat.add_le_add hl h.1, Nat.add_le_add hm h.2⟩
  | false => exact Nat.add_le_add hm h

end

/-- With the parameters `c`, whenever `p` answers `a` the number of events it has issued is within the bounds, `ok a`
saying whether `a` is an OK; and the parameters are kept. -/
def Counts {α : Type} (c : Params) (ok : α → Bool) (least most failed : Nat) (p : Ctl α) : Prop :=
  ∀ s a t, s.cfg = c → p s = .ok a t →
    t.cfg = c ∧ ∃ es, t.trace = s.trace ++ es ∧ WithinBounds least most failed (ok a) es.length

section
variable {α β : Type} {c : Params} {ok : α → Bool} {ok' : β → Bool} {l m f l' m' f' : Nat}

/-- `p`, of which every answer is an OK, issues from `least` to `most` events. -/
abbrev Issuing (c : Params) (least most : Nat) (p : Ctl α) : Prop := Counts c (fun _ => true) least most 0 p

/-- What the bounds say of every answer: the larger of the upper ones holds, and the lower one of an OK. -/
theorem Counts.events {p : Ctl α} (h : Counts c ok l m f p) {s t : State} {a : α} (cfg : s.cfg = c)
    (run : p s = .ok a t) :
    ∃ es, t.trace = s.trace ++ es ∧ (ok a = true → l ≤ es.length) ∧ es.length ≤ max m f := by
  obtain ⟨-, es, trace, bounds⟩ := h s a t cfg run
  exact ⟨es, trace, bounds.least, bounds.most⟩

/-- Wider bounds; the arithmetic is left to `omega`. -/
theorem Counts.mono {p : Ctl α} (h : Counts c ok l m f p) (hl : l' ≤ l := by omega) (hm : m ≤ m' := by omega)
    (hf : f ≤ f' := by omega) : Counts c ok l' m' f' p := by
  intro s a t cfg e
  obtain ⟨cfg', es, trace, bounds⟩ := h s a t cfg e
  exact ⟨cfg', es, trace, bounds.mono hl hm hf⟩

/-- If every answer is an OK, the bound on a FAIL says nothing. -/
theorem Counts.issuing {p : Ctl α} (h : Counts c (fun _ => true) l m f p) (hl : l' ≤ l := by omega)
    (hm : m ≤ m' := by omega) : Issuing c l' m' p :=
  (show Counts c (fun _ => true) l m 0 p from h).mono

theorem counts_ret {a : α} (h : ok a = true) : Counts c ok 0 m f (ret a) := by
  intro s b t cfg e
  cases e
  rw [h]
  exact ⟨cfg, [], (List.append_nil _).symm, Nat.le_refl 0, Nat.zero_le m⟩

theorem issuing_ret (a : α) : Issuing c 0 m (ret a) := counts_ret rfl

/-- After an OK the bounds add up, and a FAIL is passed on at once. -/
theorem counts_andThen {p : Ctl α} {k : α → Ctl β} (hp : Counts c ok l m f p)
    (hk : ∀ a, ok a = true → Counts c ok' l' m' f' (k a))
    (fails : ∀ a, ok a = false → ∃ b, k a = ret b ∧ ok' b = false) :
    Counts c ok' (l + l') (m + m') (max f (m + f')) (andThen p k) := by
  intro s b t cfg e
  obtain ⟨a, u, first, rest⟩ := ok_of_andThen e
  obtain ⟨cfg', es, hu, hes⟩ := hp s a u cfg first
  cases answer : ok a with
  | true =>
    obtain ⟨cfg'', fs, ht, hfs⟩ := hk a answer u b t cfg' rest
    rw [answer] at hes
    refine ⟨cfg'', es ++ fs, by rw [ht, hu, List.append_assoc], ?_⟩
    rw [List.length_append]
    exact (WithinBounds.prepend hes.1 hes.2 hfs).mono (Nat.le_refl _) (Nat.le_refl _) (Nat.le_max_right _ _)
  | false =>
    obtain ⟨b', same, no⟩ := fails a answer
    rw [same] at rest
    cases rest
    rw [answer] at hes
    refine ⟨cfg', es, hu, ?_⟩
    rw [no]
    exact Nat.le_trans hes (Nat.le_max_left _ _)

/-- A piece after one of which every answer is an OK. -/
theorem Issuing.andThen {p : Ctl α} {k : α → Ctl β} (hp : Issuing c l m p) (hk : ∀ a, Counts c ok' l' m' f' (k a)) :
    Counts c ok' (l + l') (m + m') (m + f') (andThen p k) :=
  (counts_andThen hp (fun a _ => hk a) fun _ h => nomatch h).mono

theorem Issuing.before {p : Ctl Unit} {k : Ctl α} (hp : Issuing c l m p) (hk : Counts c ok l' m' f' k) :
    Counts c ok (l + l') (m + m') (m + f') (before p k) :=
  hp.andThen fun _ => hk

/-- A FAIL after a piece that always answers: only the third bound speaks of it. -/
theorem counts_before_fail {p : Ctl Unit} {a : α} (hp : Issuing c l m p) (h : ok a = false) :
    Counts c ok l' m' m (before p (ret a)) := by
  intro s b t cfg e
  obtain ⟨_, u, first, rest⟩ := ok_of_andThen e
  obtain ⟨cfg', es, trace, -, most⟩ := hp s () u cfg first
  cases rest
  rw [h]
  exact ⟨cfg', es, trace, most⟩

theorem counts_ite {p : Prop} [Decidable p] {x y : Ctl α} (hx : Counts c ok l m f x) (hy : Counts c ok l m f y) :
    Counts c ok l m f (if p then x else y) := by
  split
  · exact hx
  · exact hy

theorem counts_ifOk {p q : Ctl Bool} (hp : Counts c id l m f p) (hq : Counts c id l' m' f' q) :
    Counts c id (l + l') (m + m') (max f (m + f')) (ifOk p q) :=
  counts_andThen hp (fun a h => by cases h; exact hq) fun a h => by cases h; exact ⟨false, rfl, rfl⟩

/-- A procedure that answers OK or FAIL, then one with a value. -/
theorem counts_value {p : Ctl Bool} {q : Ctl (Option α)} (hp : Counts c id l m f p)
    (hq : Counts c Option.isSome l' m' f' q) :
    Counts c Option.isSome (l + l') (m + m') (max f (m + f')) (andThen p fun ok => if ok then q else ret none) :=
  counts_andThen hp (fun a h => by cases h; exact hq) fun a h => by cases h; exact ⟨none, rfl, rfl⟩

end

/-! ### Primitives -/

section
variable {c : Params}

theorem HostMoved.cfg {s t : State} (h : HostMoved s t) : t.cfg = s.cfg := by
  obtain ⟨l, d, p, st, rfl⟩ := h
  rfl

/-- A controller step: after the host's moves, which issue nothing, it adds one event and leaves the parameters. -/
theorem issuing_step {α : Type} {g : State → α} {f : State → State} (e : State → Event)
    (hf : ∀ s, (f s).cfg = s.cfg ∧ (f s).trace = s.trace ++ [e s]) :
    Issuing c 1 1 (before tick fun s => .ok (g s) (f s)) := by
  intro s a t cfg h
  obtain ⟨_, u, first, rest⟩ := ok_of_andThen h
  have moved := hostMoved_of_tick first
  cases rest
  obtain ⟨cfg', trace⟩ := hf u
  exact ⟨(cfg'.trans moved.cfg).trans cfg, [e u], by rw [trace, moved.trace], Nat.le_refl 1, Nat.le_refl 1⟩

theorem issuing_perform (e : State → Event) : Issuing c 1 1 (perform e id) := issuing_step e fun _ => ⟨rfl, rfl⟩

theorem issuing_setAck (on : Bool) : Issuing c 1 1 (setAck on) := issuing_step (fun _ => .ack on) fun _ => ⟨rfl, rfl⟩

theorem issuing_clearErr : Issuing c 1 1 clearErr := issuing_step (fun _ => .clr) fun _ => ⟨rfl, rfl⟩

theorem issuing_sample : Issuing c 1 1 sample :=
  issuing_step (fun s => .poll s.takeSample.1) fun s => by
    obtain ⟨x, xs, d, hx⟩ := takeSample_fields s
    simp only [hx]
    exact ⟨rfl, rfl⟩

theorem issuing_readData : Issuing c 1 1 readData :=
  issuing_step (fun s => .rx s.takeByte.1) fun s => by
    obtain ⟨b, ys, d, hb⟩ := takeByte_fields s
    simp only [hb]
    exact ⟨rfl, rfl⟩

theorem issuing_sink {sink : Nat → Byte → Ctl Unit} (hs : sink = noSink ∨ sink = storeDbuf) (i : Nat) (b : Byte) :
    Issuing c 0 0 (sink i b) := by
  rcases hs with rfl | rfl
  · exact counts_ret rfl
  · intro s _ t cfg h
    cases h
    rw [← cfg]
    refine ⟨?_, [], ?_, Nat.le_refl 0, Nat.le_refl 0⟩
    · show (s.setDbufByte i b).cfg = s.cfg
      rw [setDbufByte_cfg]
    · show (s.setDbufByte i b).trace = s.trace ++ []
      rw [setDbufByte_eq, List.append_nil]

/-! ### The wait primitive -/

/-- The loop of a wait takes a first sample and at most `k` more, each an event (40_bus_engine.md R100). -/
theorem issuing_waitLoop (cond : Cond) (k : Nat) : Issuing c 1 (k + 1) (waitLoop cond k) := by
  induction k with
  | zero => exact issuing_sample.andThen fun _ => issuing_ret (m := 0) _
  | succ k ih =>
    have more : Issuing c 0 (k + 1) (waitLoop cond k) := ih.mono
    exact (issuing_sample.andThen fun _ => counts_ite (issuing_ret _) (counts_ite (issuing_ret _) more)).issuing

theorem issuing_wait (cond : Cond) (budget : 1 ≤ condBudget c cond) :
    Issuing c 1 (condBudget c cond) (wait cond) := by
  rintro s a t rfl h
  rw [← Nat.sub_add_cancel budget]
  exact issuing_waitLoop cond _ s a t rfl h

/-- The recovery after a wait that ran out adds two events (40_bus_engine.md R102). -/
theorem counts_waitOrRecover (cond : Cond) (budget : 1 ≤ condBudget c cond) :
    Counts c id 1 (condBudget c cond) (condBudget c cond + 2) (waitOrRecover cond) := by
  have recovered : Issuing c 2 2 recover := ((issuing_perform _).before issuing_clearErr).issuing
  exact ((issuing_wait cond budget).andThen fun _ =>
    counts_ite (counts_ret (m := 0) rfl) (counts_before_fail recovered rfl)).mono

theorem issuing_endOfRead_zero : Issuing c 2 2 (endOfRead 0) :=
  ((issuing_setAck false).before (issuing_perform _)).issuing

theorem issuing_endOfRead_succ (k : Nat) : Issuing c 0 0 (endOfRead (k + 1)) := issuing_ret ()

/-- The sample budgets of the parameters `c` (40_bus_engine.md R101): `wi` for the idle wait, `we` for every other. -/
structure Budgets (c : Params) (wi we : Nat) : Prop where
  idle : wi = c.wIdle.toNat
  event : we = c.wEvent.toNat
  idle_pos : 1 ≤ wi
  event_pos : 1 ≤ we

section
variable {wi we : Nat} (B : Budgets c wi we)
include B

theorem counts_waitIdle : Counts c id 1 wi (wi + 2) (waitOrRecover .idle) := by
  obtain ⟨rfl, -, pos, -⟩ := B
  exact counts_waitOrRecover .idle pos

theorem counts_waitEvent {cond : Cond} (h : cond ≠ .idle) : Counts c id 1 we (we + 2) (waitOrRecover cond) := by
  obtain ⟨-, rfl, -, pos⟩ := B
  have budget : condBudget c cond = c.wEvent.toNat := by
    cases cond with
    | idle => exact absurd rfl h
    | modeSel | txSel | rxSel | txe | byteTx | byteRx => rfl
  rw [← budget] at pos ⊢
  exact counts_waitOrRecover cond pos

theorem counts_startBus (d : Dir) : Counts c id 5 (wi + 2 * we + 2) (wi + 2 * we + 4) (startBus d) := by
  have confirmation : selCond d ≠ .idle := by cases d <;> decide
  exact (counts_ifOk (counts_waitIdle B) <| (issuing_perform _).before <|
    counts_ifOk (counts_waitEvent B (by decide)) <|
      (issuing_perform _).before (counts_waitEvent B confirmation)).mono

theorem counts_restartBus : Counts c id 4 (2 * we + 2) (2 * we + 4) restartBus :=
  ((issuing_perform _).before <| counts_ifOk (counts_waitEvent B (by decide)) <|
    (issuing_perform _).before (counts_waitEvent B (by decide))).mono

theorem counts_sendByte (b : Byte) : Counts c id 3 (2 * we + 1) (2 * we + 3) (sendByte b) :=
  (counts_ifOk (counts_waitEvent B (by decide)) <|
    (issuing_perform _).before (counts_waitEvent B (by decide))).mono

theorem counts_sendBytes (p : List Byte) :
    Counts c id (3 * p.length) (p.length * (2 * we + 1)) (p.length * (2 * we + 1) + 2) (sendBytes p) := by
  induction p with
  | nil => exact counts_ret rfl
  | cons b p ih =>
    rw [List.length_cons, Nat.succ_mul p.length]
    exact (counts_ifOk (counts_sendByte B b) ih).mono

theorem counts_writeBytes {p : List Byte} (nonempty : p ≠ []) :
    Counts c id (6 + 3 * p.length) (wi + 2 * we + 3 + p.length * (2 * we + 1))
      (wi + 2 * we + 4 + p.length * (2 * we + 1)) (writeBytes p) := by
  cases p with
  | nil => exact absurd rfl nonempty
  | cons b p =>
    exact (counts_ifOk (counts_startBus B .w) <| counts_ifOk (counts_sendBytes B (b :: p)) <|
      (issuing_perform _).before (counts_ret (m := 0) (f := 0) rfl)).mono

theorem counts_openRead (reg : Byte) : Counts c id 12 (wi + 6 * we + 5) (wi + 6 * we + 7) (openRead reg) :=
  (counts_ifOk (counts_startBus B .w) <| counts_ifOk (counts_sendByte B reg) (counts_restartBus B)).mono

/-- One byte of a read, after the `e` events before it, and the bytes still to come. -/
theorem counts_receiveByte {sink : Nat → Byte → Ctl Unit} (hs : sink = noSink ∨ sink = storeDbuf) {n k e l m f : Nat}
    (ending : Issuing c e e (endOfRead k)) (rest : Counts c Option.isSome l m f (receiveBytes sink n k)) :
    Counts c Option.isSome (e + 2 + l) (e + we + 1 + m) (e + we + 1 + max 1 (max m f))
      (receiveBytes sink n (k + 1)) := by
  refine (ending.before <| counts_value (counts_waitEvent B (by decide)) <| issuing_readData.andThen fun b =>
    (issuing_sink hs _ b).before <| counts_andThen (ok' := Option.isSome) (l' := 0) (m' := 0) (f' := 0) rest
      (fun q received => counts_ret ?_) fun q failed => ⟨none, ?_, rfl⟩).mono
  · rw [Option.isSome_map, received]
  · rw [Option.isSome_eq_false_iff, Option.isNone_iff_eq_none] at failed
    rw [failed, Option.map_none]

/-- The byte loop of a read of at least one byte: two events of its own end it (40_bus_engine.md R107). -/
theorem counts_receiveBytes {sink : Nat → Byte → Ctl Unit} (hs : sink = noSink ∨ sink = storeDbuf) (n k : Nat) :
    Counts c Option.isSome (2 * (k + 1) + 2) ((k + 1) * (we + 1) + 2) ((k + 1) * (we + 1) + 3)
      (receiveBytes sink n (k + 1)) := by
  induction k with
  | zero =>
    exact (counts_receiveByte B hs issuing_endOfRead_zero (counts_ret (m := 0) (f := 0) rfl)).mono
  | succ k ih =>
    rw [Nat.succ_mul (k + 1)]
    exact (counts_receiveByte B hs (issuing_endOfRead_succ k) ih).mono

theorem issuing_cleanup (st : Option (List Byte)) : Issuing c 2 (wi + 1) (cleanup st) := by
  obtain ⟨rfl, -, pos, -⟩ := B
  have outcome : ∀ idle, Issuing c 0 0 fun s =>
      .ok (if !idle && s.cfg.cleanupIdleAffectsOutcome then none else st) s := fun idle s a t cfg h => by
    cases h
    exact ⟨cfg, [], (List.append_nil _).symm, Nat.le_refl 0, Nat.le_refl 0⟩
  have waited : Issuing c 1 c.wIdle.toNat (wait .idle) := issuing_wait .idle pos
  exact ((issuing_setAck true).before <| waited.andThen outcome).issuing

/-- A read before its Cleanup. -/
theorem counts_readBytes {sink : Nat → Byte → Ctl Unit} (hs : sink = noSink ∨ sink = storeDbuf) (reg : Byte) {n : Nat}
    (nonempty : 1 ≤ n) : Counts c Option.isSome (14 + 2 * n) (wi + 6 * we + 7 + n * (we + 1))
      (wi + 6 * we + 8 + n * (we + 1))
      (andThen (openRead reg) fun ok => if ok then receiveBytes sink n n else ret none) := by
  obtain ⟨k, rfl⟩ := Nat.exists_eq_add_of_le' nonempty
  exact (counts_value (counts_openRead B reg) (counts_receiveBytes B hs (k + 1) k)).mono

/-- Cleanup adds its events whatever the read came to, and can only turn an OK into a FAIL. -/
theorem readRegisters_bounds {sink : Nat → Byte → Ctl Unit} (hs : sink = noSink ∨ sink = storeDbuf) {reg : Byte}
    {n : Nat} (nonempty : 1 ≤ n) {s t : State} {q : Option (List Byte)} (cfg : s.cfg = c)
    (h : readRegisters sink reg n s = .ok q t) :
    ∃ es, t.trace = s.trace ++ es ∧ (q.isSome = true → 16 + 2 * n ≤ es.length) ∧
      es.length ≤ 2 * wi + 6 * we + 9 + n * (we + 1) := by
  obtain ⟨st, u, read, clean⟩ := ok_of_andThen h
  obtain ⟨es, hu, least, most⟩ := (counts_readBytes B hs reg nonempty).events cfg read
  obtain ⟨fs, ht, least', most'⟩ := (issuing_cleanup B st).events
    (((within_readBytes hs reg n).cfg_eq read).trans cfg) clean
  refine ⟨es ++ fs, by rw [ht, hu, List.append_assoc], fun answered => ?_, ?_⟩
  · have same : q = st := (cleanup_outcome clean).resolve_right fun failed => by
      rw [failed.1] at answered
      exact nomatch answered
    have := least (same ▸ answered)
    have := least' rfl
    rw [List.length_append]
    omega
  · rw [List.length_append]
    omega

/-- A register read answers a byte only if its read of one byte answers OK. -/
theorem readRegister_bounds {reg : Byte} {s t : State} {v : Option Byte} (cfg : s.cfg = c)
    (h : readRegister reg s = .ok v t) :
    ∃ es, t.trace = s.trace ++ es ∧ (v.isSome = true → 18 ≤ es.length) ∧ es.length ≤ 2 * wi + 7 * we + 10 := by
  obtain ⟨q, u, read, rest⟩ := ok_of_andThen h
  cases rest
  obtain ⟨es, hu, least, most⟩ := readRegisters_bounds B (.inl rfl) (Nat.le_refl 1) cfg read
  refine ⟨es, hu, fun answered => least ?_, by omega⟩
  cases q with
  | none => exact nomatch answered
  | some q => rfl

end

/-! ### The traces of a target that is always ready -/

theorem writeEvents_length (p : List Byte) : (writeEvents c p).length = 6 + 3 * p.length := by
  have sent : (p.flatMap sendEvents).length = 3 * p.length := by
    simp [List.length_flatMap, sendEvents, Nat.mul_comm]
  simp only [writeEvents, startEvents, List.length_append, List.length_cons, List.length_nil, sent]
  omega

theorem receiveEvents_length (b : Byte) (q : List Byte) : (receiveEvents (b :: q)).length = 4 + 2 * q.length := by
  induction q generalizing b with
  | nil => rfl
  | cons d q ih =>
    simp only [receiveEvents, List.length_cons, ih]
    omega

theorem readEvents_length (reg : Byte) {q : List Byte} (nonempty : q ≠ []) :
    (readEvents c reg q).length = 16 + 2 * q.length := by
  cases q with
  | nil => exact absurd rfl nonempty
  | cons b q =>
    simp only [readEvents, startEvents, sendEvents, List.length_append, List.length_cons, List.length_nil,
      receiveEvents_length]
    omega

/-! ### A failed idle wait -/

/-- With the host quiet, an idle wait whose first sample shows an error ends a write in its recovery. -/
theorem writeBytes_of_idle_fails {p : List Byte} (nonempty : p ≠ []) {s : State} {x : Snapshot} {xs : List Snapshot}
    (quiet : s.host = []) (next : s.samples = x :: xs) (busy : x.busy = true) (error : anyError x = true) :
    ∃ u, writeBytes p s = .ok false u ∧ u.trace = s.trace ++ [.poll x, .stop, .clr] := by
  have waited : wait .idle s = .ok false (s.sampled [x] xs) := by
    have loop := waitLoop_ends .idle [] x xs (condBudget s.cfg .idle - 1) s quiet next nofun (Nat.zero_le _)
      (.inr (.inl error))
    rwa [show condHolds .idle x = false by simp [condHolds, busy]] at loop
  have stopped : genStop (s.sampled [x] xs) = .ok () ((s.sampled [x] xs).emit .stop) := perform_quiet _ _ quiet
  have failed : waitOrRecover .idle s = .ok false
      { ((s.sampled [x] xs).emit .stop).emit .clr with latched := ErrorFlags.clear } := by
    refine (andThen_of_ok waited).trans ?_
    refine before_of_ok ((before_of_ok stopped).trans ?_)
    exact perform_quiet _ _ quiet
  cases p with
  | nil => exact absurd rfl nonempty
  | cons b p => exact ⟨_, ifOk_of_false (ifOk_of_false failed), by simp [State.sampled]⟩

end

/-- Settles O55: the bounds of a procedure add up from those of its waits, its actions and its data reads. -/
theorem eventBounds : Obligations.EventBounds := by
  intro s t wi we hwi hwe idle event
  have B : Budgets s.cfg wi we := ⟨hwi, hwe, idle, event⟩
  refine ⟨fun p ok nonempty h => ?_, fun reg v ok h => ?_, fun sink hs reg n q nonempty h => ?_, fun reg v h => ?_,
    fun p q reg v hp hq => ?_, fun p x xs nonempty quiet next busy error => ?_⟩
  · obtain ⟨es, ht, least, most⟩ := (counts_writeBytes B nonempty).events rfl h
    exact ⟨es, ht, least, by omega⟩
  · obtain ⟨es, ht, least, most⟩ := (counts_writeBytes B (List.cons_ne_nil reg [v])).events rfl h
    simp only [List.length_cons, List.length_nil] at least most
    exact ⟨es, ht, least, by omega⟩
  · exact readRegisters_bounds B hs nonempty rfl h
  · exact readRegister_bounds B rfl h
  · exact ⟨writeEvents_length p, writeEvents_length [reg, v], readEvents_length reg hq,
      readEvents_length reg (List.cons_ne_nil v [])⟩
  · exact writeBytes_of_idle_fails nonempty quiet next busy error

end Sys2Proof.Machine
end
